-- ==== Sys2Proof/Word.lean ====
section
/-!
DEFINITION. The two widths of the machine: a register, an address, an immediate and a displacement
are 32 bits (00_scope.md R3, R7), and the addressable unit is a byte of 8 bits (20_memory.md R40).
-/
namespace Sys2Proof

/-- A 32-bit value: a register, an address or an instruction dword (00_scope.md R3, R7). -/
abbrev Word := BitVec 32

/-- The addressable unit (20_memory.md R40). -/
abbrev Byte := BitVec 8

end Sys2Proof
end

