-- ==== Sys2Proof/Config.lean ====
section
/-!
DEFINITION. What the spec leaves free, as constants without a body, and the fixed addresses and
numbers of the machine (00_scope.md R3, R4).
-/
namespace Sys2Proof

/-- The byte that an address holds when neither the image nor the program has written it. It is fixed
at reset, the same on every read until it is written (20_memory.md R56, 93_implementation_defined.md
U14). DESIGN CHOICE, log 1: a free value, safe. -/
opaque Config.initialByte : Nat → Byte

/-- The byte given by the k-th read of the output data register at address 32: unspecified, a fresh
draw at every read (20_memory.md R52, 93_implementation_defined.md U6). DESIGN CHOICE, log 2: a free
value, safe. -/
opaque Config.outputReadByte : Nat → Byte

/-- The quotient of an assembler division that is not exact: the source does not say how "/" rounds
(30_encoding.md R108, 91_not_in_source.md N23). DESIGN CHOICE, log 21: a free value, safe. -/
opaque Config.inexactQuotient : Int → Int → Int

/-- The address of the output data register, one byte (20_memory.md R49, R52). -/
def Config.outputRegister : Word := 32

/-- The address of the input data register, one byte (20_memory.md R49, R53). -/
def Config.inputRegister : Word := 36

/-- The IVT entry of the error routine (20_memory.md R51). -/
def Config.errorEntry : Nat := 3

/-- The IVT entry of the timer routine (20_memory.md R51). -/
def Config.timerEntry : Nat := 4

/-- The IVT entry of the keyboard routine (20_memory.md R51). -/
def Config.keyboardEntry : Nat := 5

/-- The number of IVT entries (20_memory.md R49). -/
def Config.ivtEntries : Nat := 32

end Sys2Proof
end

