-- ==== Sys2Proof/Syntax.lean ====
section
/-!
DEFINITION. The instructions as terms: one constructor of Instr for each of the 84 rows of
spec/opcode_table.json (a mnemonic and an address mode, and a data type for LOAD and STORE), with
the registers, opcodes, address modes and data types they are made of (30_encoding.md R71 to R82).
-/
namespace Sys2Proof

/-- The eighteen registers a register field selects: R0..R15, SP and PC (10_state.md R23, R24). -/
inductive Reg where
  | gpr (i : Fin 16)
  | sp
  | pc
deriving DecidableEq, Repr

/-- The twenty-five opcodes (30_encoding.md R82). -/
inductive Opcode where
  | int | ret | jmp | call | jz | jnz | jgz | jgez | jlz | jlez
  | load | store
  | push | pop
  | add | sub | mul | div | mod | and | or | xor | not | asl | asr
deriving DecidableEq, Repr

/-- The five address modes (30_encoding.md R74). -/
inductive Mode where
  | imm | regdir | memdir | regind | regdisp
deriving DecidableEq, Repr

/-- The five data types (30_encoding.md R76): a dword, a 16-bit word and a byte, the narrow ones
extended with zeros or with the sign. -/
inductive DataType where
  | dword | uword | sword | ubyte | sbyte
deriving DecidableEq, Repr

/-- One constructor for each row of spec/opcode_table.json. The arguments stand in the order of the
assembler form (30_encoding.md R105): the register Reg1 of a jump, load or store first, then the
operand (its register, then the second dword). `Memdir`, `Regind`, `Regdisp`, `Imm` and `Regdir`
name the address mode (R74). STOREB and STOREW have a second group of rows with the sign-extending
type code, which the assembler does not emit (41_load_store.md R147, R148): `storebSx`, `storewSx`. -/
inductive Instr where
  -- control flow (40_control_flow.md R121 to R131)
  | int (n : Nat)
  | ret
  | jmpMemdir (addr : Word)
  | jmpRegind (base : Reg)
  | jmpRegdisp (base : Reg) (disp : Word)
  | callMemdir (addr : Word)
  | callRegind (base : Reg)
  | callRegdisp (base : Reg) (disp : Word)
  | jzMemdir (tested : Reg) (addr : Word)
  | jzRegind (tested base : Reg)
  | jzRegdisp (tested base : Reg) (disp : Word)
  | jnzMemdir (tested : Reg) (addr : Word)
  | jnzRegind (tested base : Reg)
  | jnzRegdisp (tested base : Reg) (disp : Word)
  | jgzMemdir (tested : Reg) (addr : Word)
  | jgzRegind (tested base : Reg)
  | jgzRegdisp (tested base : Reg) (disp : Word)
  | jgezMemdir (tested : Reg) (addr : Word)
  | jgezRegind (tested base : Reg)
  | jgezRegdisp (tested base : Reg) (disp : Word)
  | jlzMemdir (tested : Reg) (addr : Word)
  | jlzRegind (tested base : Reg)
  | jlzRegdisp (tested base : Reg) (disp : Word)
  | jlezMemdir (tested : Reg) (addr : Word)
  | jlezRegind (tested base : Reg)
  | jlezRegdisp (tested base : Reg) (disp : Word)
  -- loads (41_load_store.md R141 to R145)
  | loadImm (dst : Reg) (value : Word)
  | loadRegdir (dst src : Reg)
  | loadMemdir (dst : Reg) (addr : Word)
  | loadRegind (dst base : Reg)
  | loadRegdisp (dst base : Reg) (disp : Word)
  | loadubImm (dst : Reg) (value : Word)
  | loadubRegdir (dst src : Reg)
  | loadubMemdir (dst : Reg) (addr : Word)
  | loadubRegind (dst base : Reg)
  | loadubRegdisp (dst base : Reg) (disp : Word)
  | loadsbImm (dst : Reg) (value : Word)
  | loadsbRegdir (dst src : Reg)
  | loadsbMemdir (dst : Reg) (addr : Word)
  | loadsbRegind (dst base : Reg)
  | loadsbRegdisp (dst base : Reg) (disp : Word)
  | loaduwImm (dst : Reg) (value : Word)
  | loaduwRegdir (dst src : Reg)
  | loaduwMemdir (dst : Reg) (addr : Word)
  | loaduwRegind (dst base : Reg)
  | loaduwRegdisp (dst base : Reg) (disp : Word)
  | loadswImm (dst : Reg) (value : Word)
  | loadswRegdir (dst src : Reg)
  | loadswMemdir (dst : Reg) (addr : Word)
  | loadswRegind (dst base : Reg)
  | loadswRegdisp (dst base : Reg) (disp : Word)
  -- stores (41_load_store.md R146 to R148)
  | storeRegdir (src dst : Reg)
  | storeMemdir (src : Reg) (addr : Word)
  | storeRegind (src base : Reg)
  | storeRegdisp (src base : Reg) (disp : Word)
  | storebRegdir (src dst : Reg)
  | storebMemdir (src : Reg) (addr : Word)
  | storebRegind (src base : Reg)
  | storebRegdisp (src base : Reg) (disp : Word)
  | storebSxRegdir (src dst : Reg)
  | storebSxMemdir (src : Reg) (addr : Word)
  | storebSxRegind (src base : Reg)
  | storebSxRegdisp (src base : Reg) (disp : Word)
  | storewRegdir (src dst : Reg)
  | storewMemdir (src : Reg) (addr : Word)
  | storewRegind (src base : Reg)
  | storewRegdisp (src base : Reg) (disp : Word)
  | storewSxRegdir (src dst : Reg)
  | storewSxMemdir (src : Reg) (addr : Word)
  | storewSxRegind (src base : Reg)
  | storewSxRegdisp (src base : Reg) (disp : Word)
  -- stack (42_stack.md R151, R152)
  | push (src : Reg)
  | pop (dst : Reg)
  -- arithmetic and logic (43_alu.md R161 to R171)
  | add (dst src1 src2 : Reg)
  | sub (dst src1 src2 : Reg)
  | mul (dst src1 src2 : Reg)
  | div (dst src1 src2 : Reg)
  | mod (dst src1 src2 : Reg)
  | and (dst src1 src2 : Reg)
  | or (dst src1 src2 : Reg)
  | xor (dst src1 src2 : Reg)
  | not (dst src : Reg)
  | asl (dst src1 src2 : Reg)
  | asr (dst src1 src2 : Reg)
deriving DecidableEq, Repr

end Sys2Proof
end

