-- ==== Sys2Proof/WellFormed.lean ====
section
/-!
DEFINITION. Which terms of Instr an encoding holds. Registers, address modes, data types and the
second dword are of types that hold only legal values; the interrupt number of INT is a number, and
its field has five bits (40_control_flow.md R121: n is 0..31).
-/
namespace Sys2Proof

/-- An instruction that some words encode: an INT names one of the 32 entries (R121), and every other
term is well formed by its type. -/
def Instr.wellFormed (i : Instr) : Bool :=
  match i with
  | .int n => decide (n < Config.ivtEntries)
  | _ => true

end Sys2Proof
end

