-- ==== Sys2Proof/Decode.lean ====
section
/-!
DEFINITION. Decoding and encoding (30_encoding.md part A). The decoder follows the checks of R91 in
their order: opcode, address mode, register codes, data type. It is total and rejects by name. The
encoder writes the words of a well-formed instruction with every unused field zero (R81, R105).
-/
namespace Sys2Proof

/-- Why a dword is no instruction: the five decode conditions of 60_exceptions.md R182, and too few
bytes, which a fetch never meets. -/
inductive DecodeError where
  /-- E-OPC: the opcode is undefined (30_encoding.md R85). -/
  | undefinedOpcode
  /-- E-AM: the address-mode code is undefined (R86). -/
  | undefinedMode
  /-- E-MODE: the instruction does not accept the address mode (R87). -/
  | modeNotAccepted
  /-- E-REG: a register field that the form uses holds 0x12..0x1F (R88). -/
  | undefinedRegister
  /-- E-TYPE: LOAD or STORE with an undefined data type code (R89). -/
  | undefinedDataType
  /-- Fewer bytes were given than the instruction has (no condition of the machine). -/
  | tooFewBytes
deriving DecidableEq, Repr

/-! ## The fields of the first dword -/

/-- The fields of the first dword (30_encoding.md R71). Bits 2..0 hold nothing. -/
structure Fields where
  op : BitVec 8
  am : BitVec 3
  r0 : BitVec 5
  r1 : BitVec 5
  r2 : BitVec 5
  ty : BitVec 3
deriving DecidableEq, Repr

/-- The fields of a first dword (R71, R91 step 2). -/
def Fields.ofWord (w : Word) : Fields where
  op := w.extractLsb' 24 8
  am := w.extractLsb' 21 3
  r0 := w.extractLsb' 16 5
  r1 := w.extractLsb' 11 5
  r2 := w.extractLsb' 6 5
  ty := w.extractLsb' 3 3

/-- The first dword with given fields, its unused bits 2..0 zero (R71). -/
def Fields.toWord (f : Fields) : Word :=
  f.op ++ f.am ++ f.r0 ++ f.r1 ++ f.r2 ++ f.ty ++ 0#3

/-! ## The code tables -/

/-- The opcode's code (R82). -/
def Opcode.code (o : Opcode) : BitVec 8 :=
  match o with
  | .int => 0x00 | .ret => 0x01 | .jmp => 0x02 | .call => 0x03
  | .jz => 0x04 | .jnz => 0x05 | .jgz => 0x06 | .jgez => 0x07 | .jlz => 0x08 | .jlez => 0x09
  | .load => 0x10 | .store => 0x11
  | .push => 0x20 | .pop => 0x21
  | .add => 0x30 | .sub => 0x31 | .mul => 0x32 | .div => 0x33 | .mod => 0x34 | .and => 0x35
  | .or => 0x36 | .xor => 0x37 | .not => 0x38 | .asl => 0x39 | .asr => 0x3A

/-- The opcode map (R82). -/
def Opcode.all : List Opcode :=
  [.int, .ret, .jmp, .call, .jz, .jnz, .jgz, .jgez, .jlz, .jlez, .load, .store, .push, .pop,
   .add, .sub, .mul, .div, .mod, .and, .or, .xor, .not, .asl, .asr]

/-- The opcode with a code, none where the code is undefined (R82, R85). -/
def Opcode.ofCode (c : BitVec 8) : Option Opcode :=
  Opcode.all.find? (fun o => o.code == c)

/-- The address mode's code (R74). -/
def Mode.code (m : Mode) : BitVec 3 :=
  match m with
  | .imm => 0b100 | .regdir => 0b000 | .memdir => 0b110 | .regind => 0b010 | .regdisp => 0b111

/-- The address mode with a code, none where the code is undefined (R74, R86). -/
def Mode.ofCode (c : BitVec 3) : Option Mode :=
  [Mode.imm, .regdir, .memdir, .regind, .regdisp].find? (fun m => m.code == c)

/-- The data type's code (R76). -/
def DataType.code (t : DataType) : BitVec 3 :=
  match t with
  | .dword => 0b000 | .uword => 0b001 | .sword => 0b101 | .ubyte => 0b011 | .sbyte => 0b111

/-- The data type with a code, none where the code is undefined (R76, R89). -/
def DataType.ofCode (c : BitVec 3) : Option DataType :=
  [DataType.dword, .uword, .sword, .ubyte, .sbyte].find? (fun t => t.code == c)

/-- The register's code (R75, 10_state.md R23). -/
def Reg.code (r : Reg) : BitVec 5 :=
  match r with
  | .gpr i => BitVec.ofNat 5 i.val
  | .sp => 0x10
  | .pc => 0x11

/-- The register with a code; 0x12..0x1F select nothing (R75, 10_state.md R23). -/
def Reg.ofCode (c : BitVec 5) : Option Reg :=
  if h : c.toNat < 16 then some (.gpr ⟨c.toNat, h⟩)
  else if c = 0x10 then some .sp
  else if c = 0x11 then some .pc
  else none

/-! ## The rows of LOAD and STORE by data type -/

/-- The LOAD row of a data type in immediate mode (30_encoding.md R82). -/
def Instr.loadImmOf (t : DataType) : Reg → Word → Instr :=
  match t with
  | .dword => .loadImm
  | .uword => .loaduwImm
  | .sword => .loadswImm
  | .ubyte => .loadubImm
  | .sbyte => .loadsbImm

/-- The LOAD row of a data type in register direct mode (30_encoding.md R82). -/
def Instr.loadRegdirOf (t : DataType) : Reg → Reg → Instr :=
  match t with
  | .dword => .loadRegdir
  | .uword => .loaduwRegdir
  | .sword => .loadswRegdir
  | .ubyte => .loadubRegdir
  | .sbyte => .loadsbRegdir

/-- The LOAD row of a data type in memory direct mode (30_encoding.md R82). -/
def Instr.loadMemdirOf (t : DataType) : Reg → Word → Instr :=
  match t with
  | .dword => .loadMemdir
  | .uword => .loaduwMemdir
  | .sword => .loadswMemdir
  | .ubyte => .loadubMemdir
  | .sbyte => .loadsbMemdir

/-- The LOAD row of a data type in register indirect mode (30_encoding.md R82). -/
def Instr.loadRegindOf (t : DataType) : Reg → Reg → Instr :=
  match t with
  | .dword => .loadRegind
  | .uword => .loaduwRegind
  | .sword => .loadswRegind
  | .ubyte => .loadubRegind
  | .sbyte => .loadsbRegind

/-- The LOAD row of a data type in register indirect with displacement mode (30_encoding.md R82). -/
def Instr.loadRegdispOf (t : DataType) : Reg → Reg → Word → Instr :=
  match t with
  | .dword => .loadRegdisp
  | .uword => .loaduwRegdisp
  | .sword => .loadswRegdisp
  | .ubyte => .loadubRegdisp
  | .sbyte => .loadsbRegdisp

/-- The STORE row of a data type in register direct mode (30_encoding.md R82). -/
def Instr.storeRegdirOf (t : DataType) : Reg → Reg → Instr :=
  match t with
  | .dword => .storeRegdir
  | .uword => .storewRegdir
  | .sword => .storewSxRegdir
  | .ubyte => .storebRegdir
  | .sbyte => .storebSxRegdir

/-- The STORE row of a data type in memory direct mode (30_encoding.md R82). -/
def Instr.storeMemdirOf (t : DataType) : Reg → Word → Instr :=
  match t with
  | .dword => .storeMemdir
  | .uword => .storewMemdir
  | .sword => .storewSxMemdir
  | .ubyte => .storebMemdir
  | .sbyte => .storebSxMemdir

/-- The STORE row of a data type in register indirect mode (30_encoding.md R82). -/
def Instr.storeRegindOf (t : DataType) : Reg → Reg → Instr :=
  match t with
  | .dword => .storeRegind
  | .uword => .storewRegind
  | .sword => .storewSxRegind
  | .ubyte => .storebRegind
  | .sbyte => .storebSxRegind

/-- The STORE row of a data type in register indirect with displacement mode (30_encoding.md R82). -/
def Instr.storeRegdispOf (t : DataType) : Reg → Reg → Word → Instr :=
  match t with
  | .dword => .storeRegdisp
  | .uword => .storewRegdisp
  | .sword => .storewSxRegdisp
  | .ubyte => .storebRegdisp
  | .sbyte => .storebSxRegdisp

/-! ## The decoder -/

/-- What a first dword decodes to: a whole one-dword instruction, or a two-dword instruction that
waits for its second dword (R73). -/
inductive Shape where
  | one (i : Instr)
  | two (i : Word → Instr)

/-- A register field that the form uses, checked (R88). -/
def decodeReg (c : BitVec 5) : Except DecodeError Reg :=
  match Reg.ofCode c with
  | some r => .ok r
  | none => .error .undefinedRegister

/-- The data type field of LOAD and STORE, checked (R89). -/
def decodeType (c : BitVec 3) : Except DecodeError DataType :=
  match DataType.ofCode c with
  | some t => .ok t
  | none => .error .undefinedDataType

/-- A form with the mode 0b000 only: INT, RET, stack, arithmetic and logic (R83, R84, R87). -/
def onlyRegdir (am : Mode) (form : Except DecodeError Shape) : Except DecodeError Shape :=
  match am with
  | .regdir => form
  | .imm | .memdir | .regind | .regdisp => .error .modeNotAccepted

/-- A one-dword form with one register (R79). -/
def oneReg (c : BitVec 5) (i : Reg → Instr) : Except DecodeError Shape := do
  let r ← decodeReg c
  return .one (i r)

/-- A one-dword form with two registers (R80, NOT). -/
def twoRegs (c0 c1 : BitVec 5) (i : Reg → Reg → Instr) : Except DecodeError Shape := do
  let r0 ← decodeReg c0
  let r1 ← decodeReg c1
  return .one (i r0 r1)

/-- A one-dword form with three registers (R80). -/
def threeRegs (c0 c1 c2 : BitVec 5) (i : Reg → Reg → Reg → Instr) : Except DecodeError Shape := do
  let r0 ← decodeReg c0
  let r1 ← decodeReg c1
  let r2 ← decodeReg c2
  return .one (i r0 r1 r2)

/-- JMP and CALL: the three memory modes, Reg0 the base register (R77, R83). -/
def jumpForm (am : Mode) (f : Fields) (memdir : Word → Instr) (regind : Reg → Instr)
    (regdisp : Reg → Word → Instr) : Except DecodeError Shape :=
  match am with
  | .memdir => .ok (.two memdir)
  | .regind => oneReg f.r0 regind
  | .regdisp => do
      let b ← decodeReg f.r0
      return .two (regdisp b)
  | .imm | .regdir => .error .modeNotAccepted

/-- The conditional jumps: as JMP, with Reg1 the tested register (R77, R83). -/
def condForm (am : Mode) (f : Fields) (memdir : Reg → Word → Instr) (regind : Reg → Reg → Instr)
    (regdisp : Reg → Reg → Word → Instr) : Except DecodeError Shape :=
  match am with
  | .memdir => do
      let r ← decodeReg f.r1
      return .two (memdir r)
  | .regind => twoRegs f.r1 f.r0 regind
  | .regdisp => do
      let r ← decodeReg f.r1
      let b ← decodeReg f.r0
      return .two (regdisp r b)
  | .imm | .regdir => .error .modeNotAccepted

/-- LOAD: all five modes, Reg1 the destination, Reg0 the operand's register, then the data type
(R78, R83, R89). -/
def loadForm (am : Mode) (f : Fields) : Except DecodeError Shape :=
  match am with
  | .imm => do
      let d ← decodeReg f.r1
      let t ← decodeType f.ty
      return .two (Instr.loadImmOf t d)
  | .regdir => do
      let d ← decodeReg f.r1
      let r ← decodeReg f.r0
      let t ← decodeType f.ty
      return .one (Instr.loadRegdirOf t d r)
  | .memdir => do
      let d ← decodeReg f.r1
      let t ← decodeType f.ty
      return .two (Instr.loadMemdirOf t d)
  | .regind => do
      let d ← decodeReg f.r1
      let b ← decodeReg f.r0
      let t ← decodeType f.ty
      return .one (Instr.loadRegindOf t d b)
  | .regdisp => do
      let d ← decodeReg f.r1
      let b ← decodeReg f.r0
      let t ← decodeType f.ty
      return .two (Instr.loadRegdispOf t d b)

/-- STORE: every mode but immediate, Reg1 the source, Reg0 the operand's register, then the data type
(R78, R83, R89). -/
def storeForm (am : Mode) (f : Fields) : Except DecodeError Shape :=
  match am with
  | .regdir => do
      let r ← decodeReg f.r1
      let d ← decodeReg f.r0
      let t ← decodeType f.ty
      return .one (Instr.storeRegdirOf t r d)
  | .memdir => do
      let r ← decodeReg f.r1
      let t ← decodeType f.ty
      return .two (Instr.storeMemdirOf t r)
  | .regind => do
      let r ← decodeReg f.r1
      let b ← decodeReg f.r0
      let t ← decodeType f.ty
      return .one (Instr.storeRegindOf t r b)
  | .regdisp => do
      let r ← decodeReg f.r1
      let b ← decodeReg f.r0
      let t ← decodeType f.ty
      return .two (Instr.storeRegdispOf t r b)
  | .imm => .error .modeNotAccepted

/-- The forms by opcode: which modes an opcode accepts and which fields it uses (R82, R83, R91 steps
4 to 6). -/
def decodeForm (op : Opcode) (am : Mode) (f : Fields) : Except DecodeError Shape :=
  match op with
  | .int => onlyRegdir am (.ok (.one (.int f.r0.toNat)))
  | .ret => onlyRegdir am (.ok (.one .ret))
  | .jmp => jumpForm am f .jmpMemdir .jmpRegind .jmpRegdisp
  | .call => jumpForm am f .callMemdir .callRegind .callRegdisp
  | .jz => condForm am f .jzMemdir .jzRegind .jzRegdisp
  | .jnz => condForm am f .jnzMemdir .jnzRegind .jnzRegdisp
  | .jgz => condForm am f .jgzMemdir .jgzRegind .jgzRegdisp
  | .jgez => condForm am f .jgezMemdir .jgezRegind .jgezRegdisp
  | .jlz => condForm am f .jlzMemdir .jlzRegind .jlzRegdisp
  | .jlez => condForm am f .jlezMemdir .jlezRegind .jlezRegdisp
  | .load => loadForm am f
  | .store => storeForm am f
  | .push => onlyRegdir am (oneReg f.r0 .push)
  | .pop => onlyRegdir am (oneReg f.r0 .pop)
  | .add => onlyRegdir am (threeRegs f.r0 f.r1 f.r2 .add)
  | .sub => onlyRegdir am (threeRegs f.r0 f.r1 f.r2 .sub)
  | .mul => onlyRegdir am (threeRegs f.r0 f.r1 f.r2 .mul)
  | .div => onlyRegdir am (threeRegs f.r0 f.r1 f.r2 .div)
  | .mod => onlyRegdir am (threeRegs f.r0 f.r1 f.r2 .mod)
  | .and => onlyRegdir am (threeRegs f.r0 f.r1 f.r2 .and)
  | .or => onlyRegdir am (threeRegs f.r0 f.r1 f.r2 .or)
  | .xor => onlyRegdir am (threeRegs f.r0 f.r1 f.r2 .xor)
  | .not => onlyRegdir am (twoRegs f.r0 f.r1 .not)
  | .asl => onlyRegdir am (threeRegs f.r0 f.r1 f.r2 .asl)
  | .asr => onlyRegdir am (threeRegs f.r0 f.r1 f.r2 .asr)

/-- Steps 2 to 6 of R91: a first dword is checked and decoded, with no second dword read. -/
def decodeHead (w0 : Word) : Except DecodeError Shape :=
  let f := Fields.ofWord w0
  match Opcode.ofCode f.op with
  | none => .error .undefinedOpcode
  | some op =>
    match Mode.ofCode f.am with
    | none => .error .undefinedMode
    | some am => decodeForm op am f

/-- The instruction in two dwords; a one-dword instruction does not look at the second (R73). -/
def decodeWords (w0 w1 : Word) : Except DecodeError Instr :=
  match decodeHead w0 with
  | .error e => .error e
  | .ok (.one i) => .ok i
  | .ok (.two i) => .ok (i w1)

/-- The little-endian dword of four bytes, the first the least significant (20_memory.md R41). -/
def dwordOfBytes (b0 b1 b2 b3 : Byte) : Word := b3 ++ b2 ++ b1 ++ b0

/-- The instruction at the start of a list of bytes, both dwords little-endian, and the bytes after it
(R70). -/
def decode (bytes : List Byte) : Except DecodeError (Instr × List Byte) :=
  match bytes with
  | a0 :: a1 :: a2 :: a3 :: rest =>
    match decodeHead (dwordOfBytes a0 a1 a2 a3) with
    | .error e => .error e
    | .ok (.one i) => .ok (i, rest)
    | .ok (.two i) =>
      match rest with
      | b0 :: b1 :: b2 :: b3 :: rest' => .ok (i (dwordOfBytes b0 b1 b2 b3), rest')
      | _ => .error .tooFewBytes
  | _ => .error .tooFewBytes

/-- The four bytes of a dword in the order they lie in memory (20_memory.md R41). -/
def bytesOfDword (w : Word) : List Byte :=
  [w.extractLsb' 0 8, w.extractLsb' 8 8, w.extractLsb' 16 8, w.extractLsb' 24 8]

/-- The instruction that the decoder reads from nbits bits numbered as spec/opcode_table.json numbers
them (bit 0 the least significant of the first dword, the second dword from bit 32 on), every bit
above them zero. -/
def decodeTableWord (nbits w : Nat) : Option Instr :=
  let bits := w % 2 ^ nbits
  let bytes := bytesOfDword (BitVec.ofNat 32 bits) ++ bytesOfDword (BitVec.ofNat 32 (bits / 2 ^ 32))
  match decode bytes with
  | .ok (i, _) => some i
  | .error _ => none

/-! ## The encoder -/

/-- The first dword of an opcode, a mode and the register and type fields (R71). -/
def headWord (op : Opcode) (am : Mode) (r0 r1 r2 : BitVec 5) (ty : BitVec 3) : Word :=
  Fields.toWord ⟨op.code, am.code, r0, r1, r2, ty⟩

/-- The words of a well-formed instruction, the second where the mode has one (R71 to R82, R105);
every unused field is zero (R81). -/
def encode (i : Instr) : Word × Option Word :=
  match i with
  | .int n => (headWord .int .regdir (BitVec.ofNat 5 n) 0 0 0, none)
  | .ret => (headWord .ret .regdir 0 0 0 0, none)
  | .jmpMemdir a => (headWord .jmp .memdir 0 0 0 0, some a)
  | .jmpRegind b => (headWord .jmp .regind b.code 0 0 0, none)
  | .jmpRegdisp b w => (headWord .jmp .regdisp b.code 0 0 0, some w)
  | .callMemdir a => (headWord .call .memdir 0 0 0 0, some a)
  | .callRegind b => (headWord .call .regind b.code 0 0 0, none)
  | .callRegdisp b w => (headWord .call .regdisp b.code 0 0 0, some w)
  | .jzMemdir r a => (headWord .jz .memdir 0 r.code 0 0, some a)
  | .jzRegind r b => (headWord .jz .regind b.code r.code 0 0, none)
  | .jzRegdisp r b w => (headWord .jz .regdisp b.code r.code 0 0, some w)
  | .jnzMemdir r a => (headWord .jnz .memdir 0 r.code 0 0, some a)
  | .jnzRegind r b => (headWord .jnz .regind b.code r.code 0 0, none)
  | .jnzRegdisp r b w => (headWord .jnz .regdisp b.code r.code 0 0, some w)
  | .jgzMemdir r a => (headWord .jgz .memdir 0 r.code 0 0, some a)
  | .jgzRegind r b => (headWord .jgz .regind b.code r.code 0 0, none)
  | .jgzRegdisp r b w => (headWord .jgz .regdisp b.code r.code 0 0, some w)
  | .jgezMemdir r a => (headWord .jgez .memdir 0 r.code 0 0, some a)
  | .jgezRegind r b => (headWord .jgez .regind b.code r.code 0 0, none)
  | .jgezRegdisp r b w => (headWord .jgez .regdisp b.code r.code 0 0, some w)
  | .jlzMemdir r a => (headWord .jlz .memdir 0 r.code 0 0, some a)
  | .jlzRegind r b => (headWord .jlz .regind b.code r.code 0 0, none)
  | .jlzRegdisp r b w => (headWord .jlz .regdisp b.code r.code 0 0, some w)
  | .jlezMemdir r a => (headWord .jlez .memdir 0 r.code 0 0, some a)
  | .jlezRegind r b => (headWord .jlez .regind b.code r.code 0 0, none)
  | .jlezRegdisp r b w => (headWord .jlez .regdisp b.code r.code 0 0, some w)
  | .loadImm d v => (headWord .load .imm 0 d.code 0 DataType.dword.code, some v)
  | .loadRegdir d r => (headWord .load .regdir r.code d.code 0 DataType.dword.code, none)
  | .loadMemdir r a => (headWord .load .memdir 0 r.code 0 DataType.dword.code, some a)
  | .loadRegind r b => (headWord .load .regind b.code r.code 0 DataType.dword.code, none)
  | .loadRegdisp r b w => (headWord .load .regdisp b.code r.code 0 DataType.dword.code, some w)
  | .loadubImm d v => (headWord .load .imm 0 d.code 0 DataType.ubyte.code, some v)
  | .loadubRegdir d r => (headWord .load .regdir r.code d.code 0 DataType.ubyte.code, none)
  | .loadubMemdir r a => (headWord .load .memdir 0 r.code 0 DataType.ubyte.code, some a)
  | .loadubRegind r b => (headWord .load .regind b.code r.code 0 DataType.ubyte.code, none)
  | .loadubRegdisp r b w => (headWord .load .regdisp b.code r.code 0 DataType.ubyte.code, some w)
  | .loadsbImm d v => (headWord .load .imm 0 d.code 0 DataType.sbyte.code, some v)
  | .loadsbRegdir d r => (headWord .load .regdir r.code d.code 0 DataType.sbyte.code, none)
  | .loadsbMemdir r a => (headWord .load .memdir 0 r.code 0 DataType.sbyte.code, some a)
  | .loadsbRegind r b => (headWord .load .regind b.code r.code 0 DataType.sbyte.code, none)
  | .loadsbRegdisp r b w => (headWord .load .regdisp b.code r.code 0 DataType.sbyte.code, some w)
  | .loaduwImm d v => (headWord .load .imm 0 d.code 0 DataType.uword.code, some v)
  | .loaduwRegdir d r => (headWord .load .regdir r.code d.code 0 DataType.uword.code, none)
  | .loaduwMemdir r a => (headWord .load .memdir 0 r.code 0 DataType.uword.code, some a)
  | .loaduwRegind r b => (headWord .load .regind b.code r.code 0 DataType.uword.code, none)
  | .loaduwRegdisp r b w => (headWord .load .regdisp b.code r.code 0 DataType.uword.code, some w)
  | .loadswImm d v => (headWord .load .imm 0 d.code 0 DataType.sword.code, some v)
  | .loadswRegdir d r => (headWord .load .regdir r.code d.code 0 DataType.sword.code, none)
  | .loadswMemdir r a => (headWord .load .memdir 0 r.code 0 DataType.sword.code, some a)
  | .loadswRegind r b => (headWord .load .regind b.code r.code 0 DataType.sword.code, none)
  | .loadswRegdisp r b w => (headWord .load .regdisp b.code r.code 0 DataType.sword.code, some w)
  | .storeRegdir r d => (headWord .store .regdir d.code r.code 0 DataType.dword.code, none)
  | .storeMemdir r a => (headWord .store .memdir 0 r.code 0 DataType.dword.code, some a)
  | .storeRegind r b => (headWord .store .regind b.code r.code 0 DataType.dword.code, none)
  | .storeRegdisp r b w => (headWord .store .regdisp b.code r.code 0 DataType.dword.code, some w)
  | .storebRegdir r d => (headWord .store .regdir d.code r.code 0 DataType.ubyte.code, none)
  | .storebMemdir r a => (headWord .store .memdir 0 r.code 0 DataType.ubyte.code, some a)
  | .storebRegind r b => (headWord .store .regind b.code r.code 0 DataType.ubyte.code, none)
  | .storebRegdisp r b w => (headWord .store .regdisp b.code r.code 0 DataType.ubyte.code, some w)
  | .storebSxRegdir r d => (headWord .store .regdir d.code r.code 0 DataType.sbyte.code, none)
  | .storebSxMemdir r a => (headWord .store .memdir 0 r.code 0 DataType.sbyte.code, some a)
  | .storebSxRegind r b => (headWord .store .regind b.code r.code 0 DataType.sbyte.code, none)
  | .storebSxRegdisp r b w => (headWord .store .regdisp b.code r.code 0 DataType.sbyte.code, some w)
  | .storewRegdir r d => (headWord .store .regdir d.code r.code 0 DataType.uword.code, none)
  | .storewMemdir r a => (headWord .store .memdir 0 r.code 0 DataType.uword.code, some a)
  | .storewRegind r b => (headWord .store .regind b.code r.code 0 DataType.uword.code, none)
  | .storewRegdisp r b w => (headWord .store .regdisp b.code r.code 0 DataType.uword.code, some w)
  | .storewSxRegdir r d => (headWord .store .regdir d.code r.code 0 DataType.sword.code, none)
  | .storewSxMemdir r a => (headWord .store .memdir 0 r.code 0 DataType.sword.code, some a)
  | .storewSxRegind r b => (headWord .store .regind b.code r.code 0 DataType.sword.code, none)
  | .storewSxRegdisp r b w => (headWord .store .regdisp b.code r.code 0 DataType.sword.code, some w)
  | .push r => (headWord .push .regdir r.code 0 0 0, none)
  | .pop r => (headWord .pop .regdir r.code 0 0 0, none)
  | .add d a b => (headWord .add .regdir d.code a.code b.code 0, none)
  | .sub d a b => (headWord .sub .regdir d.code a.code b.code 0, none)
  | .mul d a b => (headWord .mul .regdir d.code a.code b.code 0, none)
  | .div d a b => (headWord .div .regdir d.code a.code b.code 0, none)
  | .mod d a b => (headWord .mod .regdir d.code a.code b.code 0, none)
  | .and d a b => (headWord .and .regdir d.code a.code b.code 0, none)
  | .or d a b => (headWord .or .regdir d.code a.code b.code 0, none)
  | .xor d a b => (headWord .xor .regdir d.code a.code b.code 0, none)
  | .not d a => (headWord .not .regdir d.code a.code 0 0, none)
  | .asl d a b => (headWord .asl .regdir d.code a.code b.code 0, none)
  | .asr d a b => (headWord .asr .regdir d.code a.code b.code 0, none)

/-- The bytes of a well-formed instruction in the order they lie in memory (R70). -/
def encodeBytes (i : Instr) : List Byte :=
  match encode i with
  | (w0, none) => bytesOfDword w0
  | (w0, some w1) => bytesOfDword w0 ++ bytesOfDword w1

end Sys2Proof
end

