-- ==== Sys2Proof/Machine/Memory.lean ====
section
/-!
DEFINITION. The storage array mem of 2^32 bytes (10_state.md R33, 20_memory.md R40, R55) as a list
of cells in one canonical form. The two device bytes are no storage (R49) and are never listed.
-/
namespace Sys2Proof.Machine

/-- The bytes that the image or the program has given a value, by rising address. -/
abbrev Memory := List Host.Cell

/-- Byte addresses 32 and 36, the device registers, which are not storage (20_memory.md R49). -/
def isDevice (a : Word) : Bool :=
  a == Config.outputRegister || a == Config.inputRegister

/-- The byte listed at an address; `none` where neither the image nor the program wrote one: such a
byte holds no specified value (20_memory.md R56). -/
def Memory.lookup (m : Memory) (a : Nat) : Option Byte :=
  match m with
  | [] => none
  | (k, b) :: rest => if k = a then some b else Memory.lookup rest a

/-- The byte that storage holds at an address. A byte that nothing wrote is a free value, fixed at
reset (20_memory.md R56, 93_implementation_defined.md U14; log 1). -/
def Memory.byteAt (m : Memory) (a : Nat) : Byte :=
  (Memory.lookup m a).getD (Config.initialByte a)

/-- The byte is stored at the address, in its place in the list. -/
def Memory.store (m : Memory) (a : Nat) (b : Byte) : Memory :=
  match m with
  | [] => [(a, b)]
  | (k, c) :: rest =>
    if a < k then (a, b) :: (k, c) :: rest
    else if a = k then (a, b) :: rest
    else (k, c) :: Memory.store rest a b

/-- The canonical form: addresses strictly rise, each is one of the 2^32 addresses, and the device bytes are
not among them. An unlisted address has no value of its own, so no listed byte can equal one (log 1). -/
def Memory.wf (m : Memory) : Bool :=
  decide (m.Pairwise (fun c d => c.1 < d.1)) &&
  m.all (fun c => decide (c.1 < 2 ^ 32) && !isDevice (BitVec.ofNat 32 c.1))

/-- The little-endian dword that four storage bytes make (20_memory.md R41). -/
def Memory.dwordAt (m : Memory) (a : Word) : Word :=
  m.byteAt (a + 3).toNat ++ m.byteAt (a + 2).toNat ++ m.byteAt (a + 1).toNat ++ m.byteAt a.toNat

end Sys2Proof.Machine
end

