-- ==== Sys2Proof/Machine/State.lean ====
section
/-!
DEFINITION. The whole state of the machine (10_state.md R20 to R33), the reasons a step stops, and the
state after reset (R34, 70_reset_and_hazards.md R220).
-/
namespace Sys2Proof.Machine

/-- Why the machine stops. Both are stops the spec itself states. -/
inductive Fault where
  /-- The run has ended: INT 0 has executed, and a halted machine takes no further step
  (60_exceptions.md R193, 93_implementation_defined.md U25). Raised by the step of a halted state. Safe:
  the spec defines no step there. -/
  | halted
  /-- INT n with n not 0, or an Error, while an interrupt routine runs (60_exceptions.md R188). Raised by
  INT and by every Error. Safe: the spec ends the run there. -/
  | nestedInterrupt
deriving DecidableEq, Repr

/-- What the model gives no meaning. -/
inductive Refusal where
  /-- The instruction of this mnemonic has no meaning in the model yet. Raised by exec only. Safe. -/
  | notModelled (mnemonic : String)
  /-- An instruction fetch covers a device byte: the spec refuses it (20_memory.md R64). Raised by the
  fetch. Safe. -/
  | fetchFromDevice
  /-- INT 8 or INT 9, whose entries lie over the device bytes: the spec refuses them (60_exceptions.md
  R194). Raised by INT. Safe. -/
  | entryOverDevice
  /-- INT with a number above 31, which no encoding holds: there is no such entry (40_control_flow.md
  R121). Raised only for an ill-formed term, never for a decoded one. Safe. -/
  | noSuchEntry
deriving DecidableEq, Repr

/-- What the host chooses at an instruction boundary (60_exceptions.md R189, R192). -/
inductive Choice where
  | fetch | timer | keyboard
deriving DecidableEq, Repr

/-- What the host does at one instruction boundary: whether it raises a timer tick, the keys pressed
since the last boundary in their order, and its choice (60_exceptions.md R189 to R192, R201). -/
structure HostTurn where
  tick : Bool
  keys : List Byte
  choice : Choice
deriving DecidableEq, Repr

/-- The state of the machine. The fields up to `out` are the spec's (10_state.md R20 to R33); the key
presses that wait are the host's (60_exceptions.md R191); the last two are the model's own. -/
structure State where
  /-- R0..R15 (R20). -/
  regs : Vector Word 16
  /-- The stack pointer (R22). -/
  sp : Word
  /-- The program counter (R21). -/
  pc : Word
  /-- The storage array (R33). -/
  mem : Memory
  /-- The run has ended (R32). -/
  halted : Bool
  /-- An interrupt routine runs (R32). -/
  inIntr : Bool
  /-- SP right after the last interrupt entry (R32). -/
  intrSP : Word
  /-- A timer tick waits (R32). -/
  timerPending : Bool
  /-- The input data register (R32). -/
  keyData : Byte
  /-- keyData has not been read since its delivery (R32). -/
  keyUnread : Bool
  /-- The output stream, oldest byte first (R32). -/
  out : List Byte
  /-- The key presses that wait at the host, oldest first (60_exceptions.md R191). -/
  keyQueue : List Byte
  /-- The model's own: the host's turns at the coming boundaries, the next one first (log 8). -/
  host : List HostTurn
  /-- The model's own: how many reads of byte 32 have drawn a free byte (log 2). -/
  outReads : Nat
deriving DecidableEq, Repr

/-- What the spec leaves open at reset (00_scope.md R5, 10_state.md R34): the image, the entry point,
R0..R15, the two hidden items without a reset value, and what the host will do. -/
structure BootParams where
  image : Memory
  entryPc : Word
  initRegs : Vector Word 16
  keyData : Byte
  intrSP : Word
  host : List HostTurn
deriving DecidableEq, Repr

/-- The reset sequence (70_reset_and_hazards.md R220): SP is IVT entry 0 of the image, PC is ENTRY_PC,
the hidden flags are false and the output is empty. -/
def State.boot (p : BootParams) : State where
  regs := p.initRegs
  sp := p.image.dwordAt 0
  pc := p.entryPc
  mem := p.image
  halted := false
  inIntr := false
  intrSP := p.intrSP
  timerPending := false
  keyData := p.keyData
  keyUnread := false
  out := []
  keyQueue := []
  host := p.host
  outReads := 0

/-- The machine right after reset with no image. DESIGN CHOICE: PC, R0..R15, keyData and intrSP, which
the spec leaves open, are 0, and the host does nothing (logs 3 to 8). -/
def State.reset : State :=
  State.boot
    { image := []
      entryPc := 0
      initRegs := Vector.replicate 16 0
      keyData := 0
      intrSP := 0
      host := [] }

end Sys2Proof.Machine
end

