-- ==== Sys2Proof/Machine/Ops.lean ====
section
/-!
DEFINITION. The named operations that every meaning is written with: registers, memory with its two
device bytes, the stack, taking an interrupt or an Error and returning from one, and fetching.
-/
namespace Sys2Proof.Machine

/-! ## Registers (10_state.md R20 to R27) -/

/-- x[c]: the register's value (R23). Within a meaning PC already holds the next instruction's address
(R25). -/
def State.reg (s : State) (r : Reg) : Word :=
  match r with
  | .gpr i => s.regs[i]
  | .sp => s.sp
  | .pc => s.pc

/-- x[c] <- v: the register is written; a write of PC is a jump (R23, R27). -/
def State.setReg (s : State) (r : Reg) (v : Word) : State :=
  match r with
  | .gpr i => { s with regs := s.regs.set i.val v i.isLt }
  | .sp => { s with sp := v }
  | .pc => { s with pc := v }

/-- PC moves past the instruction's bytes, before any operand is read (R25; 30_encoding.md R91 step 7). -/
def State.advance (s : State) (bytes : Word) : State :=
  { s with pc := s.pc + bytes }

/-! ## Memory (20_memory.md R42, R43) -/

/-- The byte of storage at an address. -/
def State.byteAt (s : State) (a : Word) : Byte := s.mem.byteAt a.toNat

/-- ReadByte: byte 36 gives keyData and clears keyUnread, byte 32 gives an unspecified byte, fresh at
every read, every other address gives its storage (R42, R52, R53; log 2). -/
def State.readByte (s : State) (a : Word) : Byte × State :=
  (if a = Config.inputRegister then s.keyData
    else if a = Config.outputRegister then Config.outputReadByte s.outReads
    else s.byteAt a,
   { s with
     keyUnread := if a = Config.inputRegister then false else s.keyUnread
     outReads := if a = Config.outputRegister then s.outReads + 1 else s.outReads })

/-- WriteByte: a byte for address 32 goes to the output, one for 36 goes nowhere, any other is stored
(R43, R52, R53). -/
def State.writeByte (s : State) (a : Word) (b : Byte) : State :=
  { s with
    out := if a = Config.outputRegister then s.out ++ [b] else s.out
    mem := if isDevice a then s.mem else s.mem.store a.toNat b }

/-- MemRead of n bytes, little-endian, in rising order and modulo 2^32, as a 32-bit value with zeros
above them (R41, R42, R46, R47). -/
def State.memRead (s : State) (a : Word) (n : Nat) : Word × State :=
  match n with
  | 0 => (0, s)
  | k + 1 =>
    let low := s.readByte a
    let high := State.memRead low.2 (a + 1) k
    ((high.1 <<< 8) ||| low.1.setWidth 32, high.2)

/-- MemWrite of the n low bytes of a value, little-endian, in rising order and modulo 2^32 (R41, R43,
R46, R47). -/
def State.memWrite (s : State) (a : Word) (n : Nat) (v : Word) : State :=
  match n with
  | 0 => s
  | k + 1 => State.memWrite (s.writeByte a (v.setWidth 8)) (a + 1) k (v >>> 8)

/-! ## The stack (10_state.md R29) -/

/-- A push: SP rises by 4, then the dword is written there (R29). -/
def State.pushWord (s : State) (v : Word) : State :=
  let s1 := { s with sp := s.sp + 4 }
  s1.memWrite s1.sp 4 v

/-- A pop: the dword at SP is read, then SP falls by 4 (R29). -/
def State.popWord (s : State) : Word × State :=
  let r := s.memRead s.sp 4
  (r.1, { r.2 with sp := r.2.sp - 4 })

/-! ## Interrupts and Errors (60_exceptions.md R182 to R188) -/

/-- Interrupt(n, ret): the return address is pushed, the routine is marked as running at this SP, and
PC is IVT entry n, read after the push (R185, R195). -/
def State.interrupt (s : State) (n : Nat) (ret : Word) : State :=
  let s1 := s.pushWord ret
  let s2 := { s1 with inIntr := true, intrSP := s1.sp }
  let entry := s2.memRead (BitVec.ofNat 32 (4 * n)) 4
  { entry.2 with pc := entry.1 }

/-- raise Error, from the state before the instruction: nothing of the instruction happens, and the
error routine is entered with the instruction's own address as return address; inside a routine the
run ends (R184, R188). -/
def State.raiseError (s : State) : Host.Outcome State Fault Refusal :=
  if s.inIntr then .fault .nestedInterrupt
  else .next (s.interrupt Config.errorEntry s.pc)

/-- The end of an interrupt routine: a RET that pops the slot the entry wrote clears inIntr; any other
RET leaves it (R187). -/
def State.endRoutine (s : State) : State :=
  { s with inIntr := s.inIntr && s.sp != s.intrSP }

/-! ## Fetching (30_encoding.md R91, 20_memory.md R62, R64) -/

/-- Whether one of the n bytes from an address on is a device byte. -/
def coversDevice (a : Word) (n : Nat) : Bool :=
  match n with
  | 0 => false
  | k + 1 => isDevice a || coversDevice (a + 1) k

/-- A dword of an instruction, read like data; none where it covers a device byte (R62, R64). -/
def State.fetchDword (s : State) (a : Word) : Option Word :=
  if coversDevice a 4 then none else some (s.memRead a 4).1

/-- What the fetch at PC finds. -/
inductive Fetched where
  /-- An instruction. -/
  | instr (i : Instr)
  /-- An Error of decode (R91 steps 3 to 6). -/
  | undecodable (e : DecodeError)
  /-- A dword over a device byte (20_memory.md R64). -/
  | overDevice
deriving DecidableEq, Repr

/-- Steps 1 to 7 of R91: the second dword is read only for an instruction that has one, after every
check of the first. -/
def State.fetch (s : State) : Fetched :=
  match s.fetchDword s.pc with
  | none => .overDevice
  | some w0 =>
    match decodeHead w0 with
    | .error e => .undecodable e
    | .ok (.one i) => .instr i
    | .ok (.two i) =>
      match s.fetchDword (s.pc + 4) with
      | none => .overDevice
      | some w1 => .instr (i w1)

/-! ## The instruction boundary (60_exceptions.md R189 to R192) -/

/-- The host's turn at this boundary; with no turn left the host does nothing and lets the machine
fetch. -/
def State.turn (s : State) : HostTurn :=
  match s.host with
  | [] => ⟨false, [], .fetch⟩
  | t :: _ => t

/-- The host's events reach the machine: a tick sets timerPending (ticks merge), key presses queue in
order (R190, R191, 20_memory.md R59). -/
def State.hearHost (s : State) : State :=
  { s with
    timerPending := s.timerPending || s.turn.tick
    keyQueue := s.keyQueue ++ s.turn.keys
    host := s.host.tail }

/-- The timer interrupt, where it is deliverable (R189, R190). -/
def State.deliverTimer (s : State) : Option State :=
  if s.timerPending && !s.inIntr then
    some ({ s with timerPending := false }.interrupt Config.timerEntry s.pc)
  else none

/-- The keyboard interrupt, where it is deliverable: the oldest waiting key becomes keyData (R189, R191,
20_memory.md R53). -/
def State.deliverKey (s : State) : Option State :=
  match s.keyQueue with
  | [] => none
  | k :: rest =>
    if !s.inIntr && !s.keyUnread then
      some ({ s with keyData := k, keyUnread := true, keyQueue := rest }.interrupt
        Config.keyboardEntry s.pc)
    else none

/-- The delivery that the host's choice asks for, if it is deliverable (R189, R192). -/
def State.deliver (s : State) (c : Choice) : Option State :=
  match c with
  | .fetch => none
  | .timer => s.deliverTimer
  | .keyboard => s.deliverKey

/-- The instruction's two dwords stored at PC, and the machine ready to fetch them: not halted, and the
host's next turn, if any, chooses the fetch. Where eight bytes at PC would cover a device byte PC
moves to 0 (log 17). -/
def State.placeWords (s : State) (w0 w1 : Word) : State :=
  let s1 : State :=
    { s with
      pc := if coversDevice s.pc 8 then 0 else s.pc
      halted := false
      host := match s.host with
        | [] => []
        | t :: ts => { t with choice := .fetch } :: ts }
  (s1.memWrite s1.pc 4 w0).memWrite (s1.pc + 4) 4 w1

end Sys2Proof.Machine
end

