-- ==== Sys2Proof/Machine/Operands.lean ====
section
/-!
DEFINITION. The operand forms and the values they give: addresses of the memory modes (40_control_flow.md
R120, 41_load_store.md R140), the data types (20_memory.md R45), and the results of the arithmetic and
logic operations (43_alu.md R161 to R174).
-/
namespace Sys2Proof.Machine

/-! ## Data types (20_memory.md R45) -/

/-- size(ty): the bytes of a data type (R45). -/
def typeSize (t : DataType) : Nat :=
  match t with
  | .dword => 4
  | .uword | .sword => 2
  | .ubyte | .sbyte => 1

/-- ext(ty, v): the low bits of a value by the size of the type, extended by its extension (R45,
00_scope.md R8). -/
def typeExt (t : DataType) (v : Word) : Word :=
  match t with
  | .dword => v
  | .uword => (v.setWidth 16).setWidth 32
  | .sword => (v.setWidth 16).signExtend 32
  | .ubyte => (v.setWidth 8).setWidth 32
  | .sbyte => (v.setWidth 8).signExtend 32

/-! ## Memory operands -/

/-- An operand of one of the three memory modes (30_encoding.md R74). -/
inductive MemOperand where
  | memdir (addr : Word)
  | regind (base : Reg)
  | regdisp (base : Reg) (disp : Word)
deriving DecidableEq, Repr

/-- The bytes of an instruction with this operand (30_encoding.md R73). -/
def MemOperand.length (o : MemOperand) : Word :=
  match o with
  | .memdir _ => 8
  | .regind _ => 4
  | .regdisp _ _ => 8

/-- The operand's address: the target of a jump and the address of a load or store (R93, R120, R140).
PC must already hold the next instruction's address. -/
def MemOperand.ea (o : MemOperand) (s : State) : Word :=
  match o with
  | .memdir addr => addr
  | .regind base => s.reg base
  | .regdisp base disp => s.reg base + disp

/-! ## Results of the arithmetic and logic operations (43_alu.md) -/

/-- a + b modulo 2^32 (R161, R172). -/
def sumOf (a b : Word) : Word := a + b

/-- a - b modulo 2^32 (R162, R172). -/
def differenceOf (a b : Word) : Word := a - b

/-- The low 32 bits of the product (R163, R172). -/
def productOf (a b : Word) : Word := a * b

/-- The signed quotient rounded toward zero, modulo 2^32, for a divisor that is not zero (R164, R173). -/
def quotientOf (a b : Word) : Word := BitVec.ofInt 32 (a.toInt.tdiv b.toInt)

/-- The remainder with the sign of the dividend, for a divisor that is not zero (R165, R173). -/
def remainderOf (a b : Word) : Word :=
  BitVec.ofInt 32 (a.toInt - a.toInt.tdiv b.toInt * b.toInt)

/-- a shifted left by the whole of b as an unsigned count; 0 from 32 on (R170, R174). -/
def shiftLeftOf (a b : Word) : Word :=
  if 32 ≤ b.toNat then 0 else BitVec.ofNat 32 (a.toNat * 2 ^ b.toNat)

/-- a shifted right with copies of its sign by the whole of b as an unsigned count; 32 sign bits from 32
on (R171, R174). -/
def shiftRightOf (a b : Word) : Word :=
  if 32 ≤ b.toNat then (if a.msb then 0xFFFFFFFF else 0)
  else BitVec.ofInt 32 (a.toInt / (2 ^ b.toNat : Nat))

end Sys2Proof.Machine
end

