-- ==== Sys2Proof/Machine/Alu.lean ====
section
/-!
DEFINITION. The eleven arithmetic and logic instructions (43_alu.md R160 to R174). No flag is written
(10_state.md R30).
-/
namespace Sys2Proof.Machine

/-! ## Shared operations -/

/-- Both sources are read, PC as the next instruction's address, before the destination is written
(R160). -/
def alu (f : Word → Word → Word) (dst src1 src2 : Reg) (s : State) :
    Host.Outcome State Fault Refusal :=
  let s1 := s.advance 4
  .next (s1.setReg dst (f (s1.reg src1) (s1.reg src2)))

/-- As `alu`, but a zero divisor raises Error, which leaves the state before the instruction (R164, R165,
60_exceptions.md R184). -/
def aluDivide (f : Word → Word → Word) (dst src1 src2 : Reg) (s : State) :
    Host.Outcome State Fault Refusal :=
  if (s.advance 4).reg src2 = 0 then s.raiseError else alu f dst src1 src2 s

/-! ## The instructions -/

/-- ADD: the sum (R161). -/
def execAdd (dst src1 src2 : Reg) (s : State) : Host.Outcome State Fault Refusal :=
  alu sumOf dst src1 src2 s

/-- SUB: the difference (R162). -/
def execSub (dst src1 src2 : Reg) (s : State) : Host.Outcome State Fault Refusal :=
  alu differenceOf dst src1 src2 s

/-- MUL: the low half of the product (R163). -/
def execMul (dst src1 src2 : Reg) (s : State) : Host.Outcome State Fault Refusal :=
  alu productOf dst src1 src2 s

/-- DIV: the signed quotient (R164). -/
def execDiv (dst src1 src2 : Reg) (s : State) : Host.Outcome State Fault Refusal :=
  aluDivide quotientOf dst src1 src2 s

/-- MOD: the signed remainder (R165). -/
def execMod (dst src1 src2 : Reg) (s : State) : Host.Outcome State Fault Refusal :=
  aluDivide remainderOf dst src1 src2 s

/-- AND: bitwise and (R166). -/
def execAnd (dst src1 src2 : Reg) (s : State) : Host.Outcome State Fault Refusal :=
  alu (fun a b => a &&& b) dst src1 src2 s

/-- OR: bitwise or (R167). -/
def execOr (dst src1 src2 : Reg) (s : State) : Host.Outcome State Fault Refusal :=
  alu (fun a b => a ||| b) dst src1 src2 s

/-- XOR: bitwise exclusive or (R168). -/
def execXor (dst src1 src2 : Reg) (s : State) : Host.Outcome State Fault Refusal :=
  alu (fun a b => a ^^^ b) dst src1 src2 s

/-- NOT: bitwise complement of one source (R169). -/
def execNot (dst src : Reg) (s : State) : Host.Outcome State Fault Refusal :=
  alu (fun a _ => ~~~a) dst src src s

/-- ASL: left shift (R170). -/
def execAsl (dst src1 src2 : Reg) (s : State) : Host.Outcome State Fault Refusal :=
  alu shiftLeftOf dst src1 src2 s

/-- ASR: arithmetic right shift (R171). -/
def execAsr (dst src1 src2 : Reg) (s : State) : Host.Outcome State Fault Refusal :=
  alu shiftRightOf dst src1 src2 s

end Sys2Proof.Machine
end

