-- ==== Sys2Proof/Machine/Flags.lean ====
section
/-!
DEFINITION. The machine has no flag and no condition code (10_state.md R30): nothing records a property of
a result. What stands in their place are the six conditions of the conditional jumps, each on the value
of one register (40_control_flow.md R125 to R131).
-/
namespace Sys2Proof.Machine

/-- The value is zero (JZ, R126). -/
def isZero (v : Word) : Bool := v == 0

/-- The value is not zero (JNZ, R127). -/
def isNonzero (v : Word) : Bool := v != 0

/-- The signed value is above zero (JGZ, R128). -/
def isPositive (v : Word) : Bool := decide (0 < v.toInt)

/-- The signed value is zero or above (JGEZ, R129). -/
def isNonnegative (v : Word) : Bool := decide (0 ≤ v.toInt)

/-- The signed value is below zero (JLZ, R130). -/
def isNegative (v : Word) : Bool := decide (v.toInt < 0)

/-- The signed value is zero or below (JLEZ, R131). -/
def isNonpositive (v : Word) : Bool := decide (v.toInt ≤ 0)

end Sys2Proof.Machine
end

