-- ==== Sys2Proof/Machine/Control.lean ====
section
/-!
DEFINITION. The control-flow instructions INT, RET, JMP, CALL and the six conditional jumps
(40_control_flow.md R120 to R133). A meaning starts in the state before the instruction, its PC at the
instruction's first byte, and moves PC past the instruction itself (10_state.md R25).
-/
namespace Sys2Proof.Machine

/-! ## Shared operations -/

/-- PC becomes the operand's address; no memory is read (R120, R122). -/
def jump (o : MemOperand) (s : State) : Host.Outcome State Fault Refusal :=
  let s1 := s.advance o.length
  .next { s1 with pc := o.ea s1 }

/-- The target is computed first, then the next instruction's address is pushed, then PC becomes the
target (R123). -/
def call (o : MemOperand) (s : State) : Host.Outcome State Fault Refusal :=
  let s1 := s.advance o.length
  .next { s1.pushWord s1.pc with pc := o.ea s1 }

/-- A jump that is made when the tested register meets the condition (R125). -/
def condJump (cond : Word → Bool) (tested : Reg) (o : MemOperand) (s : State) :
    Host.Outcome State Fault Refusal :=
  let s1 := s.advance o.length
  .next (if cond (s1.reg tested) then { s1 with pc := o.ea s1 } else s1)

/-! ## INT and RET -/

/-- INT n (R121): 0 ends the run whatever else holds (60_exceptions.md R193), 8 and 9 are refused (R194), a
running routine makes it a fault (R188), and any other number enters its routine with the next
instruction's address as return address (R185). -/
def execInt (n : Nat) (s : State) : Host.Outcome State Fault Refusal :=
  let s1 := s.advance 4
  if n = 0 then .next { s1 with halted := true }
  else if Config.ivtEntries ≤ n then .refused .noSuchEntry
  else if n = 8 ∨ n = 9 then .refused .entryOverDevice
  else if s1.inIntr then .fault .nestedInterrupt
  else .next (s1.interrupt n s1.pc)

/-- RET (R124): the dword on top of the stack becomes PC; it ends an interrupt routine when SP is where
the entry left it (60_exceptions.md R187). -/
def execRet (s : State) : Host.Outcome State Fault Refusal :=
  let s1 := s.advance 4
  let r := s1.memRead s1.sp 4
  let s2 := r.2.endRoutine
  .next { s2 with sp := s2.sp - 4, pc := r.1 }

/-! ## Jumps and calls -/

/-- JMP to an absolute address (R122). -/
def execJmpMemdir (addr : Word) (s : State) : Host.Outcome State Fault Refusal :=
  jump (.memdir addr) s

/-- JMP to the address in a register (R122). -/
def execJmpRegind (base : Reg) (s : State) : Host.Outcome State Fault Refusal :=
  jump (.regind base) s

/-- JMP to a register plus a displacement (R122). -/
def execJmpRegdisp (base : Reg) (disp : Word) (s : State) : Host.Outcome State Fault Refusal :=
  jump (.regdisp base disp) s

/-- CALL to an absolute address (R123). -/
def execCallMemdir (addr : Word) (s : State) : Host.Outcome State Fault Refusal :=
  call (.memdir addr) s

/-- CALL to the address in a register (R123). -/
def execCallRegind (base : Reg) (s : State) : Host.Outcome State Fault Refusal :=
  call (.regind base) s

/-- CALL to a register plus a displacement (R123). -/
def execCallRegdisp (base : Reg) (disp : Word) (s : State) : Host.Outcome State Fault Refusal :=
  call (.regdisp base disp) s

/-! ## Conditional jumps -/

/-- JZ to an absolute address (R126). -/
def execJzMemdir (tested : Reg) (addr : Word) (s : State) : Host.Outcome State Fault Refusal :=
  condJump isZero tested (.memdir addr) s

/-- JZ to the address in a register (R126). -/
def execJzRegind (tested base : Reg) (s : State) : Host.Outcome State Fault Refusal :=
  condJump isZero tested (.regind base) s

/-- JZ to a register plus a displacement (R126). -/
def execJzRegdisp (tested base : Reg) (disp : Word) (s : State) : Host.Outcome State Fault Refusal :=
  condJump isZero tested (.regdisp base disp) s

/-- JNZ to an absolute address (R127). -/
def execJnzMemdir (tested : Reg) (addr : Word) (s : State) : Host.Outcome State Fault Refusal :=
  condJump isNonzero tested (.memdir addr) s

/-- JNZ to the address in a register (R127). -/
def execJnzRegind (tested base : Reg) (s : State) : Host.Outcome State Fault Refusal :=
  condJump isNonzero tested (.regind base) s

/-- JNZ to a register plus a displacement (R127). -/
def execJnzRegdisp (tested base : Reg) (disp : Word) (s : State) : Host.Outcome State Fault Refusal :=
  condJump isNonzero tested (.regdisp base disp) s

/-- JGZ to an absolute address (R128). -/
def execJgzMemdir (tested : Reg) (addr : Word) (s : State) : Host.Outcome State Fault Refusal :=
  condJump isPositive tested (.memdir addr) s

/-- JGZ to the address in a register (R128). -/
def execJgzRegind (tested base : Reg) (s : State) : Host.Outcome State Fault Refusal :=
  condJump isPositive tested (.regind base) s

/-- JGZ to a register plus a displacement (R128). -/
def execJgzRegdisp (tested base : Reg) (disp : Word) (s : State) : Host.Outcome State Fault Refusal :=
  condJump isPositive tested (.regdisp base disp) s

/-- JGEZ to an absolute address (R129). -/
def execJgezMemdir (tested : Reg) (addr : Word) (s : State) : Host.Outcome State Fault Refusal :=
  condJump isNonnegative tested (.memdir addr) s

/-- JGEZ to the address in a register (R129). -/
def execJgezRegind (tested base : Reg) (s : State) : Host.Outcome State Fault Refusal :=
  condJump isNonnegative tested (.regind base) s

/-- JGEZ to a register plus a displacement (R129). -/
def execJgezRegdisp (tested base : Reg) (disp : Word) (s : State) : Host.Outcome State Fault Refusal :=
  condJump isNonnegative tested (.regdisp base disp) s

/-- JLZ to an absolute address (R130). -/
def execJlzMemdir (tested : Reg) (addr : Word) (s : State) : Host.Outcome State Fault Refusal :=
  condJump isNegative tested (.memdir addr) s

/-- JLZ to the address in a register (R130). -/
def execJlzRegind (tested base : Reg) (s : State) : Host.Outcome State Fault Refusal :=
  condJump isNegative tested (.regind base) s

/-- JLZ to a register plus a displacement (R130). -/
def execJlzRegdisp (tested base : Reg) (disp : Word) (s : State) : Host.Outcome State Fault Refusal :=
  condJump isNegative tested (.regdisp base disp) s

/-- JLEZ to an absolute address (R131). -/
def execJlezMemdir (tested : Reg) (addr : Word) (s : State) : Host.Outcome State Fault Refusal :=
  condJump isNonpositive tested (.memdir addr) s

/-- JLEZ to the address in a register (R131). -/
def execJlezRegind (tested base : Reg) (s : State) : Host.Outcome State Fault Refusal :=
  condJump isNonpositive tested (.regind base) s

/-- JLEZ to a register plus a displacement (R131). -/
def execJlezRegdisp (tested base : Reg) (disp : Word) (s : State) : Host.Outcome State Fault Refusal :=
  condJump isNonpositive tested (.regdisp base disp) s

end Sys2Proof.Machine
end

