-- ==== Sys2Proof/Machine/LoadStore.lean ====
section
/-!
DEFINITION. LOAD and STORE with their data types, in every mode they accept (41_load_store.md R140 to
R148).
-/
namespace Sys2Proof.Machine

/-! ## Shared operations -/

/-- LOAD of a constant: its low bits by the type, extended (R140). -/
def loadConst (t : DataType) (dst : Reg) (value : Word) (s : State) :
    Host.Outcome State Fault Refusal :=
  .next ((s.advance 8).setReg dst (typeExt t value))

/-- LOAD of a register: its low bits by the type, extended (R140). -/
def loadReg (t : DataType) (dst src : Reg) (s : State) : Host.Outcome State Fault Refusal :=
  let s1 := s.advance 4
  .next (s1.setReg dst (typeExt t (s1.reg src)))

/-- LOAD from memory: address and bytes are read before the destination is written (R140, R141). -/
def loadMem (t : DataType) (dst : Reg) (o : MemOperand) (s : State) :
    Host.Outcome State Fault Refusal :=
  let s1 := s.advance o.length
  let r := s1.memRead (o.ea s1) (typeSize t)
  .next (r.2.setReg dst (typeExt t r.1))

/-- STORE to a register: the whole destination receives the extended value (R146). -/
def storeReg (t : DataType) (src dst : Reg) (s : State) : Host.Outcome State Fault Refusal :=
  let s1 := s.advance 4
  .next (s1.setReg dst (typeExt t (s1.reg src)))

/-- STORE to memory: the low bytes by the size of the type (R146). -/
def storeMem (t : DataType) (src : Reg) (o : MemOperand) (s : State) :
    Host.Outcome State Fault Refusal :=
  let s1 := s.advance o.length
  .next (s1.memWrite (o.ea s1) (typeSize t) (s1.reg src))

/-! ## LOAD -/

/-- LOAD of a constant (R141). -/
def execLoadImm (dst : Reg) (value : Word) (s : State) : Host.Outcome State Fault Refusal :=
  loadConst .dword dst value s

/-- LOAD of a register (R141). -/
def execLoadRegdir (dst src : Reg) (s : State) : Host.Outcome State Fault Refusal :=
  loadReg .dword dst src s

/-- LOAD from an absolute address (R141). -/
def execLoadMemdir (dst : Reg) (addr : Word) (s : State) : Host.Outcome State Fault Refusal :=
  loadMem .dword dst (.memdir addr) s

/-- LOAD from the address in a register (R141). -/
def execLoadRegind (dst base : Reg) (s : State) : Host.Outcome State Fault Refusal :=
  loadMem .dword dst (.regind base) s

/-- LOAD from a register plus a displacement (R141). -/
def execLoadRegdisp (dst base : Reg) (disp : Word) (s : State) : Host.Outcome State Fault Refusal :=
  loadMem .dword dst (.regdisp base disp) s

/-- LOADUB of a constant (R142). -/
def execLoadubImm (dst : Reg) (value : Word) (s : State) : Host.Outcome State Fault Refusal :=
  loadConst .ubyte dst value s

/-- LOADUB of a register (R142). -/
def execLoadubRegdir (dst src : Reg) (s : State) : Host.Outcome State Fault Refusal :=
  loadReg .ubyte dst src s

/-- LOADUB from an absolute address (R142). -/
def execLoadubMemdir (dst : Reg) (addr : Word) (s : State) : Host.Outcome State Fault Refusal :=
  loadMem .ubyte dst (.memdir addr) s

/-- LOADUB from the address in a register (R142). -/
def execLoadubRegind (dst base : Reg) (s : State) : Host.Outcome State Fault Refusal :=
  loadMem .ubyte dst (.regind base) s

/-- LOADUB from a register plus a displacement (R142). -/
def execLoadubRegdisp (dst base : Reg) (disp : Word) (s : State) : Host.Outcome State Fault Refusal :=
  loadMem .ubyte dst (.regdisp base disp) s

/-- LOADSB of a constant (R143). -/
def execLoadsbImm (dst : Reg) (value : Word) (s : State) : Host.Outcome State Fault Refusal :=
  loadConst .sbyte dst value s

/-- LOADSB of a register (R143). -/
def execLoadsbRegdir (dst src : Reg) (s : State) : Host.Outcome State Fault Refusal :=
  loadReg .sbyte dst src s

/-- LOADSB from an absolute address (R143). -/
def execLoadsbMemdir (dst : Reg) (addr : Word) (s : State) : Host.Outcome State Fault Refusal :=
  loadMem .sbyte dst (.memdir addr) s

/-- LOADSB from the address in a register (R143). -/
def execLoadsbRegind (dst base : Reg) (s : State) : Host.Outcome State Fault Refusal :=
  loadMem .sbyte dst (.regind base) s

/-- LOADSB from a register plus a displacement (R143). -/
def execLoadsbRegdisp (dst base : Reg) (disp : Word) (s : State) : Host.Outcome State Fault Refusal :=
  loadMem .sbyte dst (.regdisp base disp) s

/-- LOADUW of a constant (R144). -/
def execLoaduwImm (dst : Reg) (value : Word) (s : State) : Host.Outcome State Fault Refusal :=
  loadConst .uword dst value s

/-- LOADUW of a register (R144). -/
def execLoaduwRegdir (dst src : Reg) (s : State) : Host.Outcome State Fault Refusal :=
  loadReg .uword dst src s

/-- LOADUW from an absolute address (R144). -/
def execLoaduwMemdir (dst : Reg) (addr : Word) (s : State) : Host.Outcome State Fault Refusal :=
  loadMem .uword dst (.memdir addr) s

/-- LOADUW from the address in a register (R144). -/
def execLoaduwRegind (dst base : Reg) (s : State) : Host.Outcome State Fault Refusal :=
  loadMem .uword dst (.regind base) s

/-- LOADUW from a register plus a displacement (R144). -/
def execLoaduwRegdisp (dst base : Reg) (disp : Word) (s : State) : Host.Outcome State Fault Refusal :=
  loadMem .uword dst (.regdisp base disp) s

/-- LOADSW of a constant (R145). -/
def execLoadswImm (dst : Reg) (value : Word) (s : State) : Host.Outcome State Fault Refusal :=
  loadConst .sword dst value s

/-- LOADSW of a register (R145). -/
def execLoadswRegdir (dst src : Reg) (s : State) : Host.Outcome State Fault Refusal :=
  loadReg .sword dst src s

/-- LOADSW from an absolute address (R145). -/
def execLoadswMemdir (dst : Reg) (addr : Word) (s : State) : Host.Outcome State Fault Refusal :=
  loadMem .sword dst (.memdir addr) s

/-- LOADSW from the address in a register (R145). -/
def execLoadswRegind (dst base : Reg) (s : State) : Host.Outcome State Fault Refusal :=
  loadMem .sword dst (.regind base) s

/-- LOADSW from a register plus a displacement (R145). -/
def execLoadswRegdisp (dst base : Reg) (disp : Word) (s : State) : Host.Outcome State Fault Refusal :=
  loadMem .sword dst (.regdisp base disp) s

/-! ## STORE -/

/-- STORE to a register (R146). -/
def execStoreRegdir (src dst : Reg) (s : State) : Host.Outcome State Fault Refusal :=
  storeReg .dword src dst s

/-- STORE to an absolute address (R146). -/
def execStoreMemdir (src : Reg) (addr : Word) (s : State) : Host.Outcome State Fault Refusal :=
  storeMem .dword src (.memdir addr) s

/-- STORE to the address in a register (R146). -/
def execStoreRegind (src base : Reg) (s : State) : Host.Outcome State Fault Refusal :=
  storeMem .dword src (.regind base) s

/-- STORE to a register plus a displacement (R146). -/
def execStoreRegdisp (src base : Reg) (disp : Word) (s : State) : Host.Outcome State Fault Refusal :=
  storeMem .dword src (.regdisp base disp) s

/-- STOREB to a register (R147). -/
def execStorebRegdir (src dst : Reg) (s : State) : Host.Outcome State Fault Refusal :=
  storeReg .ubyte src dst s

/-- STOREB to an absolute address (R147). -/
def execStorebMemdir (src : Reg) (addr : Word) (s : State) : Host.Outcome State Fault Refusal :=
  storeMem .ubyte src (.memdir addr) s

/-- STOREB to the address in a register (R147). -/
def execStorebRegind (src base : Reg) (s : State) : Host.Outcome State Fault Refusal :=
  storeMem .ubyte src (.regind base) s

/-- STOREB to a register plus a displacement (R147). -/
def execStorebRegdisp (src base : Reg) (disp : Word) (s : State) : Host.Outcome State Fault Refusal :=
  storeMem .ubyte src (.regdisp base disp) s

/-- STOREB with the type code 0b111 to a register (R147). -/
def execStorebSxRegdir (src dst : Reg) (s : State) : Host.Outcome State Fault Refusal :=
  storeReg .sbyte src dst s

/-- STOREB with the type code 0b111 to an absolute address (R147). -/
def execStorebSxMemdir (src : Reg) (addr : Word) (s : State) : Host.Outcome State Fault Refusal :=
  storeMem .sbyte src (.memdir addr) s

/-- STOREB with the type code 0b111 to the address in a register (R147). -/
def execStorebSxRegind (src base : Reg) (s : State) : Host.Outcome State Fault Refusal :=
  storeMem .sbyte src (.regind base) s

/-- STOREB with the type code 0b111 to a register plus a displacement (R147). -/
def execStorebSxRegdisp (src base : Reg) (disp : Word) (s : State) : Host.Outcome State Fault Refusal :=
  storeMem .sbyte src (.regdisp base disp) s

/-- STOREW to a register (R148). -/
def execStorewRegdir (src dst : Reg) (s : State) : Host.Outcome State Fault Refusal :=
  storeReg .uword src dst s

/-- STOREW to an absolute address (R148). -/
def execStorewMemdir (src : Reg) (addr : Word) (s : State) : Host.Outcome State Fault Refusal :=
  storeMem .uword src (.memdir addr) s

/-- STOREW to the address in a register (R148). -/
def execStorewRegind (src base : Reg) (s : State) : Host.Outcome State Fault Refusal :=
  storeMem .uword src (.regind base) s

/-- STOREW to a register plus a displacement (R148). -/
def execStorewRegdisp (src base : Reg) (disp : Word) (s : State) : Host.Outcome State Fault Refusal :=
  storeMem .uword src (.regdisp base disp) s

/-- STOREW with the type code 0b101 to a register (R148). -/
def execStorewSxRegdir (src dst : Reg) (s : State) : Host.Outcome State Fault Refusal :=
  storeReg .sword src dst s

/-- STOREW with the type code 0b101 to an absolute address (R148). -/
def execStorewSxMemdir (src : Reg) (addr : Word) (s : State) : Host.Outcome State Fault Refusal :=
  storeMem .sword src (.memdir addr) s

/-- STOREW with the type code 0b101 to the address in a register (R148). -/
def execStorewSxRegind (src base : Reg) (s : State) : Host.Outcome State Fault Refusal :=
  storeMem .sword src (.regind base) s

/-- STOREW with the type code 0b101 to a register plus a displacement (R148). -/
def execStorewSxRegdisp (src base : Reg) (disp : Word) (s : State) : Host.Outcome State Fault Refusal :=
  storeMem .sword src (.regdisp base disp) s

end Sys2Proof.Machine
end

