-- ==== Sys2Proof/Machine/Stack.lean ====
section
/-!
DEFINITION. PUSH and POP (42_stack.md R150 to R152); the stack discipline is 10_state.md R29.
-/
namespace Sys2Proof.Machine

/-- PUSH: the register is read first, so PUSH SP pushes the old SP (R151). -/
def execPush (src : Reg) (s : State) : Host.Outcome State Fault Refusal :=
  let s1 := s.advance 4
  .next (s1.pushWord (s1.reg src))

/-- POP: the register is written last, so POP SP leaves the popped value in SP; it never ends an
interrupt routine (R152). -/
def execPop (dst : Reg) (s : State) : Host.Outcome State Fault Refusal :=
  let r := (s.advance 4).popWord
  .next (r.2.setReg dst r.1)

end Sys2Proof.Machine
end

