-- ==== Sys2Proof/Machine/Dispatch.lean ====
section
/-!
DEFINITION. exec: one arm for each constructor of Instr, each one direct call of its meaning.
-/
namespace Sys2Proof.Machine

/-- What an instruction does, from the state before it, with PC at its first byte (30_encoding.md R91 steps
7 and 8). -/
def exec (i : Instr) (s : State) : Host.Outcome State Fault Refusal :=
  match i with
  -- control flow (40_control_flow.md)
  | .int n => Sys2Proof.Machine.execInt n s
  | .ret => Sys2Proof.Machine.execRet s
  | .jmpMemdir addr => Sys2Proof.Machine.execJmpMemdir addr s
  | .jmpRegind base => Sys2Proof.Machine.execJmpRegind base s
  | .jmpRegdisp base disp => Sys2Proof.Machine.execJmpRegdisp base disp s
  | .callMemdir addr => Sys2Proof.Machine.execCallMemdir addr s
  | .callRegind base => Sys2Proof.Machine.execCallRegind base s
  | .callRegdisp base disp => Sys2Proof.Machine.execCallRegdisp base disp s
  | .jzMemdir tested addr => Sys2Proof.Machine.execJzMemdir tested addr s
  | .jzRegind tested base => Sys2Proof.Machine.execJzRegind tested base s
  | .jzRegdisp tested base disp => Sys2Proof.Machine.execJzRegdisp tested base disp s
  | .jnzMemdir tested addr => Sys2Proof.Machine.execJnzMemdir tested addr s
  | .jnzRegind tested base => Sys2Proof.Machine.execJnzRegind tested base s
  | .jnzRegdisp tested base disp => Sys2Proof.Machine.execJnzRegdisp tested base disp s
  | .jgzMemdir tested addr => Sys2Proof.Machine.execJgzMemdir tested addr s
  | .jgzRegind tested base => Sys2Proof.Machine.execJgzRegind tested base s
  | .jgzRegdisp tested base disp => Sys2Proof.Machine.execJgzRegdisp tested base disp s
  | .jgezMemdir tested addr => Sys2Proof.Machine.execJgezMemdir tested addr s
  | .jgezRegind tested base => Sys2Proof.Machine.execJgezRegind tested base s
  | .jgezRegdisp tested base disp => Sys2Proof.Machine.execJgezRegdisp tested base disp s
  | .jlzMemdir tested addr => Sys2Proof.Machine.execJlzMemdir tested addr s
  | .jlzRegind tested base => Sys2Proof.Machine.execJlzRegind tested base s
  | .jlzRegdisp tested base disp => Sys2Proof.Machine.execJlzRegdisp tested base disp s
  | .jlezMemdir tested addr => Sys2Proof.Machine.execJlezMemdir tested addr s
  | .jlezRegind tested base => Sys2Proof.Machine.execJlezRegind tested base s
  | .jlezRegdisp tested base disp => Sys2Proof.Machine.execJlezRegdisp tested base disp s
  -- loads (41_load_store.md)
  | .loadImm dst value => Sys2Proof.Machine.execLoadImm dst value s
  | .loadRegdir dst src => Sys2Proof.Machine.execLoadRegdir dst src s
  | .loadMemdir dst addr => Sys2Proof.Machine.execLoadMemdir dst addr s
  | .loadRegind dst base => Sys2Proof.Machine.execLoadRegind dst base s
  | .loadRegdisp dst base disp => Sys2Proof.Machine.execLoadRegdisp dst base disp s
  | .loadubImm dst value => Sys2Proof.Machine.execLoadubImm dst value s
  | .loadubRegdir dst src => Sys2Proof.Machine.execLoadubRegdir dst src s
  | .loadubMemdir dst addr => Sys2Proof.Machine.execLoadubMemdir dst addr s
  | .loadubRegind dst base => Sys2Proof.Machine.execLoadubRegind dst base s
  | .loadubRegdisp dst base disp => Sys2Proof.Machine.execLoadubRegdisp dst base disp s
  | .loadsbImm dst value => Sys2Proof.Machine.execLoadsbImm dst value s
  | .loadsbRegdir dst src => Sys2Proof.Machine.execLoadsbRegdir dst src s
  | .loadsbMemdir dst addr => Sys2Proof.Machine.execLoadsbMemdir dst addr s
  | .loadsbRegind dst base => Sys2Proof.Machine.execLoadsbRegind dst base s
  | .loadsbRegdisp dst base disp => Sys2Proof.Machine.execLoadsbRegdisp dst base disp s
  | .loaduwImm dst value => Sys2Proof.Machine.execLoaduwImm dst value s
  | .loaduwRegdir dst src => Sys2Proof.Machine.execLoaduwRegdir dst src s
  | .loaduwMemdir dst addr => Sys2Proof.Machine.execLoaduwMemdir dst addr s
  | .loaduwRegind dst base => Sys2Proof.Machine.execLoaduwRegind dst base s
  | .loaduwRegdisp dst base disp => Sys2Proof.Machine.execLoaduwRegdisp dst base disp s
  | .loadswImm dst value => Sys2Proof.Machine.execLoadswImm dst value s
  | .loadswRegdir dst src => Sys2Proof.Machine.execLoadswRegdir dst src s
  | .loadswMemdir dst addr => Sys2Proof.Machine.execLoadswMemdir dst addr s
  | .loadswRegind dst base => Sys2Proof.Machine.execLoadswRegind dst base s
  | .loadswRegdisp dst base disp => Sys2Proof.Machine.execLoadswRegdisp dst base disp s
  -- stores (41_load_store.md)
  | .storeRegdir src dst => Sys2Proof.Machine.execStoreRegdir src dst s
  | .storeMemdir src addr => Sys2Proof.Machine.execStoreMemdir src addr s
  | .storeRegind src base => Sys2Proof.Machine.execStoreRegind src base s
  | .storeRegdisp src base disp => Sys2Proof.Machine.execStoreRegdisp src base disp s
  | .storebRegdir src dst => Sys2Proof.Machine.execStorebRegdir src dst s
  | .storebMemdir src addr => Sys2Proof.Machine.execStorebMemdir src addr s
  | .storebRegind src base => Sys2Proof.Machine.execStorebRegind src base s
  | .storebRegdisp src base disp => Sys2Proof.Machine.execStorebRegdisp src base disp s
  | .storebSxRegdir src dst => Sys2Proof.Machine.execStorebSxRegdir src dst s
  | .storebSxMemdir src addr => Sys2Proof.Machine.execStorebSxMemdir src addr s
  | .storebSxRegind src base => Sys2Proof.Machine.execStorebSxRegind src base s
  | .storebSxRegdisp src base disp => Sys2Proof.Machine.execStorebSxRegdisp src base disp s
  | .storewRegdir src dst => Sys2Proof.Machine.execStorewRegdir src dst s
  | .storewMemdir src addr => Sys2Proof.Machine.execStorewMemdir src addr s
  | .storewRegind src base => Sys2Proof.Machine.execStorewRegind src base s
  | .storewRegdisp src base disp => Sys2Proof.Machine.execStorewRegdisp src base disp s
  | .storewSxRegdir src dst => Sys2Proof.Machine.execStorewSxRegdir src dst s
  | .storewSxMemdir src addr => Sys2Proof.Machine.execStorewSxMemdir src addr s
  | .storewSxRegind src base => Sys2Proof.Machine.execStorewSxRegind src base s
  | .storewSxRegdisp src base disp => Sys2Proof.Machine.execStorewSxRegdisp src base disp s
  -- stack (42_stack.md)
  | .push src => Sys2Proof.Machine.execPush src s
  | .pop dst => Sys2Proof.Machine.execPop dst s
  -- arithmetic and logic (43_alu.md)
  | .add dst src1 src2 => Sys2Proof.Machine.execAdd dst src1 src2 s
  | .sub dst src1 src2 => Sys2Proof.Machine.execSub dst src1 src2 s
  | .mul dst src1 src2 => Sys2Proof.Machine.execMul dst src1 src2 s
  | .div dst src1 src2 => Sys2Proof.Machine.execDiv dst src1 src2 s
  | .mod dst src1 src2 => Sys2Proof.Machine.execMod dst src1 src2 s
  | .and dst src1 src2 => Sys2Proof.Machine.execAnd dst src1 src2 s
  | .or dst src1 src2 => Sys2Proof.Machine.execOr dst src1 src2 s
  | .xor dst src1 src2 => Sys2Proof.Machine.execXor dst src1 src2 s
  | .not dst src => Sys2Proof.Machine.execNot dst src s
  | .asl dst src1 src2 => Sys2Proof.Machine.execAsl dst src1 src2 s
  | .asr dst src1 src2 => Sys2Proof.Machine.execAsr dst src1 src2 s

end Sys2Proof.Machine
end

