-- ==== Sys2Proof/Machine/Step.lean ====
section
/-!
DEFINITION. One step of the machine (00_scope.md R10): the delivery of one interrupt at an instruction
boundary, or one whole instruction.
-/
namespace Sys2Proof.Machine

/-- Fetch, decode and execute one instruction (30_encoding.md R91): an undecodable dword raises Error
(60_exceptions.md R184), a fetch over a device byte is refused (20_memory.md R64). -/
def runInstruction (s : State) : Host.Outcome State Fault Refusal :=
  match s.fetch with
  | .instr i => exec i s
  | .undecodable _ => s.raiseError
  | .overDevice => .refused .fetchFromDevice

/-- One step. A halted machine takes none (60_exceptions.md R193). At the boundary the host's events arrive
first; then the interrupt it chooses is delivered, if it is deliverable, and otherwise an instruction
runs (00_scope.md R10, 60_exceptions.md R189). Delivery before the first instruction is admissible too
(95_test_vectors.md P4). -/
def step (s : State) : Host.Outcome State Fault Refusal :=
  if s.halted then .fault .halted
  else
    match s.hearHost.deliver s.turn.choice with
    | some t => .next t
    | none => runInstruction s.hearHost

/-- The state in which the next step runs the instruction given by nbits bits, numbered as
spec/opcode_table.json numbers them, every bit above them zero. It stands for the host's loading of an
image (60_exceptions.md R201; logs 4 and 17). -/
def State.withFetchWord (s : State) (nbits w : Nat) : State :=
  let bits := w % 2 ^ nbits
  s.placeWords (BitVec.ofNat 32 bits) (BitVec.ofNat 32 (bits / 2 ^ 32))

end Sys2Proof.Machine
end

