-- ==== Sys2Proof/Machine/Assembler.lean ====
section
/-!
DEFINITION. The assembler language (30_encoding.md part B, R100 to R115) over abstract syntax, with the
text of each term: a list of statements becomes the image that State.boot takes. What R116 and
91_not_in_source.md N23 leave open is an argument, a free value, a named error or a marked choice (logs 18 and
20 to 22).
-/
namespace Sys2Proof.Assembler

/-- Why statements have no image. The source names no assembly error (91_not_in_source.md N23). -/
inductive AsmError where
  /-- A symbol that no label and no DEF gives a value: nothing defines it, or what defines it has no value
  itself, as a definition in a circle has none (R101, R112; log 22). -/
  | undefinedSymbol (name : String)
  /-- A symbol defined twice. -/
  | duplicateSymbol (name : String)
  /-- A constant expression divides by zero. -/
  | divisionByZero
  /-- The instruction does not accept the operand's address mode (R82, R83). -/
  | modeNotAccepted
  /-- The number of an INT is not 0..31 (R105). -/
  | noSuchEntry
  /-- A value does not fit its DB or DW or DD element (R116: open). -/
  | doesNotFit
  /-- A count of DUP below zero. -/
  | negativeCount
  /-- A line that is no statement (R100). -/
  | notAStatement
  /-- Operators of both levels with no parentheses: the source gives no precedence (R108). -/
  | precedenceOpen
deriving DecidableEq, Repr

/-! ## Literals and register names (R103, R109) -/

/-- The value of a digit in bases up to 16. -/
def digitValue (c : Char) : Option Nat :=
  let n := c.toNat
  if 48 ≤ n ∧ n ≤ 57 then some (n - 48)
  else if 97 ≤ n ∧ n ≤ 102 then some (n - 87)
  else if 65 ≤ n ∧ n ≤ 70 then some (n - 55)
  else none

/-- The number that digits spell in a base, after the value read so far. -/
def digitsValue (base : Nat) (ds : List Char) (acc : Nat) : Option Nat :=
  match ds with
  | [] => some acc
  | d :: rest =>
    match digitValue d with
    | none => none
    | some v => if v < base then digitsValue base rest (acc * base + v) else none

/-- A number is at least one digit. -/
def numberValue (base : Nat) (ds : List Char) : Option Nat :=
  match ds with
  | [] => none
  | d :: rest => digitsValue base (d :: rest) 0

/-- C's simple escapes: the code of the character that a backslash and this character stand for (R109).
PRESUMED from C: the source does not list its escapes (log 21). -/
def simpleEscape (c : Char) : Option Nat :=
  match c with
  | 'n' => some 10
  | 't' => some 9
  | 'r' => some 13
  | 'a' => some 7
  | 'b' => some 8
  | 'f' => some 12
  | 'v' => some 11
  | '?' => some 63
  | c => if c.toNat = 92 ∨ c.toNat = 39 ∨ c.toNat = 34 then some c.toNat else none

/-- The code that what follows a backslash stands for: a simple escape, one to three octal digits, or x and
hexadecimal digits, up to 255 (R109). PRESUMED from C (log 21). -/
def escapeValue (cs : List Char) : Option Nat :=
  let code :=
    match cs with
    | 'x' :: ds => numberValue 16 ds
    | [c] => (simpleEscape c).or (numberValue 8 [c])
    | ds => if ds.length ≤ 3 then numberValue 8 ds else none
  code.filter (· < 256)

/-- A character constant: one character between quotes (code 39), or an escape after a backslash (code 92)
between them (R109). -/
def characterLiteral (cs : List Char) : Option Nat :=
  match cs with
  | [q, c, r] =>
    if q.toNat = 39 ∧ r.toNat = 39 ∧ c.toNat ≠ 92 ∧ c.toNat ≠ 39 then some c.toNat else none
  | q :: e :: rest =>
    if q.toNat = 39 ∧ e.toNat = 92 ∧ rest.getLast?.map Char.toNat = some 39 then
      escapeValue rest.dropLast
    else none
  | _ => none

/-- A literal without its sign: a character, 0x and hexadecimal digits, 0b and binary digits, or decimal
digits (R109). DESIGN CHOICE: a leading zero changes nothing, 010 is ten, since the source does not list octal
(91_not_in_source.md N23, log 21). -/
def unsignedLiteral (cs : List Char) : Option Nat :=
  match characterLiteral cs with
  | some n => some n
  | none =>
    match cs with
    | '0' :: 'x' :: ds => numberValue 16 ds
    | '0' :: 'b' :: ds => numberValue 2 ds
    | ds => numberValue 10 ds

/-- The value of a spelled literal (R109). -/
def literalValue (cs : List Char) : Option Int :=
  match cs with
  | '-' :: ds => (unsignedLiteral ds).map (fun n => -(n : Int))
  | ds => (unsignedLiteral ds).map (fun n => (n : Int))

/-- The name of a register (R103). -/
def regName (r : Reg) : String :=
  match r with
  | .gpr i => "R" ++ toString i.val
  | .sp => "SP"
  | .pc => "PC"

/-- The register of a name R0..R15, SP or PC (R103). -/
def registerNamed (name : String) : Option Reg :=
  ((List.finRange 16).map Reg.gpr ++ [Reg.sp, Reg.pc]).find? (fun r => regName r == name)

/-! ## Constant expressions (R108) -/

/-- A constant expression: literals, symbols, $, and the four operators; parentheses are its shape. -/
inductive Expr where
  | lit (v : Int)
  | sym (name : String)
  | here
  | add (a b : Expr)
  | sub (a b : Expr)
  | mul (a b : Expr)
  | div (a b : Expr)
deriving DecidableEq, Repr

/-- The symbols that have a value, and the values (R101, R112). -/
abbrev Symbols := List (String × Int)

/-- The value of a symbol. -/
def Symbols.value (t : Symbols) (name : String) : Option Int :=
  match t with
  | [] => none
  | (k, v) :: rest => if k = name then some v else Symbols.value rest name

/-- The quotient: exact where the division is, otherwise free, since the source does not say how "/"
rounds (log 21). -/
def quotient (a b : Int) : Except AsmError Int :=
  if b = 0 then .error .divisionByZero
  else if a % b = 0 then .ok (a / b)
  else .ok (Config.inexactQuotient a b)

/-- The value of an expression, `$` being the start address of its statement (R108, R113). DESIGN CHOICE:
intermediate values are unbounded integers and only the place that uses the value takes its low bits, since the
source gives no width (R108, 91_not_in_source.md N23, log 21). -/
def Expr.eval (e : Expr) (t : Symbols) (start : Int) : Except AsmError Int :=
  match e with
  | .lit v => .ok v
  | .sym name =>
    match t.value name with
    | some v => .ok v
    | none => .error (.undefinedSymbol name)
  | .here => .ok start
  | .add a b => do return (← Expr.eval a t start) + (← Expr.eval b t start)
  | .sub a b => do return (← Expr.eval a t start) - (← Expr.eval b t start)
  | .mul a b => do return (← Expr.eval a t start) * (← Expr.eval b t start)
  | .div a b => do quotient (← Expr.eval a t start) (← Expr.eval b t start)

/-- Whether the value depends on `$`. -/
def Expr.usesHere (e : Expr) : Bool :=
  match e with
  | .lit _ | .sym _ => false
  | .here => true
  | .add a b | .sub a b | .mul a b | .div a b => Expr.usesHere a || Expr.usesHere b

/-- The value of an expression in a statement whose start address may have no value yet: only `$` needs it. -/
def Expr.evalAt (e : Expr) (t : Symbols) (start : Except AsmError Int) : Except AsmError Int :=
  match start with
  | .ok a => e.eval t a
  | .error d => if e.usesHere then .error d else e.eval t 0

/-- The low 32 bits of a value: an immediate, an address or a displacement (R102). -/
def wordOf (v : Int) : Word := BitVec.ofInt 32 v

/-! ## Operands and instructions (R102 to R105) -/

/-- An operand as written: #expr, Ri, expr, [Ri] or [Ri + expr] (R102). -/
inductive Operand where
  | imm (e : Expr)
  | reg (r : Reg)
  | addr (e : Expr)
  | ind (r : Reg)
  | indDisp (r : Reg) (e : Expr)
deriving DecidableEq, Repr

/-- The bytes of an instruction with this operand (R73). -/
def Operand.length (o : Operand) : Int :=
  match o with
  | .reg _ | .ind _ => 4
  | .imm _ | .addr _ | .indDisp _ _ => 8

/-- The conditional jumps. -/
inductive CondName where
  | jz | jnz | jgz | jgez | jlz | jlez
deriving DecidableEq, Repr

/-- The three-register operations. -/
inductive AluName where
  | add | sub | mul | div | mod | and | or | xor | asl | asr
deriving DecidableEq, Repr

/-- The suffixes of STORE: none, B and W (R104). -/
inductive StoreSize where
  | dword | byte | word
deriving DecidableEq, Repr

/-- An instruction statement's instruction (R105); the data type of a LOAD is its suffix (R104). -/
inductive Source where
  | int (n : Expr)
  | ret
  | jmp (op : Operand)
  | call (op : Operand)
  | cond (c : CondName) (tested : Reg) (op : Operand)
  | load (t : DataType) (dst : Reg) (op : Operand)
  | store (t : StoreSize) (src : Reg) (op : Operand)
  | push (r : Reg)
  | pop (r : Reg)
  | alu (o : AluName) (dst src1 src2 : Reg)
  | not (dst src : Reg)
deriving DecidableEq, Repr

/-- The bytes an instruction takes, which its operand's form alone decides (R73, R102). -/
def Source.length (s : Source) : Int :=
  match s with
  | .jmp op | .call op | .cond _ _ op | .load _ _ op | .store _ _ op => op.length
  | .int _ | .ret | .push _ | .pop _ | .alu _ _ _ _ | .not _ _ => 4

/-- The three rows of a conditional jump. -/
def CondName.instrs (c : CondName) :
    (Reg → Word → Instr) × (Reg → Reg → Instr) × (Reg → Reg → Word → Instr) :=
  match c with
  | .jz => (.jzMemdir, .jzRegind, .jzRegdisp)
  | .jnz => (.jnzMemdir, .jnzRegind, .jnzRegdisp)
  | .jgz => (.jgzMemdir, .jgzRegind, .jgzRegdisp)
  | .jgez => (.jgezMemdir, .jgezRegind, .jgezRegdisp)
  | .jlz => (.jlzMemdir, .jlzRegind, .jlzRegdisp)
  | .jlez => (.jlezMemdir, .jlezRegind, .jlezRegdisp)

/-- The row of a three-register operation. -/
def AluName.instr (o : AluName) : Reg → Reg → Reg → Instr :=
  match o with
  | .add => .add | .sub => .sub | .mul => .mul | .div => .div | .mod => .mod
  | .and => .and | .or => .or | .xor => .xor | .asl => .asl | .asr => .asr

/-- The data type that a STORE suffix assembles to (R104). -/
def StoreSize.dataType (t : StoreSize) : DataType :=
  match t with
  | .dword => .dword | .byte => .ubyte | .word => .uword

/-- A jump's or a call's row by the operand's mode (R82, R83). -/
def jumpInstr (value : Expr → Except AsmError Int) (op : Operand) (memdir : Word → Instr)
    (regind : Reg → Instr) (regdisp : Reg → Word → Instr) : Except AsmError Instr :=
  match op with
  | .addr e => do return memdir (wordOf (← value e))
  | .ind r => .ok (regind r)
  | .indDisp r e => do return regdisp r (wordOf (← value e))
  | .imm _ | .reg _ => .error .modeNotAccepted

/-- The instruction that a statement assembles to, with the values of its expressions (R105). -/
def Source.instr (s : Source) (value : Expr → Except AsmError Int) : Except AsmError Instr :=
  match s with
  | .int e => do
    let n ← value e
    if 0 ≤ n ∧ n < Config.ivtEntries then return .int n.toNat else .error .noSuchEntry
  | .ret => .ok .ret
  | .jmp op => jumpInstr value op .jmpMemdir .jmpRegind .jmpRegdisp
  | .call op => jumpInstr value op .callMemdir .callRegind .callRegdisp
  | .cond c r op => jumpInstr value op (c.instrs.1 r) (c.instrs.2.1 r) (c.instrs.2.2 r)
  | .load t d op =>
    match op with
    | .imm e => do return Instr.loadImmOf t d (wordOf (← value e))
    | .reg r => .ok (Instr.loadRegdirOf t d r)
    | .addr _ | .ind _ | .indDisp _ _ =>
      jumpInstr value op (Instr.loadMemdirOf t d) (Instr.loadRegindOf t d) (Instr.loadRegdispOf t d)
  | .store z r op =>
    match op with
    | .imm _ => .error .modeNotAccepted
    | .reg d => .ok (Instr.storeRegdirOf z.dataType r d)
    | .addr _ | .ind _ | .indDisp _ _ =>
      jumpInstr value op (Instr.storeMemdirOf z.dataType r) (Instr.storeRegindOf z.dataType r)
        (Instr.storeRegdispOf z.dataType r)
  | .push r => .ok (.push r)
  | .pop r => .ok (.pop r)
  | .alu o d a b => .ok (o.instr d a b)
  | .not d a => .ok (.not d a)

/-! ## Statements (R100, R110 to R115) -/

/-- DB, DW and DD (R110). -/
inductive DataUnit where
  | db | dw | dd
deriving DecidableEq, Repr

/-- The bytes of one element (R110). -/
def DataUnit.bytes (u : DataUnit) : Nat :=
  match u with
  | .db => 1 | .dw => 2 | .dd => 4

/-- A data specifier: a value, a value repeated, an element without a value, and that repeated (R111). -/
inductive DataSpec where
  | value (e : Expr)
  | dup (count e : Expr)
  | undef
  | dupUndef (count : Expr)
deriving DecidableEq, Repr

/-- The base names of sections (R115). -/
inductive SectionKind where
  | text | data | rodata | bss
deriving DecidableEq, Repr

/-- A section: its base name and its optional number (R115). -/
structure Section where
  kind : SectionKind
  number : Option Nat
deriving DecidableEq, Repr

/-- What a statement is, apart from its label. -/
inductive Body where
  | none
  | code (i : Source)
  | data (u : DataUnit) (specs : List DataSpec)
  | define (symbol : String) (e : Expr)
  | org (e : Expr)
  | enter (s : Section)
deriving DecidableEq, Repr

/-- A statement with its optional label (R100, R101). -/
structure Stmt where
  label : Option String
  body : Body
deriving DecidableEq, Repr

/-- How many elements a data specifier makes. -/
def DataSpec.count (d : DataSpec) (value : Expr → Except AsmError Int) : Except AsmError Nat :=
  match d with
  | .value _ | .undef => .ok 1
  | .dup c _ | .dupUndef c => do
    let n ← value c
    if n < 0 then .error .negativeCount else return n.toNat

/-- How many elements a data definition makes. -/
def specsCount (specs : List DataSpec) (value : Expr → Except AsmError Int) :
    Except AsmError Nat :=
  match specs with
  | [] => .ok 0
  | d :: rest => do return (← d.count value) + (← specsCount rest value)

/-- One element's bytes, little-endian (R110). DESIGN CHOICE: a value fits as a signed or as an unsigned number, and
no other is cut (R116, log 18). -/
def elementBytes (u : DataUnit) (v : Int) : Except AsmError (List (Option Byte)) :=
  if -(2 ^ (8 * u.bytes - 1) : Nat) ≤ v ∧ v < (2 ^ (8 * u.bytes) : Nat) then
    .ok (((bytesOfDword (wordOf v)).take u.bytes).map some)
  else .error .doesNotFit

/-- The bytes of a data definition; an element defined with `?` takes its space and no value (R111). -/
def specsBytes (u : DataUnit) (specs : List DataSpec) (value : Expr → Except AsmError Int) :
    Except AsmError (List (Option Byte)) :=
  match specs with
  | [] => .ok []
  | d :: rest => do
    let n ← d.count value
    let one ← match d with
      | .value e | .dup _ e => do elementBytes u (← value e)
      | .undef | .dupUndef _ => .ok (List.replicate u.bytes Option.none)
    return (List.replicate n one).flatten ++ (← specsBytes u rest value)

/-! ## Where statements stand and what symbols are (R101, R112, R114, R115) -/

/-- Where the reading of statements stands: the section, and the next address of every section entered, which
is unknown while a count or an ORG before it uses a symbol without a value. Where a section begins without an
ORG is an argument (R115: not in the source). -/
structure Layout where
  current : Section
  counters : List (Section × Except AsmError Int)
deriving DecidableEq, Repr

/-- The next address of a section. -/
def counterOf (cs : List (Section × Except AsmError Int)) (place : Section → Int) (s : Section) :
    Except AsmError Int :=
  match cs with
  | [] => .ok (place s)
  | (k, v) :: rest => if k = s then v else counterOf rest place s

/-- A statement with its section and its start address. -/
structure Placed where
  start : Except AsmError Int
  sect : Section
  stmt : Stmt
deriving DecidableEq, Repr

/-- The address after a statement, in its section (R114). -/
def Stmt.next (st : Stmt) (t : Symbols) (start : Except AsmError Int) : Except AsmError Int :=
  match st.body with
  | .code i => do return (← start) + i.length
  | .data u specs => do return (← start) + u.bytes * (← specsCount specs (fun e => e.evalAt t start))
  | .org e => e.evalAt t start
  | .none | .define _ _ | .enter _ => start

/-- Where the reading stands after a statement that starts at this address. DESIGN CHOICE: ORG moves the
current section's address and no other, and a section that is entered again goes on at its own address (R114,
R115, 91_not_in_source.md N23, log 20). -/
def Layout.step (l : Layout) (t : Symbols) (start : Except AsmError Int) (st : Stmt) : Layout :=
  match st.body with
  | .enter s => { l with current := s }
  | .none | .code _ | .data _ _ | .define _ _ | .org _ =>
    { l with counters := (l.current, st.next t start) :: l.counters }

/-- Every statement in its place, given the symbols that have a value (R101, R114). -/
def layout (l : Layout) (place : Section → Int) (t : Symbols) (sts : List Stmt) : List Placed :=
  match sts with
  | [] => []
  | st :: rest =>
    let start := counterOf l.counters place l.current
    ⟨start, l.current, st⟩ :: layout (l.step t start st) place t rest

/-- The statements in their places. DESIGN CHOICE: those before any section directive belong to the section
`text` without a number, since the source is silent (R115, log 20). -/
def layoutAll (place : Section → Int) (t : Symbols) (sts : List Stmt) : List Placed :=
  layout ⟨⟨.text, none⟩, []⟩ place t sts

/-- The names that a statement defines: its label and the symbol of its DEF (R101, R112). -/
def Stmt.names (st : Stmt) : List String :=
  st.label.toList ++ (match st.body with
    | .define name _ => [name]
    | .none | .code _ | .data _ _ | .org _ | .enter _ => [])

/-- A name with its value, if it has one. -/
def symbolOf (name : String) (v : Except AsmError Int) : Symbols :=
  match v with
  | .ok a => [(name, a)]
  | .error _ => []

/-- The symbols that a statement defines, as far as they have a value: a label is the statement's start address
(R101), a DEF's symbol is its expression's value (R112). DESIGN CHOICE: a label of a directive that lays
out nothing, or alone on a line, is the current section's address before the directive (log 22). -/
def Placed.symbols (p : Placed) (t : Symbols) : Symbols :=
  p.stmt.label.toList.flatMap (symbolOf · p.start) ++ (match p.stmt.body with
    | .define name e => symbolOf name (e.evalAt t p.start)
    | .none | .code _ | .data _ _ | .org _ | .enter _ => [])

/-- The symbols that have a value after so many rounds; a round values every symbol whose definition uses valued
symbols only. A symbol may be used before the line that defines it, in every expression (R101, R112). -/
def solve (place : Section → Int) (sts : List Stmt) (rounds : Nat) : Symbols :=
  match rounds with
  | 0 => []
  | k + 1 =>
    let t := solve place sts k
    (layoutAll place t sts).flatMap (Placed.symbols · t)

/-- A name that stands twice. -/
def repeated (names : List String) : Option String :=
  match names with
  | [] => none
  | n :: rest => if n ∈ rest then some n else repeated rest

/-! ## The image -/

/-- The bytes of a statement, with every symbol known; an element without a value has none. -/
def Stmt.bytes (st : Stmt) (t : Symbols) (start : Int) : Except AsmError (List (Option Byte)) :=
  let value := fun e : Expr => e.eval t start
  match st.body with
  | .code i => do return (encodeBytes (← i.instr value)).map some
  | .data u specs => specsBytes u specs value
  | .define _ e | .org e => do
    let _ ← value e
    return []
  | .none | .enter _ => .ok []

/-- What a section makes of its bytes: in bss they take their space and have no value (20_memory.md R56, R115).
DESIGN CHOICE: that holds of a value written in bss, and of code there, too (log 20). The machine enforces no
property of the other sections (20_memory.md R55). -/
def SectionKind.contents (k : SectionKind) (bs : List (Option Byte)) : List (Option Byte) :=
  match k with
  | .bss => bs.map (fun _ => none)
  | .text | .data | .rodata => bs

/-- Bytes placed at consecutive addresses; a byte without a value is left out of the image (R111), and so
is one for a device address, which is not storage (20_memory.md R49). DESIGN CHOICE: a later byte replaces an
earlier one at its address (log 18). -/
def placeBytes (m : Machine.Memory) (a : Word) (bs : List (Option Byte)) : Machine.Memory :=
  match bs with
  | [] => m
  | none :: rest => placeBytes m (a + 1) rest
  | some b :: rest =>
    placeBytes (if Machine.isDevice a then m else m.store a.toNat b) (a + 1) rest

/-- The image with the bytes of every statement in its place; a statement whose address or value is unknown has
none. -/
def emit (m : Machine.Memory) (t : Symbols) (ps : List Placed) : Except AsmError Machine.Memory :=
  match ps with
  | [] => .ok m
  | p :: rest => do
    let start ← p.start
    let bs ← p.stmt.bytes t start
    emit (placeBytes m (wordOf start) (p.sect.kind.contents bs)) t rest

/-- The image of a list of statements. As many rounds as there are names value every symbol that has a value,
since each round but the last values at least one more. -/
def assemble (place : Section → Int) (sts : List Stmt) : Except AsmError Machine.Memory :=
  let names := sts.flatMap Stmt.names
  match repeated names with
  | some name => .error (.duplicateSymbol name)
  | none =>
    let t := solve place sts names.length
    emit [] t (layoutAll place t sts)

/-! ## Statements as written (R100 to R115) -/

/-- An expression as written, every operation in parentheses, since the source gives no precedence (R108). -/
def Expr.text (e : Expr) : String :=
  match e with
  | .lit v => toString v
  | .sym name => name
  | .here => "$"
  | .add a b => "(" ++ Expr.text a ++ " + " ++ Expr.text b ++ ")"
  | .sub a b => "(" ++ Expr.text a ++ " - " ++ Expr.text b ++ ")"
  | .mul a b => "(" ++ Expr.text a ++ " * " ++ Expr.text b ++ ")"
  | .div a b => "(" ++ Expr.text a ++ " / " ++ Expr.text b ++ ")"

/-- An operand as written (R102). -/
def Operand.text (o : Operand) : String :=
  match o with
  | .imm e => "#" ++ e.text
  | .reg r => regName r
  | .addr e => e.text
  | .ind r => "[" ++ regName r ++ "]"
  | .indDisp r e => "[" ++ regName r ++ " + " ++ e.text ++ "]"

/-- The mnemonic of a conditional jump (R82). -/
def CondName.text (c : CondName) : String :=
  match c with
  | .jz => "JZ" | .jnz => "JNZ" | .jgz => "JGZ" | .jgez => "JGEZ" | .jlz => "JLZ" | .jlez => "JLEZ"

/-- The mnemonic of a three-register operation (R82). -/
def AluName.text (o : AluName) : String :=
  match o with
  | .add => "ADD" | .sub => "SUB" | .mul => "MUL" | .div => "DIV" | .mod => "MOD"
  | .and => "AND" | .or => "OR" | .xor => "XOR" | .asl => "ASL" | .asr => "ASR"

/-- The mnemonic of a LOAD (R104). -/
def loadText (t : DataType) : String :=
  match t with
  | .dword => "LOAD" | .ubyte => "LOADUB" | .sbyte => "LOADSB" | .uword => "LOADUW" | .sword => "LOADSW"

/-- The mnemonic of a STORE (R104). -/
def StoreSize.text (t : StoreSize) : String :=
  match t with
  | .dword => "STORE" | .byte => "STOREB" | .word => "STOREW"

/-- An instruction as written (R105). -/
def Source.text (s : Source) : String :=
  match s with
  | .int n => "INT " ++ n.text
  | .ret => "RET"
  | .jmp op => "JMP " ++ op.text
  | .call op => "CALL " ++ op.text
  | .cond c r op => c.text ++ " " ++ regName r ++ ", " ++ op.text
  | .load t d op => loadText t ++ " " ++ regName d ++ ", " ++ op.text
  | .store z r op => z.text ++ " " ++ regName r ++ ", " ++ op.text
  | .push r => "PUSH " ++ regName r
  | .pop r => "POP " ++ regName r
  | .alu o d a b => o.text ++ " " ++ regName d ++ ", " ++ regName a ++ ", " ++ regName b
  | .not d a => "NOT " ++ regName d ++ ", " ++ regName a

/-- A data specifier as written (R111). -/
def DataSpec.text (d : DataSpec) : String :=
  match d with
  | .value e => e.text
  | .dup c e => c.text ++ " DUP " ++ e.text
  | .undef => "?"
  | .dupUndef c => c.text ++ " DUP ?"

/-- The keyword of a data definition (R110). -/
def DataUnit.text (u : DataUnit) : String :=
  match u with
  | .db => "DB" | .dw => "DW" | .dd => "DD"

/-- A section's name, its number after a dot (R115). -/
def Section.text (s : Section) : String :=
  (match s.kind with | .text => "text" | .data => "data" | .rodata => "rodata" | .bss => "bss") ++
  (match s.number with | some n => "." ++ toString n | none => "")

/-- A statement as written: its label and a colon, then what it is (R100, R110, R112, R114, R115). -/
def Stmt.text (st : Stmt) : String :=
  (match st.label with | some l => l ++ ": " | none => "") ++
  (match st.body with
    | .none => ""
    | .code i => i.text
    | .data u specs => u.text ++ " " ++ String.intercalate ", " (specs.map DataSpec.text)
    | .define symbol e => symbol ++ " DEF " ++ e.text
    | .org e => "ORG " ++ e.text
    | .enter s => s.text)

end Sys2Proof.Assembler
end

