-- ==== Sys2Proof/Machine/AssemblerText.lean ====
section
/-!
DEFINITION. The assembler's source text (30_encoding.md part B): lines of characters are cut into tokens and
read as statements. Mnemonics, register names and directives are in upper case and section names in
lower case, as the source writes them (R116). What is the model's choice here is in logs 18 and 20 to 22.
-/
namespace Sys2Proof.Assembler

/-- The pieces of a line. -/
inductive Token where
  | word (name : String)
  | number (v : Nat)
  | hash | comma | colon | lpar | rpar | left | right | plus | minus | times | over | dollar | question
deriving DecidableEq, Repr

/-- The characters of a word: letters, digits, underline (code 95) and the dot of a section's number (code
46, R115). DESIGN CHOICE: the source says of no name which characters it has (log 18). -/
def isWordChar (c : Char) : Bool := c.isAlphanum || c.toNat == 95 || c.toNat == 46

/-- The token of one character, by its code. -/
def symbolToken (c : Char) : Option Token :=
  match c with
  | '#' => some .hash
  | ',' => some .comma
  | ':' => some .colon
  | '[' => some .left
  | ']' => some .right
  | '(' => some .lpar
  | ')' => some .rpar
  | '+' => some .plus
  | '-' => some .minus
  | '*' => some .times
  | '/' => some .over
  | '$' => some .dollar
  | '?' => some .question
  | _ => none

/-- How many characters a character constant at the start of a line's rest has: it ends at the quote after its
one character, or at the first quote after a backslash and the character that follows it. -/
def quoted (cs : List Char) : Nat :=
  match cs with
  | _ :: c :: _ :: rest =>
    if c.toNat = 92 then 4 + (rest.takeWhile (fun d => d.toNat != 39)).length else 3
  | _ => 3

/-- The tokens of a line up to its comment (R100). Every character uses up one unit of fuel. -/
def tokens (fuel : Nat) (cs : List Char) : Except AsmError (List Token) :=
  match fuel, cs with
  | _, [] => .ok []
  | 0, _ :: _ => .error .notAStatement
  | f + 1, c :: rest =>
    if c = ';' then .ok []
    else if c.isWhitespace then tokens f rest
    else if c.toNat = 39 then
      match characterLiteral ((c :: rest).take (quoted (c :: rest))) with
      | some n => do return .number n :: (← tokens f ((c :: rest).drop (quoted (c :: rest))))
      | none => .error .notAStatement
    else if c.isDigit then
      match unsignedLiteral ((c :: rest).takeWhile isWordChar) with
      | some n => do return .number n :: (← tokens f ((c :: rest).dropWhile isWordChar))
      | none => .error .notAStatement
    else if isWordChar c then do
      return .word (String.ofList ((c :: rest).takeWhile isWordChar)) ::
        (← tokens f ((c :: rest).dropWhile isWordChar))
    else
      match symbolToken c with
      | some t => do return t :: (← tokens f rest)
      | none => .error .notAStatement

/-! ## Expressions and operands (R102, R108, R109)

A reader gives the term at the start of the tokens and the tokens after it. -/

/-- Where the reading of an expression stands: at an operand, or after one, in a chain of sums or of
products. -/
inductive ExprPlace where
  | whole
  | operand
  | sums (acc : Expr)
  | products (acc : Expr)

/-- A constant expression. A chain of sums, and one of products, groups from the left (R107 writes
L - $ - 8 for (L - $) - 8); a chain of both needs parentheses, because the source gives no precedence.
DESIGN CHOICE: a minus sign stands for the negative directly before a literal only, so that -x and -(e) are no
expressions; the source leaves open whether there is another (R108, 91_not_in_source.md N23, log 21). -/
def readExpr (fuel : Nat) (at_ : ExprPlace) (ts : List Token) : Except AsmError (Expr × List Token) :=
  match fuel with
  | 0 => .error .notAStatement
  | f + 1 =>
    match at_ with
    | .operand =>
      match ts with
      | .number n :: rest => .ok (.lit n, rest)
      | .minus :: .number n :: rest => .ok (.lit (-(n : Int)), rest)
      | .dollar :: rest => .ok (.here, rest)
      | .word name :: rest => if (registerNamed name).isSome then .error .notAStatement else .ok (.sym name, rest)
      | .lpar :: rest => do
        let (e, ts1) ← readExpr f .whole rest
        match ts1 with
        | .rpar :: ts2 => return (e, ts2)
        | _ => throw .notAStatement
      | _ => .error .notAStatement
    | .whole => do
      let (a, ts1) ← readExpr f .operand ts
      match ts1 with
      | .plus :: _ | .minus :: _ => readExpr f (.sums a) ts1
      | .times :: _ | .over :: _ => readExpr f (.products a) ts1
      | _ => return (a, ts1)
    | .sums acc =>
      match ts with
      | .plus :: rest => do
        let (b, ts1) ← readExpr f .operand rest
        readExpr f (.sums (.add acc b)) ts1
      | .minus :: rest => do
        let (b, ts1) ← readExpr f .operand rest
        readExpr f (.sums (.sub acc b)) ts1
      | .times :: _ | .over :: _ => .error .precedenceOpen
      | _ => .ok (acc, ts)
    | .products acc =>
      match ts with
      | .times :: rest => do
        let (b, ts1) ← readExpr f .operand rest
        readExpr f (.products (.mul acc b)) ts1
      | .over :: rest => do
        let (b, ts1) ← readExpr f .operand rest
        readExpr f (.products (.div acc b)) ts1
      | .plus :: _ | .minus :: _ => .error .precedenceOpen
      | _ => .ok (acc, ts)

/-- A constant expression at the start of the tokens; three units of fuel for each token are enough. -/
def readConst (ts : List Token) : Except AsmError (Expr × List Token) := readExpr (3 * ts.length + 3) .whole ts

/-- A register's name. -/
def readReg (ts : List Token) : Except AsmError (Reg × List Token) :=
  match ts with
  | .word name :: rest =>
    match registerNamed name with
    | some r => .ok (r, rest)
    | none => .error .notAStatement
  | _ => .error .notAStatement

/-- An operand: #expr, Ri, expr, [Ri] or [Ri + expr] (R102). Whether [Ri - expr] may be written is open
(R116), and it is not read: DESIGN CHOICE (log 18). -/
def readOperand (ts : List Token) : Except AsmError (Operand × List Token) :=
  match ts with
  | .hash :: rest => do
    let (e, ts1) ← readConst rest
    return (.imm e, ts1)
  | .left :: rest => do
    let (r, ts1) ← readReg rest
    match ts1 with
    | .right :: ts2 => return (.ind r, ts2)
    | .plus :: ts2 =>
      let (e, ts3) ← readConst ts2
      match ts3 with
      | .right :: ts4 => return (.indDisp r e, ts4)
      | _ => throw .notAStatement
    | _ => throw .notAStatement
  | .word name :: rest =>
    match registerNamed name with
    | some r => .ok (.reg r, rest)
    | none => do
      let (e, ts1) ← readConst ts
      return (.addr e, ts1)
  | _ => do
    let (e, ts1) ← readConst ts
    return (.addr e, ts1)

/-- The comma between two operands. -/
def readComma (ts : List Token) : Except AsmError (List Token) :=
  match ts with
  | .comma :: rest => .ok rest
  | _ => .error .notAStatement

/-- The end of a statement. -/
def atEnd {α : Type} (r : α × List Token) : Except AsmError α :=
  match r.2 with
  | [] => .ok r.1
  | _ => .error .notAStatement

/-- Two registers with a comma between. -/
def readTwo (ts : List Token) : Except AsmError ((Reg × Reg) × List Token) := do
  let (a, ts1) ← readReg ts
  let (b, ts2) ← readReg (← readComma ts1)
  return ((a, b), ts2)

/-- A register, a comma and an operand. -/
def readRegOperand (ts : List Token) : Except AsmError (Reg × Operand) := do
  let (r, ts1) ← readReg ts
  let (op, ts2) ← readOperand (← readComma ts1)
  atEnd ((r, op), ts2)

/-! ## Instructions (R104, R105) -/

/-- The conditional jump of a mnemonic. -/
def condNamed (name : String) : Option CondName :=
  [CondName.jz, .jnz, .jgz, .jgez, .jlz, .jlez].find? (fun c => c.text == name)

/-- The three-register operation of a mnemonic. -/
def aluNamed (name : String) : Option AluName :=
  [AluName.add, .sub, .mul, .div, .mod, .and, .or, .xor, .asl, .asr].find? (fun o => o.text == name)

/-- The data type of a LOAD's mnemonic (R104). -/
def loadNamed (name : String) : Option DataType :=
  [DataType.dword, .uword, .sword, .ubyte, .sbyte].find? (fun t => loadText t == name)

/-- The size of a STORE's mnemonic (R104). -/
def storeNamed (name : String) : Option StoreSize :=
  [StoreSize.dword, .byte, .word].find? (fun z => z.text == name)

/-- The instruction of a mnemonic and the tokens of its operands (R105). -/
def readSource (name : String) (ts : List Token) : Except AsmError Source :=
  if name = "INT" then do
    let n ← atEnd (← readConst ts)
    return .int n
  else if name = "RET" then atEnd (.ret, ts)
  else if name = "JMP" then do
    let op ← atEnd (← readOperand ts)
    return .jmp op
  else if name = "CALL" then do
    let op ← atEnd (← readOperand ts)
    return .call op
  else if name = "PUSH" then do
    let r ← atEnd (← readReg ts)
    return .push r
  else if name = "POP" then do
    let r ← atEnd (← readReg ts)
    return .pop r
  else if name = "NOT" then do
    let (d, a) ← atEnd (← readTwo ts)
    return .not d a
  else
    match condNamed name, aluNamed name, loadNamed name, storeNamed name with
    | some c, _, _, _ => do
      let (r, op) ← readRegOperand ts
      return .cond c r op
    | none, some o, _, _ => do
      let ((d, a), ts1) ← readTwo ts
      let b ← atEnd (← readReg (← readComma ts1))
      return .alu o d a b
    | none, none, some t, _ => do
      let (d, op) ← readRegOperand ts
      return .load t d op
    | none, none, none, some z => do
      let (r, op) ← readRegOperand ts
      return .store z r op
    | none, none, none, none => .error .notAStatement

/-! ## Directives and statements (R100, R110 to R115) -/

/-- A data specifier: expr, count DUP expr, ? or count DUP ? (R111). -/
def readSpec (ts : List Token) : Except AsmError (DataSpec × List Token) :=
  match ts with
  | .question :: rest => .ok (.undef, rest)
  | _ => do
    let (e, ts1) ← readConst ts
    match ts1 with
    | .word "DUP" :: .question :: ts2 => return (.dupUndef e, ts2)
    | .word "DUP" :: ts2 =>
      let (v, ts3) ← readConst ts2
      return (.dup e v, ts3)
    | _ => return (.value e, ts1)

/-- The specifiers of a data definition, at least one. Every specifier uses up one unit of fuel. -/
def readSpecs (fuel : Nat) (ts : List Token) : Except AsmError (List DataSpec) :=
  match fuel with
  | 0 => .error .notAStatement
  | f + 1 => do
    let (d, ts1) ← readSpec ts
    match ts1 with
    | [] => return [d]
    | .comma :: rest => return d :: (← readSpecs f rest)
    | _ => throw .notAStatement

/-- The data definition of a keyword (R110). -/
def unitNamed (name : String) : Option DataUnit :=
  [DataUnit.db, .dw, .dd].find? (fun u => u.text == name)

/-- The base name of a section. -/
def kindNamed (cs : List Char) : Option SectionKind :=
  [SectionKind.text, .data, .rodata, .bss].find? (fun k => (Section.text ⟨k, none⟩).toList == cs)

/-- A section: its base name, and a number after a dot (R115). DESIGN CHOICE: the number is decimal and goes by
its value, so that text.1 and text.01 are one section (91_not_in_source.md N23, log 20). -/
def sectionNamed (name : String) : Option Section :=
  let base := name.toList.takeWhile (fun c => c.toNat != 46)
  match kindNamed base, name.toList.dropWhile (fun c => c.toNat != 46) with
  | some k, [] => some ⟨k, none⟩
  | some k, _ :: ds => (numberValue 10 ds).map (fun n => ⟨k, some n⟩)
  | none, _ => none

/-- What a statement is, from its tokens without its label. DESIGN CHOICE: a section's name alone is the section
directive, with no keyword, and a line may hold a label and nothing more (91_not_in_source.md N23, logs 20 and
22). -/
def readBody (ts : List Token) : Except AsmError Body :=
  match ts with
  | [] => .ok .none
  | .word symbol :: .word "DEF" :: rest => do
    let e ← atEnd (← readConst rest)
    return .define symbol e
  | .word name :: rest =>
    if name = "ORG" then do
      let e ← atEnd (← readConst rest)
      return .org e
    else
      match unitNamed name, sectionNamed name with
      | some u, _ => do return .data u (← readSpecs rest.length rest)
      | none, some s => atEnd (.enter s, rest)
      | none, none => do return .code (← readSource name rest)
  | _ => .error .notAStatement

/-- A statement with its optional label (R100, R101). -/
def readStmt (ts : List Token) : Except AsmError Stmt :=
  match ts with
  | .word l :: .colon :: rest => do return ⟨some l, ← readBody rest⟩
  | _ => do return ⟨none, ← readBody ts⟩

/-- The statement of a line. -/
def readLine (cs : List Char) : Except AsmError Stmt := do
  readStmt (← tokens cs.length cs)

/-- The statements of lines, in order. -/
def readLines (lines : List (List Char)) : Except AsmError (List Stmt) :=
  match lines with
  | [] => .ok []
  | l :: rest => do return (← readLine l) :: (← readLines rest)

/-- The image of lines of source text, given where each section begins (R115). -/
def assembleText (place : Section → Int) (lines : List String) : Except AsmError Machine.Memory := do
  assemble place (← readLines (lines.map String.toList))

end Sys2Proof.Assembler
end

