-- ==== Sys2Proof/Safety.lean ====
section
/-!
DEFINITION. The terms that statements about the machine use: the invariant, what a run may stop with, what
an operation leaves unchanged, and what an instruction reads, stores and enters, each written from the
spec's words and not from the model's operations.
-/
namespace Sys2Proof.Machine

/-! ## The invariant and the stops -/

/-- The invariant of every run: memory is in its canonical form. -/
def State.wf (s : State) : Prop := s.mem.wf = true

/-- The run goes on or has ended normally: no nested interrupt and no refusal (70_reset_and_hazards.md
R224). -/
def SafeOutcome (o : Host.Outcome State Fault Refusal) : Prop :=
  (∃ t, o = .next t) ∨ o = .fault .halted

/-- At this boundary the machine runs an instruction: it has not halted and nothing is delivered
(60_exceptions.md R189). -/
def RunsInstruction (s : State) : Prop :=
  s.halted = false ∧ s.hearHost.deliver s.turn.choice = none

/-! ## What stays -/

/-- The hidden state of the run and of interrupts is unchanged. -/
def SameControl (s t : State) : Prop :=
  t.halted = s.halted ∧ t.inIntr = s.inIntr ∧ t.intrSP = s.intrSP

/-- What the host has handed over and will do is unchanged. -/
def SameHost (s t : State) : Prop :=
  t.timerPending = s.timerPending ∧ t.keyQueue = s.keyQueue ∧ t.host = s.host

/-- The input register and the count of output-register reads are unchanged. -/
def SameInput (s t : State) : Prop :=
  t.keyData = s.keyData ∧ t.keyUnread = s.keyUnread ∧ t.outReads = s.outReads

/-- Every byte of storage reads as before. -/
def SameStorage (s t : State) : Prop := ∀ a : Word, t.byteAt a = s.byteAt a

/-- Everything but the registers R0..R15, SP and PC is unchanged. -/
def OnlyRegisters (s t : State) : Prop :=
  SameStorage s t ∧ t.out = s.out ∧ SameInput s t ∧ SameControl s t ∧ SameHost s t

/-- x[r] as an instruction of so many bytes reads it: PC is the next instruction's address (10_state.md
R25). -/
def State.operand (s : State) (bytes : Word) (r : Reg) : Word :=
  if r = .pc then s.pc + bytes else s.reg r

/-- The instruction of so many bytes completes; its one effect is a value in a register, and PC moves to the
next instruction unless PC is that register (10_state.md R25 to R27). -/
def WritesRegister (o : Host.Outcome State Fault Refusal) (s : State) (bytes : Word) (d : Reg)
    (v : Word) : Prop :=
  ∃ t, o = .next t ∧ (∀ r, t.reg r = if r = d then v else s.operand bytes r) ∧ OnlyRegisters s t

/-- The instruction completes; its one effect is on PC. -/
def GoesTo (o : Host.Outcome State Fault Refusal) (s : State) (target : Word) : Prop :=
  ∃ t, o = .next t ∧ (∀ r, t.reg r = if r = .pc then target else s.reg r) ∧ OnlyRegisters s t

/-! ## What an access reads and stores (20_memory.md R41 to R43) -/

/-- The address is one of the n bytes from `a` on, modulo 2^32. -/
def inSpan (a : Word) (n : Nat) (x : Word) : Bool := decide ((x - a).toNat < n)

/-- The byte that a read of an address gives in this state (20_memory.md R42): keyData at 36, the free byte of
this read at 32, storage elsewhere. -/
def State.seenByte (s : State) (a : Word) : Byte :=
  if a = 36 then s.keyData else if a = 32 then Config.outputReadByte s.outReads else s.byteAt a

/-- The little-endian dword of the bytes that reads from an address on give (R41, R42). -/
def State.seenDword (s : State) (a : Word) : Word :=
  s.seenByte (a + 3) ++ s.seenByte (a + 2) ++ s.seenByte (a + 1) ++ s.seenByte a

/-- The little-endian dword of storage at an address. -/
def State.storedDword (s : State) (a : Word) : Word :=
  s.byteAt (a + 3) ++ s.byteAt (a + 2) ++ s.byteAt (a + 1) ++ s.byteAt a

/-- What reading the n bytes from `a` on does besides giving them: byte 36 clears keyUnread, byte 32 counts as
one more read, nothing else happens (R42, R48). -/
def ReadsOnly (s t : State) (a : Word) (n : Nat) : Prop :=
  t.keyUnread = (if inSpan a n 36 then false else s.keyUnread) ∧
  t.outReads = (if inSpan a n 32 then s.outReads + 1 else s.outReads) ∧
  t.keyData = s.keyData ∧ SameStorage s t ∧ t.out = s.out ∧ SameControl s t ∧ SameHost s t

/-- The n low bytes of a value are stored little-endian from `a` on: a byte for address 32 goes to the output,
one for 36 goes nowhere, and every other byte of storage reads as before (R41, R43). -/
def StoredAt (s t : State) (a : Word) (n : Nat) (v : Word) : Prop :=
  (∀ x : Word, t.byteAt x =
    if inSpan a n x ∧ x ≠ 32 ∧ x ≠ 36 then v.extractLsb' (8 * (x - a).toNat) 8 else s.byteAt x) ∧
  t.out = s.out ++ (if inSpan a n 32 then [v.extractLsb' (8 * ((32 : Word) - a).toNat) 8] else [])

/-- ext(ty, v), by bits (20_memory.md R45, 00_scope.md R8). -/
def extended (t : DataType) (v : Word) : Word :=
  match t with
  | .dword => v
  | .uword => v &&& 0xFFFF
  | .sword => if v.getLsbD 15 then v ||| 0xFFFF0000 else v &&& 0xFFFF
  | .ubyte => v &&& 0xFF
  | .sbyte => if v.getLsbD 7 then v ||| 0xFFFFFF00 else v &&& 0xFF

/-- What an interrupt entry does (60_exceptions.md R185): the return address is pushed, SP and intrSP are the
new top, inIntr is set, PC is the IVT entry as it stands after the push, and nothing else changes. -/
def Enters (s t : State) (n : Nat) (ret : Word) : Prop :=
  (∀ i, t.reg (.gpr i) = s.reg (.gpr i)) ∧
  t.sp = s.sp + 4 ∧ StoredAt s t (s.sp + 4) 4 ret ∧
  t.inIntr = true ∧ t.intrSP = s.sp + 4 ∧
  t.pc = t.storedDword (BitVec.ofNat 32 (4 * n)) ∧
  t.halted = s.halted ∧ SameInput s t ∧ SameHost s t

/-! ## Forms by mode -/

/-- JMP by the operand's mode. -/
def jmpInstr (o : MemOperand) : Instr :=
  match o with
  | .memdir a => .jmpMemdir a
  | .regind b => .jmpRegind b
  | .regdisp b w => .jmpRegdisp b w

/-- CALL by the operand's mode. -/
def callInstr (o : MemOperand) : Instr :=
  match o with
  | .memdir a => .callMemdir a
  | .regind b => .callRegind b
  | .regdisp b w => .callRegdisp b w

/-- A conditional jump by its name and the operand's mode. -/
def condInstr (c : Assembler.CondName) (tested : Reg) (o : MemOperand) : Instr :=
  match o with
  | .memdir a => c.instrs.1 tested a
  | .regind b => c.instrs.2.1 tested b
  | .regdisp b w => c.instrs.2.2 tested b w

/-- When a conditional jump is made, by bits of the tested value (40_control_flow.md R126 to R131). -/
def jumpsWhen (c : Assembler.CondName) (v : Word) : Bool :=
  match c with
  | .jz => v == 0
  | .jnz => v != 0
  | .jgz => !v.getLsbD 31 && v != 0
  | .jgez => !v.getLsbD 31
  | .jlz => v.getLsbD 31
  | .jlez => v.getLsbD 31 || v == 0

/-- LOAD from memory by its data type and the operand's mode. -/
def loadInstr (t : DataType) (dst : Reg) (o : MemOperand) : Instr :=
  match o with
  | .memdir a => Instr.loadMemdirOf t dst a
  | .regind b => Instr.loadRegindOf t dst b
  | .regdisp b w => Instr.loadRegdispOf t dst b w

/-- STORE to memory by its data type and the operand's mode. -/
def storeInstr (t : DataType) (src : Reg) (o : MemOperand) : Instr :=
  match o with
  | .memdir a => Instr.storeMemdirOf t src a
  | .regind b => Instr.storeRegindOf t src b
  | .regdisp b w => Instr.storeRegdispOf t src b w

/-- The address of a memory operand for the instruction at this state (40_control_flow.md R120,
41_load_store.md R140): what the meanings use. -/
def State.address (s : State) (o : MemOperand) : Word := o.ea (s.advance o.length)

end Sys2Proof.Machine

namespace Sys2Proof

/-! ## Encodings -/

/-- The dword of an opcode's base word and three register codes in the fields Reg0, Reg1 and Reg2, as R161 to
R171 of 43_alu.md write it: base | r0<<16 | r1<<11 | r2<<6. -/
def aluWord (base : Word) (d a b : Reg) : Word :=
  base ||| (d.code.setWidth 32 <<< 16) ||| (a.code.setWidth 32 <<< 11) ||| (b.code.setWidth 32 <<< 6)

/-- The bits of the first dword that the instruction's form uses (30_encoding.md R77 to R81): all others are
ignored by the decoder. -/
def Instr.usedBits (i : Instr) : Word :=
  match i with
  | .ret | .jmpMemdir _ | .callMemdir _ => 0xFFE00000
  | .int _ | .jmpRegind _ | .jmpRegdisp _ _ | .callRegind _ | .callRegdisp _ _
  | .push _ | .pop _ => 0xFFFF0000
  | .jzMemdir _ _ | .jnzMemdir _ _ | .jgzMemdir _ _ | .jgezMemdir _ _ | .jlzMemdir _ _
  | .jlezMemdir _ _ => 0xFFE0F800
  | .jzRegind _ _ | .jnzRegind _ _ | .jgzRegind _ _ | .jgezRegind _ _ | .jlzRegind _ _
  | .jlezRegind _ _ | .jzRegdisp _ _ _ | .jnzRegdisp _ _ _ | .jgzRegdisp _ _ _
  | .jgezRegdisp _ _ _ | .jlzRegdisp _ _ _ | .jlezRegdisp _ _ _ | .not _ _ => 0xFFFFF800
  | .loadImm _ _ | .loadubImm _ _ | .loadsbImm _ _ | .loaduwImm _ _ | .loadswImm _ _
  | .loadMemdir _ _ | .loadubMemdir _ _ | .loadsbMemdir _ _ | .loaduwMemdir _ _ | .loadswMemdir _ _
  | .storeMemdir _ _ | .storebMemdir _ _ | .storebSxMemdir _ _ | .storewMemdir _ _
  | .storewSxMemdir _ _ => 0xFFE0F838
  | .loadRegdir _ _ | .loadubRegdir _ _ | .loadsbRegdir _ _ | .loaduwRegdir _ _ | .loadswRegdir _ _
  | .loadRegind _ _ | .loadubRegind _ _ | .loadsbRegind _ _ | .loaduwRegind _ _ | .loadswRegind _ _
  | .loadRegdisp _ _ _ | .loadubRegdisp _ _ _ | .loadsbRegdisp _ _ _ | .loaduwRegdisp _ _ _
  | .loadswRegdisp _ _ _
  | .storeRegdir _ _ | .storebRegdir _ _ | .storebSxRegdir _ _ | .storewRegdir _ _
  | .storewSxRegdir _ _
  | .storeRegind _ _ | .storebRegind _ _ | .storebSxRegind _ _ | .storewRegind _ _
  | .storewSxRegind _ _
  | .storeRegdisp _ _ _ | .storebRegdisp _ _ _ | .storebSxRegdisp _ _ _ | .storewRegdisp _ _ _
  | .storewSxRegdisp _ _ _ => 0xFFFFF838
  | .add _ _ _ | .sub _ _ _ | .mul _ _ _ | .div _ _ _ | .mod _ _ _ | .and _ _ _ | .or _ _ _
  | .xor _ _ _ | .asl _ _ _ | .asr _ _ _ => 0xFFFFFFC0

/-- The opcode field as a number (30_encoding.md R71). -/
def opField (w : Word) : Nat := w.toNat / 2 ^ 24

/-- The address-mode field as a number (R71). -/
def amField (w : Word) : Nat := w.toNat / 2 ^ 21 % 8

/-- The field Reg0 as a number (R71). -/
def r0Field (w : Word) : Nat := w.toNat / 2 ^ 16 % 32

/-- The field Reg1 as a number (R71). -/
def r1Field (w : Word) : Nat := w.toNat / 2 ^ 11 % 32

/-- The field Reg2 as a number (R71). -/
def r2Field (w : Word) : Nat := w.toNat / 2 ^ 6 % 32

/-- The field Type as a number (R71). -/
def tyField (w : Word) : Nat := w.toNat / 2 ^ 3 % 8

/-- E-OPC: the opcode is in the ranges R85 lists. -/
def badOpcode (w : Word) : Bool :=
  decide ((0x0A ≤ opField w ∧ opField w ≤ 0x0F) ∨ (0x12 ≤ opField w ∧ opField w ≤ 0x1F) ∨
    (0x22 ≤ opField w ∧ opField w ≤ 0x2F) ∨ (0x3B ≤ opField w ∧ opField w ≤ 0xFF))

/-- E-AM: the mode code is one of the three R86 lists. -/
def badMode (w : Word) : Bool :=
  decide (amField w = 0b001 ∨ amField w = 0b011 ∨ amField w = 0b101)

/-- E-MODE: the instruction does not accept the mode (R83, R84, R87): the jumps and CALL take the three memory
modes, LOAD takes all, STORE all but immediate, every other instruction register direct only. -/
def unacceptedMode (w : Word) : Bool :=
  decide ((0x02 ≤ opField w ∧ opField w ≤ 0x09 ∧ (amField w = 0b100 ∨ amField w = 0b000)) ∨
    (opField w = 0x11 ∧ amField w = 0b100) ∨
    ((opField w ≤ 0x01 ∨ opField w = 0x20 ∨ opField w = 0x21 ∨
        (0x30 ≤ opField w ∧ opField w ≤ 0x3A)) ∧ amField w ≠ 0b000))

/-- E-REG: a register field that the form uses is above 0x11 (R88, the list of R91 step 5). -/
def badRegister (w : Word) : Bool :=
  decide ((r0Field w > 0x11 ∧
      ((0x02 ≤ opField w ∧ opField w ≤ 0x09 ∧ (amField w = 0b010 ∨ amField w = 0b111)) ∨
       ((opField w = 0x10 ∨ opField w = 0x11) ∧
          (amField w = 0b000 ∨ amField w = 0b010 ∨ amField w = 0b111)) ∨
       opField w = 0x20 ∨ opField w = 0x21 ∨ (0x30 ≤ opField w ∧ opField w ≤ 0x3A))) ∨
    (r1Field w > 0x11 ∧
      ((0x04 ≤ opField w ∧ opField w ≤ 0x09) ∨ opField w = 0x10 ∨ opField w = 0x11 ∨
       (0x30 ≤ opField w ∧ opField w ≤ 0x3A))) ∨
    (r2Field w > 0x11 ∧ 0x30 ≤ opField w ∧ opField w ≤ 0x3A ∧ opField w ≠ 0x38))

/-- E-TYPE: LOAD or STORE with one of the three codes R89 lists. -/
def badType (w : Word) : Bool :=
  decide ((opField w = 0x10 ∨ opField w = 0x11) ∧
    (tyField w = 0b010 ∨ tyField w = 0b100 ∨ tyField w = 0b110))

/-- A first dword that is no instruction (60_exceptions.md R182, E-OPC to E-TYPE). -/
def undefinedEncoding (w : Word) : Bool :=
  badOpcode w || badMode w || unacceptedMode w || badRegister w || badType w

end Sys2Proof

namespace Sys2Proof.Machine

/-! ## When a step raises Error and when its fetch covers a device byte -/

/-- E-DIV0: DIV or MOD whose divisor is zero (60_exceptions.md R182). -/
def DividesByZero (i : Instr) (s : State) : Prop :=
  ∃ d a b, (i = .div d a b ∨ i = .mod d a b) ∧ s.operand 4 b = 0

/-- The instruction at PC raises Error: its dword is undefined, or it divides by zero (60_exceptions.md
R182). -/
def RaisesError (s : State) : Prop :=
  (inSpan s.pc 4 32 = false ∧ inSpan s.pc 4 36 = false ∧
    undefinedEncoding (s.storedDword s.pc) = true) ∨
  ∃ i, s.hearHost.fetch = .instr i ∧ DividesByZero i s

/-- The fetch at PC covers a device byte: the first dword does, or it is an instruction with a second dword
that does (20_memory.md R64, 30_encoding.md R73, R91). -/
def FetchCoversDevice (s : State) : Prop :=
  inSpan s.pc 4 32 = true ∨ inSpan s.pc 4 36 = true ∨
  (undefinedEncoding (s.storedDword s.pc) = false ∧
    (amField (s.storedDword s.pc) = 0b100 ∨ amField (s.storedDword s.pc) = 0b110 ∨
      amField (s.storedDword s.pc) = 0b111) ∧
    (inSpan (s.pc + 4) 4 32 = true ∨ inSpan (s.pc + 4) 4 36 = true))

end Sys2Proof.Machine
end

