-- ==== Sys2Proof/Certificates/Slice0/Obligations.lean ====
section
/-!
DEFINITION. The statements about the model, each with the rule of spec/ it formalises.
-/

open Sys2Proof Sys2Proof.Machine

/-! ## Reset and the invariant -/

/-- 70_reset_and_hazards.md R220: SP is the dword at 0 of the image, PC is ENTRY_PC, the flags are false, the
output is empty; storage is the image, and R0..R15, keyData and intrSP are whatever the parameters say. -/
def Obligations.ResetSequenceSetsTheStatedValues : Prop :=
  ∀ p : BootParams,
    (State.boot p).sp = (State.boot p).storedDword 0 ∧ (State.boot p).pc = p.entryPc ∧
    (State.boot p).halted = false ∧ (State.boot p).inIntr = false ∧
    (State.boot p).timerPending = false ∧ (State.boot p).keyUnread = false ∧
    (State.boot p).out = [] ∧
    (∀ a : Word, (State.boot p).byteAt a = p.image.byteAt a.toNat) ∧
    (∀ i : Fin 16, (State.boot p).reg (.gpr i) = p.initRegs[i]) ∧
    (State.boot p).keyData = p.keyData ∧ (State.boot p).intrSP = p.intrSP

/-- The model's reset state has canonical memory, and so has every boot from a canonical image. -/
def Obligations.ResetMemoryIsWellFormed : Prop :=
  State.reset.wf ∧ ∀ p : BootParams, p.image.wf = true → (State.boot p).wf

/-- Every step keeps memory in its canonical form: addresses rise, are below 2^32, and no device byte is
listed. -/
def Obligations.EveryStepKeepsMemoryWellFormed : Prop :=
  ∀ s t : State, s.wf → step s = .next t → t.wf

/-! ## Encoding -/

/-- Decoding the bytes of a well-formed instruction gives it back, with the bytes after it. -/
def Obligations.DecodeOfEncodeIsTheInstruction : Prop :=
  ∀ (i : Instr) (rest : List Byte), i.wellFormed = true →
    decode (encodeBytes i ++ rest) = .ok (i, rest)

/-- Two dwords decode to an instruction exactly when it is well formed, the used bits of the first dword are
those the encoder writes, and the second dword is the encoder's where the form has one: no other words
decode to it, and unused bits are ignored. -/
def Obligations.DecodeAcceptsExactlyTheEncodings : Prop :=
  ∀ (w0 w1 : Word) (i : Instr),
    decodeWords w0 w1 = .ok i ↔
      i.wellFormed = true ∧ w0 &&& i.usedBits = (encode i).1 ∧
      ((encode i).2 = none ∨ (encode i).2 = some w1)

/-- The decoder rejects a first dword exactly when one of the five conditions E-OPC to E-TYPE holds, written
with the ranges of R85 to R89. -/
def Obligations.DecodeRejectsExactlyTheUndefinedEncodings : Prop :=
  ∀ w0 w1 : Word, (∃ e, decodeWords w0 w1 = .error e) ↔ undefinedEncoding w0 = true

/-- Words written out from the field positions decode to the instructions they stand for. -/
def Obligations.WrittenOutWordsDecode : Prop :=
  decodeWords 0x02F10000 0x10 = .ok (.jmpRegdisp .pc 0x10) ∧
  decodeWords 0x10E31000 4 = .ok (.loadRegdisp (.gpr 2) (.gpr 3) 4) ∧
  decodeWords 0x11420818 0 = .ok (.storebRegind (.gpr 1) (.gpr 2)) ∧
  decodeWords 0x21110000 0 = .ok (.pop .pc) ∧
  decodeWords 0x31018C00 0 = .ok (.sub (.gpr 1) .pc .sp)

/-! ## Steps -/

/-- When the bytes at PC decode to an instruction, none of its own bytes is a device byte, and the machine runs
an instruction at this boundary, the step is exec of that instruction, in the state after the host's events
have arrived. -/
def Obligations.StepRunsTheDecodedInstruction : Prop :=
  ∀ (s : State) (i : Instr) (rest : List Byte),
    RunsInstruction s →
    decode ((List.range 8).map (fun k => s.byteAt (s.pc + BitVec.ofNat 32 k))) = .ok (i, rest) →
    (∀ k, k < 8 - rest.length → s.pc + BitVec.ofNat 32 k ≠ 32 ∧ s.pc + BitVec.ofNat 32 k ≠ 36) →
    i.wellFormed = true ∧ step s = exec i s.hearHost

/-- 60_exceptions.md R184, R188 for the five decode conditions: the instruction's own address is the return
address of the entry through IVT entry 3, and inside a routine the run ends. -/
def Obligations.UndefinedEncodingRaisesError : Prop :=
  ∀ s : State, RunsInstruction s →
    inSpan s.pc 4 32 = false → inSpan s.pc 4 36 = false → undefinedEncoding (s.storedDword s.pc) = true →
    (s.inIntr = true → step s = .fault .nestedInterrupt) ∧
    (s.inIntr = false → ∃ t, step s = .next t ∧ Enters s.hearHost t 3 s.pc)

/-- 30_encoding.md R90: the all-zero dword decodes as INT 0, so executing it halts the machine. -/
def Obligations.ZeroDwordHalts : Prop :=
  (∀ w1 : Word, decodeWords 0 w1 = .ok (.int 0)) ∧
  ∀ s : State, RunsInstruction s →
    inSpan s.pc 4 32 = false → inSpan s.pc 4 36 = false → s.storedDword s.pc = 0 →
    ∃ t, step s = .next t ∧ t.halted = true ∧ t.pc = s.pc + 4

/-- 20_memory.md R64: a fetch of the first dword over a device byte is refused, and so is one of the second
dword of an instruction that has one. -/
def Obligations.FetchOverADeviceByteIsRefused : Prop :=
  ∀ s : State, RunsInstruction s →
    ((inSpan s.pc 4 32 = true ∨ inSpan s.pc 4 36 = true) → step s = .refused .fetchFromDevice) ∧
    (inSpan s.pc 4 32 = false → inSpan s.pc 4 36 = false → undefinedEncoding (s.storedDword s.pc) = false →
      amField (s.storedDword s.pc) = 0b100 ∨ amField (s.storedDword s.pc) = 0b110 ∨
        amField (s.storedDword s.pc) = 0b111 →
      (inSpan (s.pc + 4) 4 32 = true ∨ inSpan (s.pc + 4) 4 36 = true) → step s = .refused .fetchFromDevice)

/-- 60_exceptions.md R193: once halted the machine takes no further step. -/
def Obligations.HaltedMachineTakesNoStep : Prop :=
  ∀ s : State, s.halted = true → step s = .fault .halted

/-- 60_exceptions.md R186: while a routine runs nothing is delivered; a tick and the pressed keys wait. -/
def Obligations.NothingIsDeliveredInsideARoutine : Prop :=
  ∀ s : State, s.inIntr = true → s.halted = false →
    step s = runInstruction s.hearHost ∧
    s.hearHost.timerPending = (s.timerPending || s.turn.tick) ∧
    s.hearHost.keyQueue = s.keyQueue ++ s.turn.keys

/-- 60_exceptions.md R190: delivery of the timer is a step of its own that clears timerPending and enters
through entry 4 with PC as return address; one tick or several, before or now, make one delivery. -/
def Obligations.TimerDeliveryEntersEntryFour : Prop :=
  ∀ s : State, s.halted = false → s.inIntr = false → s.turn.choice = .timer →
    (s.timerPending = true ∨ s.turn.tick = true) →
    ∃ t, step s = .next t ∧ t.timerPending = false ∧
      Enters { s.hearHost with timerPending := false } t 4 s.pc

/-- 60_exceptions.md R191: delivery of a key puts the oldest waiting key into keyData, sets keyUnread and enters
through entry 5. -/
def Obligations.KeyboardDeliveryEntersEntryFive : Prop :=
  ∀ (s : State) (k : Byte) (rest : List Byte), s.halted = false → s.inIntr = false →
    s.keyUnread = false → s.turn.choice = .keyboard → s.keyQueue ++ s.turn.keys = k :: rest →
    ∃ t, step s = .next t ∧ t.keyData = k ∧ t.keyUnread = true ∧ t.keyQueue = rest ∧
      Enters { s.hearHost with keyData := k, keyUnread := true, keyQueue := rest } t 5 s.pc

/-- 60_exceptions.md R191: with a key unread no key is delivered; the machine runs an instruction. -/
def Obligations.NoKeyIsDeliveredWhileOneIsUnread : Prop :=
  ∀ s : State, s.halted = false → s.keyUnread = true → s.turn.choice = .keyboard →
    step s = runInstruction s.hearHost

/-! ## Memory and interrupt entry -/

/-- 20_memory.md R42: MemRead of 1, 2 or 4 bytes gives the bytes of its span little-endian, with zeros above,
and does nothing but what reading bytes 32 and 36 does. -/
def Obligations.MemReadGivesTheBytesLittleEndian : Prop :=
  ∀ (s : State) (a : Word),
    (s.memRead a 1).1 = s.seenDword a &&& 0xFF ∧
    (s.memRead a 2).1 = s.seenDword a &&& 0xFFFF ∧
    (s.memRead a 4).1 = s.seenDword a ∧
    (∀ n, n = 1 ∨ n = 2 ∨ n = 4 →
      ReadsOnly s (s.memRead a n).2 a n ∧ ∀ r, (s.memRead a n).2.reg r = s.reg r)

/-- 20_memory.md R43: MemWrite of 1, 2 or 4 bytes stores its span little-endian, byte 32 to the output and byte
36 nowhere, and changes nothing else. -/
def Obligations.MemWriteStoresTheBytesLittleEndian : Prop :=
  ∀ (s : State) (a v : Word) (n : Nat), n = 1 ∨ n = 2 ∨ n = 4 →
    StoredAt s (s.memWrite a n v) a n v ∧ (∀ r, (s.memWrite a n v).reg r = s.reg r) ∧
    SameInput s (s.memWrite a n v) ∧ SameControl s (s.memWrite a n v) ∧
    SameHost s (s.memWrite a n v)

/-- A dword read where a dword was written, away from the device bytes, is the one written, and an instruction
fetch there sees it at once (20_memory.md R58, R62). -/
def Obligations.ReadAndFetchSeeTheLastWrite : Prop :=
  ∀ (s : State) (a v : Word), inSpan a 4 32 = false → inSpan a 4 36 = false →
    ((s.memWrite a 4 v).memRead a 4).1 = v ∧ (s.memWrite a 4 v).fetchDword a = some v

/-- 60_exceptions.md R185: what an interrupt entry does, for every entry it is performed for. -/
def Obligations.InterruptEntryPushesAndVectors : Prop :=
  ∀ (s : State) (n : Nat) (ret : Word), n ≠ 0 → n < 32 → n ≠ 8 → n ≠ 9 →
    Enters s (s.interrupt n ret) n ret

/-- A routine that returns at once gives back PC, SP and an open machine, where its stack slot is clear of the
device bytes (60_exceptions.md R185, R187). -/
def Obligations.RetUndoesAnInterruptEntry : Prop :=
  ∀ (s : State) (n : Nat) (ret : Word), n ≠ 0 → n < 32 → n ≠ 8 → n ≠ 9 →
    inSpan (s.sp + 4) 4 32 = false → inSpan (s.sp + 4) 4 36 = false →
    ∃ t, exec .ret (s.interrupt n ret) = .next t ∧ t.pc = ret ∧ t.sp = s.sp ∧ t.inIntr = false ∧
      (∀ i, t.reg (.gpr i) = s.reg (.gpr i)) ∧
      (∀ a, inSpan (s.sp + 4) 4 a = false → t.byteAt a = s.byteAt a)

/-! ## Control flow -/

/-- 40_control_flow.md R120, 41_load_store.md R140: the address of an operand is the second dword, the base
register, or their sum modulo 2^32, and a base of PC is the next instruction's address. -/
def Obligations.OperandAddressFollowsTheMode : Prop :=
  ∀ (s : State) (w : Word) (b : Reg),
    s.address (.memdir w) = w ∧ s.address (.regind b) = s.operand 4 b ∧
    (s.address (.regdisp b w)).toNat = ((s.operand 8 b).toNat + w.toNat) % 2 ^ 32

/-- 40_control_flow.md R121: INT n, with n neither 0 nor 8 nor 9 and no routine running, enters entry n with
the next instruction's address as return address. -/
def Obligations.IntEntersItsRoutine : Prop :=
  ∀ (s : State) (n : Nat), n ≠ 0 → n < 32 → n ≠ 8 → n ≠ 9 → s.inIntr = false →
    ∃ t, exec (.int n) s = .next t ∧ Enters s t n (s.pc + 4)

/-- 60_exceptions.md R193: INT 0 sets halted, leaves PC at the next instruction, and does nothing else, inside
a routine too; after it the machine takes no step. -/
def Obligations.IntZeroHalts : Prop :=
  ∀ s : State, ∃ t, exec (.int 0) s = .next t ∧ t.halted = true ∧
    (∀ r, t.reg r = s.operand 4 r) ∧ SameStorage s t ∧ t.out = s.out ∧ SameInput s t ∧
    t.inIntr = s.inIntr ∧ t.intrSP = s.intrSP ∧ SameHost s t ∧ step t = .fault .halted

/-- 60_exceptions.md R188, R194: where INT n stops: 8 and 9 are refused, and any other number but 0 faults
inside a routine. -/
def Obligations.IntStopsWhereTheSpecSays : Prop :=
  ∀ (s : State) (n : Nat),
    (n = 8 ∨ n = 9 → exec (.int n) s = .refused .entryOverDevice) ∧
    (n ≠ 0 → n < 32 → n ≠ 8 → n ≠ 9 → s.inIntr = true →
      exec (.int n) s = .fault .nestedInterrupt)

/-- The model's own choice (log 12): a term INT n that no encoding holds, n above 31, is refused. -/
def Obligations.IntWithoutAnEncodingIsRefused : Prop :=
  ∀ (s : State) (n : Nat), 32 ≤ n → exec (.int n) s = .refused .noSuchEntry

/-- 40_control_flow.md R122: JMP in its three modes sets PC to the operand's address and does nothing else. -/
def Obligations.JmpGoesToTheOperandAddress : Prop :=
  ∀ (s : State) (o : MemOperand), GoesTo (exec (jmpInstr o) s) s (s.address o)

/-- 40_control_flow.md R123: CALL in its three modes computes the target with the old SP, pushes the next
instruction's address, and sets PC to the target. -/
def Obligations.CallPushesTheReturnAddress : Prop :=
  ∀ (s : State) (o : MemOperand), ∃ t, exec (callInstr o) s = .next t ∧
    (∀ r, t.reg r = if r = .pc then s.address o else if r = .sp then s.sp + 4 else s.reg r) ∧
    StoredAt s t (s.sp + 4) 4 (s.pc + o.length) ∧ SameInput s t ∧ SameControl s t ∧ SameHost s t

/-- 40_control_flow.md R124: RET pops PC; it clears inIntr exactly when a routine runs and SP is intrSP. -/
def Obligations.RetPopsThePc : Prop :=
  ∀ s : State, ∃ t, exec .ret s = .next t ∧
    (∀ r, t.reg r =
      if r = .pc then s.seenDword s.sp else if r = .sp then s.sp - 4 else s.reg r) ∧
    (t.inIntr = true ↔ s.inIntr = true ∧ s.sp ≠ s.intrSP) ∧
    t.halted = s.halted ∧ t.intrSP = s.intrSP ∧
    ReadsOnly { s with inIntr := t.inIntr } t s.sp 4

/-- 40_control_flow.md R125 to R131: the six conditional jumps in their three modes go to the operand's address
when the tested register meets the condition, and to the next instruction otherwise. -/
def Obligations.ConditionalJumpsTestTheRegister : Prop :=
  ∀ (s : State) (c : Assembler.CondName) (tested : Reg) (o : MemOperand),
    GoesTo (exec (condInstr c tested o) s) s
      (if jumpsWhen c (s.operand o.length tested) then s.address o else s.pc + o.length)

/-! ## Load and store -/

/-- 41_load_store.md R140 to R145, immediate mode: the five loads bring the constant's low bits, extended. -/
def Obligations.LoadOfAConstantExtendsIt : Prop :=
  ∀ (s : State) (t : DataType) (d : Reg) (v : Word),
    WritesRegister (exec (Instr.loadImmOf t d v) s) s 8 d (extended t v)

/-- 41_load_store.md R140 to R145, register direct mode: the five loads bring the source's low bits,
extended. -/
def Obligations.LoadOfARegisterExtendsIt : Prop :=
  ∀ (s : State) (t : DataType) (d r : Reg),
    WritesRegister (exec (Instr.loadRegdirOf t d r) s) s 4 d (extended t (s.operand 4 r))

/-- 41_load_store.md R140 to R145, memory modes: the five loads bring the bytes at the operand's address,
little-endian and extended; they read no byte beyond the size of the type and store nothing. -/
def Obligations.LoadFromMemoryExtendsTheBytes : Prop :=
  ∀ (s : State) (t : DataType) (d : Reg) (o : MemOperand),
    ∃ u, exec (loadInstr t d o) s = .next u ∧
      (∀ r, u.reg r = if r = d then extended t (s.seenDword (s.address o)) else s.operand o.length r) ∧
      ReadsOnly s u (s.address o) (typeSize t)

/-- 20_memory.md R45: the sizes of the five data types. -/
def Obligations.DataTypesHaveTheirSizes : Prop :=
  typeSize .dword = 4 ∧ typeSize .uword = 2 ∧ typeSize .sword = 2 ∧ typeSize .ubyte = 1 ∧
  typeSize .sbyte = 1

/-- 41_load_store.md R146 to R148, register direct mode: the whole destination receives the source's low bits,
extended, also for the two type codes the assembler does not emit. -/
def Obligations.StoreToARegisterExtendsTheSource : Prop :=
  ∀ (s : State) (t : DataType) (r d : Reg),
    WritesRegister (exec (Instr.storeRegdirOf t r d) s) s 4 d (extended t (s.operand 4 r))

/-- 41_load_store.md R146 to R148, memory modes: the low bytes of the source go to the operand's address,
every other byte keeps its value, and no register but PC changes; the extension of the type has no effect. -/
def Obligations.StoreToMemoryStoresTheLowBytes : Prop :=
  ∀ (s : State) (t : DataType) (r : Reg) (o : MemOperand),
    ∃ u, exec (storeInstr t r o) s = .next u ∧ (∀ x, u.reg x = s.operand o.length x) ∧
      StoredAt s u (s.address o) (typeSize t) (s.operand o.length r) ∧
      SameInput s u ∧ SameControl s u ∧ SameHost s u

/-! ## Stack -/

/-- 42_stack.md R151: PUSH writes the register's value, read first, at SP + 4 and leaves SP there. -/
def Obligations.PushStoresTheRegisterAboveTheTop : Prop :=
  ∀ (s : State) (r : Reg), ∃ t, exec (.push r) s = .next t ∧
    (∀ x, t.reg x = if x = .sp then s.sp + 4 else s.operand 4 x) ∧
    StoredAt s t (s.sp + 4) 4 (s.operand 4 r) ∧ SameInput s t ∧ SameControl s t ∧ SameHost s t

/-- 42_stack.md R152: POP reads the dword at SP, lowers SP by 4 and writes the register last; it never clears
inIntr. -/
def Obligations.PopWritesTheRegisterLast : Prop :=
  ∀ (s : State) (d : Reg), ∃ t, exec (.pop d) s = .next t ∧
    (∀ x, t.reg x =
      if x = d then s.seenDword s.sp else if x = .sp then s.sp - 4 else s.operand 4 x) ∧
    ReadsOnly s t s.sp 4

/-- 42_stack.md R153: PUSH then POP of one register, where the slot is clear of the device bytes, restores SP
and leaves the register (PC: the address it pushed) and every other register as they were; the pushed dword
stays in memory. -/
def Obligations.PushThenPopRestores : Prop :=
  ∀ (s : State) (r : Reg), inSpan (s.sp + 4) 4 32 = false → inSpan (s.sp + 4) 4 36 = false →
    ∃ t u, exec (.push r) s = .next t ∧ exec (.pop r) t = .next u ∧ u.sp = s.sp ∧
      (∀ x, x ≠ .pc → u.reg x = s.reg x) ∧ (r = .pc → u.pc = s.pc + 4) ∧
      u.storedDword (s.sp + 4) = s.operand 4 r

/-! ## Arithmetic and logic -/

/-- 43_alu.md R161 to R163, R172: ADD, SUB and MUL give the low 32 bits of the exact integer result, the
operands read as signed; and the same bits with the operands read as unsigned; and their words. -/
def Obligations.AddSubMulWrapTheExactResult : Prop :=
  ∀ (s : State) (d a b : Reg),
    WritesRegister (exec (.add d a b) s) s 4 d
      (BitVec.ofInt 32 ((s.operand 4 a).toInt + (s.operand 4 b).toInt)) ∧
    WritesRegister (exec (.sub d a b) s) s 4 d
      (BitVec.ofInt 32 ((s.operand 4 a).toInt - (s.operand 4 b).toInt)) ∧
    WritesRegister (exec (.mul d a b) s) s 4 d
      (BitVec.ofInt 32 ((s.operand 4 a).toInt * (s.operand 4 b).toInt)) ∧
    WritesRegister (exec (.add d a b) s) s 4 d
      (BitVec.ofInt 32 (((s.operand 4 a).toNat : Int) + (s.operand 4 b).toNat)) ∧
    WritesRegister (exec (.sub d a b) s) s 4 d
      (BitVec.ofInt 32 (((s.operand 4 a).toNat : Int) - (s.operand 4 b).toNat)) ∧
    WritesRegister (exec (.mul d a b) s) s 4 d
      (BitVec.ofInt 32 (((s.operand 4 a).toNat : Int) * (s.operand 4 b).toNat)) ∧
    encode (.add d a b) = (aluWord 0x30000000 d a b, none) ∧
    encode (.sub d a b) = (aluWord 0x31000000 d a b, none) ∧
    encode (.mul d a b) = (aluWord 0x32000000 d a b, none)

/-- 43_alu.md R164, R165, R173: for a divisor that is not zero, DIV and MOD give the quotient and remainder
with a = q * b + r, |r| < |b|, and r of the dividend's sign or zero. -/
def Obligations.DivModSatisfyTheDivisionLaw : Prop :=
  ∀ (s : State) (d a b : Reg), s.operand 4 b ≠ 0 →
    ∃ q r : Int, (s.operand 4 a).toInt = q * (s.operand 4 b).toInt + r ∧
      |r| < |(s.operand 4 b).toInt| ∧
      (0 ≤ (s.operand 4 a).toInt → 0 ≤ r) ∧ ((s.operand 4 a).toInt ≤ 0 → r ≤ 0) ∧
      WritesRegister (exec (.div d a b) s) s 4 d (BitVec.ofInt 32 q) ∧
      WritesRegister (exec (.mod d a b) s) s 4 d (BitVec.ofInt 32 r)

/-- 43_alu.md R173: -2^31 / -1 gives 0x80000000 and remainder 0. -/
def Obligations.DivModOverflowCase : Prop :=
  ∀ (s : State) (d a b : Reg), s.operand 4 a = 0x80000000 → s.operand 4 b = 0xFFFFFFFF →
    WritesRegister (exec (.div d a b) s) s 4 d 0x80000000 ∧
    WritesRegister (exec (.mod d a b) s) s 4 d 0

/-- 43_alu.md R164, R165, 60_exceptions.md R184: a zero divisor writes no register and enters the error routine
with the instruction's own address; inside a routine the run ends. -/
def Obligations.ZeroDivisorRaisesError : Prop :=
  ∀ (s : State) (d a b : Reg), s.operand 4 b = 0 →
    (s.inIntr = true → exec (.div d a b) s = .fault .nestedInterrupt ∧
      exec (.mod d a b) s = .fault .nestedInterrupt) ∧
    (s.inIntr = false → ∃ t, exec (.div d a b) s = .next t ∧ exec (.mod d a b) s = .next t ∧
      Enters s t 3 s.pc)

/-- 43_alu.md R166 to R169: AND, OR, XOR and NOT bit by bit, and the words of the first three. -/
def Obligations.LogicWorksBitByBit : Prop :=
  ∀ (s : State) (d a b : Reg), ∃ vAnd vOr vXor vNot : Word,
    WritesRegister (exec (.and d a b) s) s 4 d vAnd ∧
    WritesRegister (exec (.or d a b) s) s 4 d vOr ∧
    WritesRegister (exec (.xor d a b) s) s 4 d vXor ∧
    WritesRegister (exec (.not d a) s) s 4 d vNot ∧
    encode (.and d a b) = (aluWord 0x35000000 d a b, none) ∧
    encode (.or d a b) = (aluWord 0x36000000 d a b, none) ∧
    encode (.xor d a b) = (aluWord 0x37000000 d a b, none) ∧
    ∀ k, k < 32 →
      vAnd.getLsbD k = ((s.operand 4 a).getLsbD k && (s.operand 4 b).getLsbD k) ∧
      vOr.getLsbD k = ((s.operand 4 a).getLsbD k || (s.operand 4 b).getLsbD k) ∧
      vXor.getLsbD k = ((s.operand 4 a).getLsbD k != (s.operand 4 b).getLsbD k) ∧
      vNot.getLsbD k = !(s.operand 4 a).getLsbD k

/-- 43_alu.md R170, R171, R174: ASL moves bit k - n to bit k and fills with zeros, ASR moves bit k + n to bit k
and fills with the sign, n being the whole of the second source as an unsigned number; and their words. -/
def Obligations.ShiftsMoveBitsByTheWholeCount : Prop :=
  ∀ (s : State) (d a b : Reg), ∃ vAsl vAsr : Word,
    WritesRegister (exec (.asl d a b) s) s 4 d vAsl ∧
    WritesRegister (exec (.asr d a b) s) s 4 d vAsr ∧
    encode (.asl d a b) = (aluWord 0x39000000 d a b, none) ∧
    encode (.asr d a b) = (aluWord 0x3A000000 d a b, none) ∧
    ∀ k, k < 32 →
      vAsl.getLsbD k =
        (decide ((s.operand 4 b).toNat ≤ k) &&
          (s.operand 4 a).getLsbD (k - (s.operand 4 b).toNat)) ∧
      vAsr.getLsbD k =
        (s.operand 4 a).getLsbD (if k + (s.operand 4 b).toNat < 32 then k + (s.operand 4 b).toNat else 31)

/-! ## Rules over the whole machine -/

/-- 70_reset_and_hazards.md R224: a step ends in a halted state only by running INT 0. -/
def Obligations.OnlyIntZeroHalts : Prop :=
  ∀ s t : State, step s = .next t → t.halted = true →
    RunsInstruction s ∧ s.hearHost.fetch = .instr (.int 0)

/-- 40_control_flow.md R124, 60_exceptions.md R187: a step ends an interrupt routine only by running RET with
SP = intrSP. -/
def Obligations.OnlyRetAtTheEntryLevelEndsARoutine : Prop :=
  ∀ s t : State, s.inIntr = true → step s = .next t → t.inIntr = false →
    s.hearHost.fetch = .instr .ret ∧ s.sp = s.intrSP

/-- A step sets inIntr only by an interrupt entry: that of a fetched INT n, of an Error, or of a delivery, each
with its own return address (60_exceptions.md R181, R184, R185); and intrSP changes only where inIntr is
set. -/
def Obligations.OnlyAnEntryStartsARoutine : Prop :=
  ∀ s t : State, step s = .next t →
    (s.inIntr = false → t.inIntr = true →
      (RunsInstruction s ∧ ∃ n, s.hearHost.fetch = .instr (.int n) ∧ n ≠ 0 ∧ n < 32 ∧ n ≠ 8 ∧ n ≠ 9 ∧
        Enters s.hearHost t n (s.pc + 4)) ∨
      (RunsInstruction s ∧ RaisesError s ∧ Enters s.hearHost t 3 s.pc) ∨
      (s.turn.choice = .timer ∧ (s.timerPending = true ∨ s.turn.tick = true) ∧
        Enters { s.hearHost with timerPending := false } t 4 s.pc) ∨
      (s.turn.choice = .keyboard ∧ s.keyUnread = false ∧
        ∃ k rest, s.keyQueue ++ s.turn.keys = k :: rest ∧
          Enters { s.hearHost with keyData := k, keyUnread := true, keyQueue := rest } t 5 s.pc)) ∧
    (t.intrSP ≠ s.intrSP → s.inIntr = false ∧ t.inIntr = true)

/-- 20_memory.md R52, R59: what has been written to the output stays there, in order. -/
def Obligations.OutputOnlyGrows : Prop :=
  ∀ s t : State, step s = .next t → ∃ new, t.out = s.out ++ new ∧ new.length ≤ 1

/-- 20_memory.md R53, 60_exceptions.md R191: keyData and a set keyUnread come only from a delivery, which needs
keyUnread clear and no routine running. -/
def Obligations.KeyDataChangesOnlyByDelivery : Prop :=
  ∀ s t : State, step s = .next t →
    (t.keyData ≠ s.keyData ∨ (s.keyUnread = false ∧ t.keyUnread = true)) →
    s.turn.choice = .keyboard ∧ s.inIntr = false ∧ s.keyUnread = false ∧
      s.keyQueue ++ s.turn.keys = t.keyData :: t.keyQueue ∧ t.keyUnread = true

/-- 93_implementation_defined.md section 2: a step of a machine that is not halted gives a next state, unless a
synchronous interrupt comes while a routine runs (60_exceptions.md R188), the fetch covers a device byte
(20_memory.md R64), or the instruction is INT 8 or INT 9 (60_exceptions.md R194). -/
def Obligations.StepsStopOnlyWhereTheSpecSays : Prop :=
  ∀ s : State, s.halted = false →
    (∃ t, step s = .next t) ∨
    (step s = .fault .nestedInterrupt ∧ s.inIntr = true ∧ RunsInstruction s ∧
      ((∃ n, s.hearHost.fetch = .instr (.int n) ∧ n ≠ 0 ∧ n ≠ 8 ∧ n ≠ 9) ∨ RaisesError s)) ∨
    (step s = .refused .fetchFromDevice ∧ RunsInstruction s ∧ FetchCoversDevice s) ∨
    (step s = .refused .entryOverDevice ∧ RunsInstruction s ∧
      (s.hearHost.fetch = .instr (.int 8) ∨ s.hearHost.fetch = .instr (.int 9)))

/-- 70_reset_and_hazards.md R224 with 60_exceptions.md R188: outside a routine the run goes on or has ended
normally, whatever the instruction, unless it is one that the spec refuses. -/
def Obligations.StepsOutsideARoutineAreSafe : Prop :=
  ∀ s : State, s.inIntr = false → s.hearHost.fetch ≠ .overDevice →
    s.hearHost.fetch ≠ .instr (.int 8) → s.hearHost.fetch ≠ .instr (.int 9) → SafeOutcome (step s)

/-! ## The host's load and the assembler -/

/-- The load that stands for the host's (the model's own, log 17): after it the next step runs the instruction
in the two dwords, from a state whose registers but PC, whose input, and whose routine and pending events are as
before. -/
def Obligations.PlacedWordsRunNext : Prop :=
  ∀ (s : State) (w0 w1 : Word) (i : Instr), decodeWords w0 w1 = .ok i →
    step (s.placeWords w0 w1) = exec i (s.placeWords w0 w1).hearHost ∧
    (∀ r, r ≠ .pc → (s.placeWords w0 w1).reg r = s.reg r) ∧ SameInput s (s.placeWords w0 w1) ∧
    (s.placeWords w0 w1).inIntr = s.inIntr ∧ (s.placeWords w0 w1).intrSP = s.intrSP ∧
    (s.placeWords w0 w1).timerPending = s.timerPending ∧
    (s.placeWords w0 w1).keyQueue = s.keyQueue

/-- 30_encoding.md R105: an instruction statement after ORG is placed at that address as the bytes of its
instruction, its label is the address, and the decoder reads the instruction back from there. -/
def Obligations.AssembledInstructionIsPlacedAtOrg : Prop :=
  ∀ (place : Assembler.Section → Int) (a : Nat) (label : String) (src : Assembler.Source) (i : Instr),
    src.instr (fun e => e.eval [(label, (a : Int))] a) = .ok i →
    128 ≤ a → a + 8 ≤ 2 ^ 32 →
    i.wellFormed = true ∧
    ∃ m, Assembler.assemble place
        [⟨none, .org (.lit a)⟩, ⟨some label, .code src⟩] = .ok m ∧
      (∀ k, k < (encodeBytes i).length → Memory.lookup m (a + k) = (encodeBytes i)[k]?) ∧
      (∀ x, (x < a ∨ a + (encodeBytes i).length ≤ x) → Memory.lookup m x = none)
end

