-- ==== Sys2Proof/Laws/Decode.lean ====
section
/-!
SUPPORT. The code tables and the fields of a first dword, each read back from what it was written from, and
what decoding gives for a word built from its fields.
-/
namespace Sys2Proof

/-! ## The code tables -/

@[simp] theorem opcode_ofCode_code (o : Opcode) : Opcode.ofCode o.code = some o := by
  cases o <;> rfl

@[simp] theorem mode_ofCode_code (m : Mode) : Mode.ofCode m.code = some m := by
  cases m <;> rfl

@[simp] theorem dataType_ofCode_code (t : DataType) : DataType.ofCode t.code = some t := by
  cases t <;> rfl

@[simp] theorem reg_ofCode_code (r : Reg) : Reg.ofCode r.code = some r := by
  cases r with
  | gpr i =>
    revert i
    decide
  | sp => rfl
  | pc => rfl

/-- An opcode read from a code has that code. -/
theorem opcode_code_of_ofCode {c : BitVec 8} {o : Opcode} (h : Opcode.ofCode c = some o) : o.code = c := by
  simpa using List.find?_some h

/-- A mode read from a code has that code. -/
theorem mode_code_of_ofCode {c : BitVec 3} {m : Mode} (h : Mode.ofCode c = some m) : m.code = c := by
  simpa using List.find?_some h

/-- A data type read from a code has that code. -/
theorem dataType_code_of_ofCode {c : BitVec 3} {t : DataType} (h : DataType.ofCode c = some t) :
    t.code = c := by
  simpa using List.find?_some h

/-- A register read from a code has that code. -/
theorem reg_code_of_ofCode {c : BitVec 5} {r : Reg} (h : Reg.ofCode c = some r) : r.code = c := by
  unfold Reg.ofCode at h
  split at h
  · cases h
    apply BitVec.eq_of_toNat_eq
    simp [Reg.code]
  · split at h
    · rename_i hc
      cases h
      exact hc.symm
    · split at h
      · rename_i hc
        cases h
        exact hc.symm
      · cases h

/-- A code selects a register exactly when it is at most 0x11. -/
theorem reg_ofCode_isSome (c : BitVec 5) : (Reg.ofCode c).isSome = decide (c.toNat ≤ 0x11) := by
  revert c
  decide

@[simp] theorem decodeReg_code (r : Reg) : decodeReg r.code = .ok r := by
  rw [decodeReg, reg_ofCode_code]

@[simp] theorem decodeType_code (t : DataType) : decodeType t.code = .ok t := by
  rw [decodeType, dataType_ofCode_code]

/-- A register that decodes was encoded so. -/
theorem decodeReg_ok {c : BitVec 5} {r : Reg} (h : decodeReg c = .ok r) : c = r.code := by
  unfold decodeReg at h
  split at h
  · cases h
    exact (reg_code_of_ofCode ‹_›).symm
  · cases h

/-- A data type that decodes was encoded so. -/
theorem decodeType_ok {c : BitVec 3} {t : DataType} (h : decodeType c = .ok t) : c = t.code := by
  unfold decodeType at h
  split at h
  · cases h
    exact (dataType_code_of_ofCode ‹_›).symm
  · cases h

/-! ## The fields -/

/-- The fields of a word built from fields are those fields. -/
@[simp] theorem fields_ofWord_toWord (f : Fields) : Fields.ofWord f.toWord = f := by
  obtain ⟨op, am, r0, r1, r2, ty⟩ := f
  simp only [Fields.ofWord, Fields.toWord, Fields.mk.injEq]
  refine ⟨?_, ?_, ?_, ?_, ?_, ?_⟩ <;>
    (apply BitVec.eq_of_getLsbD_eq
     intro i hi
     simp only [BitVec.getLsbD_extractLsb', BitVec.getLsbD_append]
     interval_cases i <;> simp)

/-- Decoding a word built from an opcode, a mode and fields is decoding its form. -/
theorem decodeHead_headWord (op : Opcode) (am : Mode) (r0 r1 r2 : BitVec 5) (ty : BitVec 3) :
    decodeHead (headWord op am r0 r1 r2 ty) = decodeForm op am ⟨op.code, am.code, r0, r1, r2, ty⟩ := by
  rw [decodeHead, headWord, fields_ofWord_toWord, opcode_ofCode_code, mode_ofCode_code]

/-- The bytes of a dword make the dword. -/
theorem dwordOfBytes_bytes (w : Word) :
    dwordOfBytes (w.extractLsb' 0 8) (w.extractLsb' 8 8) (w.extractLsb' 16 8) (w.extractLsb' 24 8) =
      w := by
  apply BitVec.eq_of_getLsbD_eq
  intro i hi
  simp only [dwordOfBytes, BitVec.getLsbD_append, BitVec.getLsbD_extractLsb']
  interval_cases i <;> simp

/-! ## Well-formed results -/

/-- A form's instruction is well formed, whatever the second dword. -/
def Shape.WellFormed (sh : Shape) : Prop :=
  match sh with
  | .one i => i.wellFormed = true
  | .two i => ∀ w, (i w).wellFormed = true

/-- A decoded register is some register. -/
theorem decodeReg_bind {α : Type} {c : BitVec 5} {f : Reg → Except DecodeError α} {a : α}
    (h : (decodeReg c >>= f) = .ok a) : ∃ r, decodeReg c = .ok r ∧ f r = .ok a := by
  cases hr : decodeReg c with
  | error e =>
    rw [hr] at h
    cases h
  | ok r =>
    rw [hr] at h
    exact ⟨r, rfl, h⟩

/-- A decoded data type is some data type. -/
theorem decodeType_bind {α : Type} {c : BitVec 3} {f : DataType → Except DecodeError α} {a : α}
    (h : (decodeType c >>= f) = .ok a) : ∃ t, decodeType c = .ok t ∧ f t = .ok a := by
  cases ht : decodeType c with
  | error e =>
    rw [ht] at h
    cases h
  | ok t =>
    rw [ht] at h
    exact ⟨t, rfl, h⟩

/-- What `onlyRegdir` accepts has the mode 0b000. -/
theorem onlyRegdir_ok {am : Mode} {form : Except DecodeError Shape} {sh : Shape}
    (h : onlyRegdir am form = .ok sh) : am = .regdir ∧ form = .ok sh := by
  cases am <;> first | exact ⟨rfl, h⟩ | cases h

theorem oneReg_ok {c : BitVec 5} {i : Reg → Instr} {sh : Shape} (h : oneReg c i = .ok sh) :
    ∃ r, c = r.code ∧ sh = .one (i r) := by
  obtain ⟨r, hr, h⟩ := decodeReg_bind h
  cases h
  exact ⟨r, decodeReg_ok hr, rfl⟩

theorem twoRegs_ok {c0 c1 : BitVec 5} {i : Reg → Reg → Instr} {sh : Shape}
    (h : twoRegs c0 c1 i = .ok sh) : ∃ r0 r1, c0 = r0.code ∧ c1 = r1.code ∧ sh = .one (i r0 r1) := by
  obtain ⟨r0, h0, h⟩ := decodeReg_bind h
  obtain ⟨r1, h1, h⟩ := decodeReg_bind h
  cases h
  exact ⟨r0, r1, decodeReg_ok h0, decodeReg_ok h1, rfl⟩

theorem threeRegs_ok {c0 c1 c2 : BitVec 5} {i : Reg → Reg → Reg → Instr} {sh : Shape}
    (h : threeRegs c0 c1 c2 i = .ok sh) :
    ∃ r0 r1 r2, c0 = r0.code ∧ c1 = r1.code ∧ c2 = r2.code ∧ sh = .one (i r0 r1 r2) := by
  obtain ⟨r0, h0, h⟩ := decodeReg_bind h
  obtain ⟨r1, h1, h⟩ := decodeReg_bind h
  obtain ⟨r2, h2, h⟩ := decodeReg_bind h
  cases h
  exact ⟨r0, r1, r2, decodeReg_ok h0, decodeReg_ok h1, decodeReg_ok h2, rfl⟩

/-- What JMP and CALL decode to, by mode. -/
theorem jumpForm_ok {am : Mode} {f : Fields} {m : Word → Instr} {i : Reg → Instr}
    {d : Reg → Word → Instr} {sh : Shape} (h : jumpForm am f m i d = .ok sh) :
    (am = .memdir ∧ sh = .two m) ∨
    (am = .regind ∧ ∃ b, f.r0 = b.code ∧ sh = .one (i b)) ∨
    (am = .regdisp ∧ ∃ b, f.r0 = b.code ∧ sh = .two (d b)) := by
  cases am with
  | imm => cases h
  | regdir => cases h
  | memdir =>
    cases h
    exact .inl ⟨rfl, rfl⟩
  | regind => exact .inr (.inl ⟨rfl, oneReg_ok h⟩)
  | regdisp =>
    obtain ⟨b, hb, h⟩ := decodeReg_bind h
    cases h
    exact .inr (.inr ⟨rfl, b, decodeReg_ok hb, rfl⟩)

/-- What a conditional jump decodes to, by mode. -/
theorem condForm_ok {am : Mode} {f : Fields} {m : Reg → Word → Instr} {i : Reg → Reg → Instr}
    {d : Reg → Reg → Word → Instr} {sh : Shape} (h : condForm am f m i d = .ok sh) :
    ∃ r, f.r1 = r.code ∧
      ((am = .memdir ∧ sh = .two (m r)) ∨
       (am = .regind ∧ ∃ b, f.r0 = b.code ∧ sh = .one (i r b)) ∨
       (am = .regdisp ∧ ∃ b, f.r0 = b.code ∧ sh = .two (d r b))) := by
  cases am with
  | imm => cases h
  | regdir => cases h
  | memdir =>
    obtain ⟨r, hr, h⟩ := decodeReg_bind h
    cases h
    exact ⟨r, decodeReg_ok hr, .inl ⟨rfl, rfl⟩⟩
  | regind =>
    obtain ⟨r, b, hr, hb, h⟩ := twoRegs_ok h
    exact ⟨r, hr, .inr (.inl ⟨rfl, b, hb, h⟩)⟩
  | regdisp =>
    obtain ⟨r, hr, h⟩ := decodeReg_bind h
    obtain ⟨b, hb, h⟩ := decodeReg_bind h
    cases h
    exact ⟨r, decodeReg_ok hr, .inr (.inr ⟨rfl, b, decodeReg_ok hb, rfl⟩)⟩

/-- What LOAD decodes to, by mode and data type. -/
theorem loadForm_ok {am : Mode} {f : Fields} {sh : Shape} (h : loadForm am f = .ok sh) :
    ∃ r t, f.r1 = r.code ∧ f.ty = t.code ∧
      ((am = .imm ∧ sh = .two (Instr.loadImmOf t r)) ∨
       (am = .memdir ∧ sh = .two (Instr.loadMemdirOf t r)) ∨
       ∃ b, f.r0 = b.code ∧
         ((am = .regdir ∧ sh = .one (Instr.loadRegdirOf t r b)) ∨
          (am = .regind ∧ sh = .one (Instr.loadRegindOf t r b)) ∨
          (am = .regdisp ∧ sh = .two (Instr.loadRegdispOf t r b)))) := by
  cases am with
  | imm =>
    obtain ⟨r, hr, h⟩ := decodeReg_bind h
    obtain ⟨t, ht, h⟩ := decodeType_bind h
    cases h
    exact ⟨r, t, decodeReg_ok hr, decodeType_ok ht, .inl ⟨rfl, rfl⟩⟩
  | memdir =>
    obtain ⟨r, hr, h⟩ := decodeReg_bind h
    obtain ⟨t, ht, h⟩ := decodeType_bind h
    cases h
    exact ⟨r, t, decodeReg_ok hr, decodeType_ok ht, .inr (.inl ⟨rfl, rfl⟩)⟩
  | regdir =>
    obtain ⟨r, hr, h⟩ := decodeReg_bind h
    obtain ⟨b, hb, h⟩ := decodeReg_bind h
    obtain ⟨t, ht, h⟩ := decodeType_bind h
    cases h
    exact ⟨r, t, decodeReg_ok hr, decodeType_ok ht,
      .inr (.inr ⟨b, decodeReg_ok hb, .inl ⟨rfl, rfl⟩⟩)⟩
  | regind =>
    obtain ⟨r, hr, h⟩ := decodeReg_bind h
    obtain ⟨b, hb, h⟩ := decodeReg_bind h
    obtain ⟨t, ht, h⟩ := decodeType_bind h
    cases h
    exact ⟨r, t, decodeReg_ok hr, decodeType_ok ht,
      .inr (.inr ⟨b, decodeReg_ok hb, .inr (.inl ⟨rfl, rfl⟩)⟩)⟩
  | regdisp =>
    obtain ⟨r, hr, h⟩ := decodeReg_bind h
    obtain ⟨b, hb, h⟩ := decodeReg_bind h
    obtain ⟨t, ht, h⟩ := decodeType_bind h
    cases h
    exact ⟨r, t, decodeReg_ok hr, decodeType_ok ht,
      .inr (.inr ⟨b, decodeReg_ok hb, .inr (.inr ⟨rfl, rfl⟩)⟩)⟩

/-- What STORE decodes to, by mode and data type. -/
theorem storeForm_ok {am : Mode} {f : Fields} {sh : Shape} (h : storeForm am f = .ok sh) :
    ∃ r t, f.r1 = r.code ∧ f.ty = t.code ∧
      ((am = .memdir ∧ sh = .two (Instr.storeMemdirOf t r)) ∨
       ∃ b, f.r0 = b.code ∧
         ((am = .regdir ∧ sh = .one (Instr.storeRegdirOf t r b)) ∨
          (am = .regind ∧ sh = .one (Instr.storeRegindOf t r b)) ∨
          (am = .regdisp ∧ sh = .two (Instr.storeRegdispOf t r b)))) := by
  cases am with
  | imm => cases h
  | memdir =>
    obtain ⟨r, hr, h⟩ := decodeReg_bind h
    obtain ⟨t, ht, h⟩ := decodeType_bind h
    cases h
    exact ⟨r, t, decodeReg_ok hr, decodeType_ok ht, .inl ⟨rfl, rfl⟩⟩
  | regdir =>
    obtain ⟨r, hr, h⟩ := decodeReg_bind h
    obtain ⟨b, hb, h⟩ := decodeReg_bind h
    obtain ⟨t, ht, h⟩ := decodeType_bind h
    cases h
    exact ⟨r, t, decodeReg_ok hr, decodeType_ok ht, .inr ⟨b, decodeReg_ok hb, .inl ⟨rfl, rfl⟩⟩⟩
  | regind =>
    obtain ⟨r, hr, h⟩ := decodeReg_bind h
    obtain ⟨b, hb, h⟩ := decodeReg_bind h
    obtain ⟨t, ht, h⟩ := decodeType_bind h
    cases h
    exact ⟨r, t, decodeReg_ok hr, decodeType_ok ht,
      .inr ⟨b, decodeReg_ok hb, .inr (.inl ⟨rfl, rfl⟩)⟩⟩
  | regdisp =>
    obtain ⟨r, hr, h⟩ := decodeReg_bind h
    obtain ⟨b, hb, h⟩ := decodeReg_bind h
    obtain ⟨t, ht, h⟩ := decodeType_bind h
    cases h
    exact ⟨r, t, decodeReg_ok hr, decodeType_ok ht,
      .inr ⟨b, decodeReg_ok hb, .inr (.inr ⟨rfl, rfl⟩)⟩⟩

/-- What the decoder gives is well formed. -/
theorem decodeForm_wellFormed {op : Opcode} {am : Mode} {f : Fields} {sh : Shape}
    (h : decodeForm op am f = .ok sh) : sh.WellFormed := by
  cases op
  case int =>
    obtain ⟨-, h⟩ := onlyRegdir_ok h
    cases h
    exact decide_eq_true f.r0.isLt
  case ret =>
    obtain ⟨-, h⟩ := onlyRegdir_ok h
    cases h
    rfl
  case jmp | call =>
    rcases jumpForm_ok h with ⟨-, rfl⟩ | ⟨-, b, -, rfl⟩ | ⟨-, b, -, rfl⟩ <;>
      first | rfl | exact fun _ => rfl
  case jz | jnz | jgz | jgez | jlz | jlez =>
    obtain ⟨r, -, ⟨-, rfl⟩ | ⟨-, b, -, rfl⟩ | ⟨-, b, -, rfl⟩⟩ := condForm_ok h <;>
      first | rfl | exact fun _ => rfl
  case load =>
    obtain ⟨r, t, -, -, ⟨-, rfl⟩ | ⟨-, rfl⟩ | ⟨b, -, ⟨-, rfl⟩ | ⟨-, rfl⟩ | ⟨-, rfl⟩⟩⟩ :=
      loadForm_ok h <;> cases t <;> first | rfl | exact fun _ => rfl
  case store =>
    obtain ⟨r, t, -, -, ⟨-, rfl⟩ | ⟨b, -, ⟨-, rfl⟩ | ⟨-, rfl⟩ | ⟨-, rfl⟩⟩⟩ :=
      storeForm_ok h <;> cases t <;> first | rfl | exact fun _ => rfl
  case push | pop =>
    obtain ⟨r, -, rfl⟩ := oneReg_ok (onlyRegdir_ok h).2
    rfl
  case not =>
    obtain ⟨d, a, -, -, rfl⟩ := twoRegs_ok (onlyRegdir_ok h).2
    rfl
  all_goals
    obtain ⟨d, a, b, -, -, -, rfl⟩ := threeRegs_ok (onlyRegdir_ok h).2
    rfl

/-- What the decoder gives for a first dword is well formed. -/
theorem decodeHead_wellFormed {w : Word} {sh : Shape} (h : decodeHead w = .ok sh) : sh.WellFormed := by
  unfold decodeHead at h
  simp only at h
  split at h
  · cases h
  · split at h
    · cases h
    · exact decodeForm_wellFormed h

end Sys2Proof
end

