-- ==== Sys2Proof/Laws/Memory.lean ====
section
/-!
SUPPORT. Storage: a read after a store, and the canonical form that every store keeps.
-/
namespace Sys2Proof.Machine

@[simp] theorem lookup_nil (a : Nat) : Memory.lookup [] a = none := rfl

@[simp] theorem lookup_cons (k : Nat) (b : Byte) (m : Memory) (a : Nat) :
    Memory.lookup ((k, b) :: m) a = if k = a then some b else Memory.lookup m a := rfl

/-- A lookup after a store finds the byte stored, and every other address as before. -/
theorem lookup_store (m : Memory) (a x : Nat) (b : Byte) :
    Memory.lookup (Memory.store m a b) x = if x = a then some b else Memory.lookup m x := by
  induction m with
  | nil => simp [Memory.store, eq_comm]
  | cons c m ih =>
    obtain ⟨k, d⟩ := c
    by_cases h1 : a < k
    · simp [Memory.store, h1, eq_comm]
    · by_cases h2 : a = k
      · subst h2
        by_cases hx : a = x <;> simp [Memory.store, hx, eq_comm]
      · by_cases hk : k = x
        · subst hk
          simp [Memory.store, h1, h2, Ne.symm h2]
        · simp [Memory.store, h1, h2, ih, hk]

/-- A byte of storage after a store. -/
theorem byteAt_store (m : Memory) (a x : Nat) (b : Byte) :
    (Memory.store m a b).byteAt x = if x = a then b else m.byteAt x := by
  unfold Memory.byteAt
  rw [lookup_store]
  split <;> rfl

/-- A cell after a store is the one stored or was there. -/
theorem mem_store {m : Memory} {a : Nat} {b : Byte} {c : Host.Cell}
    (h : c ∈ Memory.store m a b) : c = (a, b) ∨ c ∈ m := by
  induction m with
  | nil => simpa [Memory.store] using h
  | cons d m ih =>
    obtain ⟨k, e⟩ := d
    simp only [Memory.store] at h
    split at h
    · simpa using h
    · split at h
      · simp only [List.mem_cons] at h ⊢
        tauto
      · simp only [List.mem_cons] at h ⊢
        rcases h with h | h
        · exact .inr (.inl h)
        · rcases ih h with h | h
          · exact .inl h
          · exact .inr (.inr h)

/-- A store keeps the addresses rising. -/
theorem pairwise_store {m : Memory} (a : Nat) (b : Byte)
    (h : m.Pairwise (fun c d => c.1 < d.1)) :
    (Memory.store m a b).Pairwise (fun c d => c.1 < d.1) := by
  induction m with
  | nil => simp [Memory.store]
  | cons d m ih =>
    obtain ⟨k, e⟩ := d
    obtain ⟨hk, hm⟩ := List.pairwise_cons.mp h
    simp only [Memory.store]
    split
    · rename_i hak
      refine List.pairwise_cons.mpr ⟨fun c hc => ?_, h⟩
      rcases List.mem_cons.mp hc with rfl | hc
      · exact hak
      · exact Nat.lt_trans hak (hk c hc)
    · split
      · rename_i hak
        exact List.pairwise_cons.mpr ⟨fun c hc => hak ▸ hk c hc, hm⟩
      · refine List.pairwise_cons.mpr ⟨fun c hc => ?_, ih hm⟩
        rcases mem_store hc with rfl | hc
        · show k < a
          omega
        · exact hk c hc

/-- A store of a byte that is no device byte keeps the canonical form. -/
theorem wf_store {m : Memory} (a : Word) (b : Byte) (hd : isDevice a = false) (h : m.wf = true) :
    (m.store a.toNat b).wf = true := by
  simp only [Memory.wf, Bool.and_eq_true, decide_eq_true_eq, List.all_eq_true] at h ⊢
  refine ⟨pairwise_store _ _ h.1, fun c hc => ?_⟩
  rcases mem_store hc with rfl | hc
  · simpa [hd] using a.isLt
  · exact h.2 c hc

end Sys2Proof.Machine
end

