-- ==== Sys2Proof/Laws/State.lean ====
section
/-!
SUPPORT. One lemma for each field and each named update of the state, and the two laws of a register read
after a register write.
-/
namespace Sys2Proof.Machine

/-! ## advance -/

@[simp] theorem advance_regs (s : State) (n : Word) :
    (s.advance n).regs = s.regs := rfl

@[simp] theorem advance_sp (s : State) (n : Word) :
    (s.advance n).sp = s.sp := rfl

@[simp] theorem advance_pc (s : State) (n : Word) :
    (s.advance n).pc = s.pc + n := rfl

@[simp] theorem advance_mem (s : State) (n : Word) :
    (s.advance n).mem = s.mem := rfl

@[simp] theorem advance_halted (s : State) (n : Word) :
    (s.advance n).halted = s.halted := rfl

@[simp] theorem advance_inIntr (s : State) (n : Word) :
    (s.advance n).inIntr = s.inIntr := rfl

@[simp] theorem advance_intrSP (s : State) (n : Word) :
    (s.advance n).intrSP = s.intrSP := rfl

@[simp] theorem advance_timerPending (s : State) (n : Word) :
    (s.advance n).timerPending = s.timerPending := rfl

@[simp] theorem advance_keyData (s : State) (n : Word) :
    (s.advance n).keyData = s.keyData := rfl

@[simp] theorem advance_keyUnread (s : State) (n : Word) :
    (s.advance n).keyUnread = s.keyUnread := rfl

@[simp] theorem advance_out (s : State) (n : Word) :
    (s.advance n).out = s.out := rfl

@[simp] theorem advance_keyQueue (s : State) (n : Word) :
    (s.advance n).keyQueue = s.keyQueue := rfl

@[simp] theorem advance_host (s : State) (n : Word) :
    (s.advance n).host = s.host := rfl

@[simp] theorem advance_outReads (s : State) (n : Word) :
    (s.advance n).outReads = s.outReads := rfl

/-! ## setReg -/

@[simp] theorem setReg_mem (s : State) (r : Reg) (v : Word) :
    (s.setReg r v).mem = s.mem := by
  cases r <;> rfl

@[simp] theorem setReg_halted (s : State) (r : Reg) (v : Word) :
    (s.setReg r v).halted = s.halted := by
  cases r <;> rfl

@[simp] theorem setReg_inIntr (s : State) (r : Reg) (v : Word) :
    (s.setReg r v).inIntr = s.inIntr := by
  cases r <;> rfl

@[simp] theorem setReg_intrSP (s : State) (r : Reg) (v : Word) :
    (s.setReg r v).intrSP = s.intrSP := by
  cases r <;> rfl

@[simp] theorem setReg_timerPending (s : State) (r : Reg) (v : Word) :
    (s.setReg r v).timerPending = s.timerPending := by
  cases r <;> rfl

@[simp] theorem setReg_keyData (s : State) (r : Reg) (v : Word) :
    (s.setReg r v).keyData = s.keyData := by
  cases r <;> rfl

@[simp] theorem setReg_keyUnread (s : State) (r : Reg) (v : Word) :
    (s.setReg r v).keyUnread = s.keyUnread := by
  cases r <;> rfl

@[simp] theorem setReg_out (s : State) (r : Reg) (v : Word) :
    (s.setReg r v).out = s.out := by
  cases r <;> rfl

@[simp] theorem setReg_keyQueue (s : State) (r : Reg) (v : Word) :
    (s.setReg r v).keyQueue = s.keyQueue := by
  cases r <;> rfl

@[simp] theorem setReg_host (s : State) (r : Reg) (v : Word) :
    (s.setReg r v).host = s.host := by
  cases r <;> rfl

@[simp] theorem setReg_outReads (s : State) (r : Reg) (v : Word) :
    (s.setReg r v).outReads = s.outReads := by
  cases r <;> rfl

@[simp] theorem reg_sp (s : State) : s.reg .sp = s.sp := rfl

@[simp] theorem reg_pc (s : State) : s.reg .pc = s.pc := rfl

@[simp] theorem reg_gpr (s : State) (i : Fin 16) : s.reg (.gpr i) = s.regs[i] := rfl

/-- A register read after a register write (10_state.md R23). -/
theorem reg_setReg (s : State) (r x : Reg) (v : Word) :
    (s.setReg r v).reg x = if x = r then v else s.reg x := by
  cases r <;> cases x <;>
    simp [State.setReg, State.reg, Vector.getElem_set, Fin.ext_iff, eq_comm]

@[simp] theorem reg_setReg_self (s : State) (r : Reg) (v : Word) : (s.setReg r v).reg r = v := by
  simp [reg_setReg]

theorem reg_setReg_other (s : State) {r x : Reg} (h : x ≠ r) (v : Word) :
    (s.setReg r v).reg x = s.reg x := by
  simp [reg_setReg, h]

/-- The registers as the instruction sees them: only PC moves. -/
theorem reg_advance (s : State) (n : Word) (r : Reg) :
    (s.advance n).reg r = if r = .pc then s.pc + n else s.reg r := by
  cases r <;> simp

/-- A state with the same three register fields reads the same registers. -/
theorem reg_congr {s t : State} (hr : t.regs = s.regs) (hs : t.sp = s.sp) (hp : t.pc = s.pc)
    (r : Reg) : t.reg r = s.reg r := by
  cases r <;> simp [hr, hs, hp]

/-! ## readByte -/

@[simp] theorem readByte_regs (s : State) (a : Word) :
    ((s.readByte a).2).regs = s.regs := rfl

@[simp] theorem readByte_sp (s : State) (a : Word) :
    ((s.readByte a).2).sp = s.sp := rfl

@[simp] theorem readByte_pc (s : State) (a : Word) :
    ((s.readByte a).2).pc = s.pc := rfl

@[simp] theorem readByte_mem (s : State) (a : Word) :
    ((s.readByte a).2).mem = s.mem := rfl

@[simp] theorem readByte_halted (s : State) (a : Word) :
    ((s.readByte a).2).halted = s.halted := rfl

@[simp] theorem readByte_inIntr (s : State) (a : Word) :
    ((s.readByte a).2).inIntr = s.inIntr := rfl

@[simp] theorem readByte_intrSP (s : State) (a : Word) :
    ((s.readByte a).2).intrSP = s.intrSP := rfl

@[simp] theorem readByte_timerPending (s : State) (a : Word) :
    ((s.readByte a).2).timerPending = s.timerPending := rfl

@[simp] theorem readByte_keyData (s : State) (a : Word) :
    ((s.readByte a).2).keyData = s.keyData := rfl

@[simp] theorem readByte_keyUnread (s : State) (a : Word) :
    ((s.readByte a).2).keyUnread = if a = Config.inputRegister then false else s.keyUnread := rfl

@[simp] theorem readByte_out (s : State) (a : Word) :
    ((s.readByte a).2).out = s.out := rfl

@[simp] theorem readByte_keyQueue (s : State) (a : Word) :
    ((s.readByte a).2).keyQueue = s.keyQueue := rfl

@[simp] theorem readByte_host (s : State) (a : Word) :
    ((s.readByte a).2).host = s.host := rfl

@[simp] theorem readByte_outReads (s : State) (a : Word) :
    ((s.readByte a).2).outReads = if a = Config.outputRegister then s.outReads + 1 else s.outReads := rfl

/-! ## writeByte -/

@[simp] theorem writeByte_regs (s : State) (a : Word) (b : Byte) :
    (s.writeByte a b).regs = s.regs := rfl

@[simp] theorem writeByte_sp (s : State) (a : Word) (b : Byte) :
    (s.writeByte a b).sp = s.sp := rfl

@[simp] theorem writeByte_pc (s : State) (a : Word) (b : Byte) :
    (s.writeByte a b).pc = s.pc := rfl

@[simp] theorem writeByte_mem (s : State) (a : Word) (b : Byte) :
    (s.writeByte a b).mem = if isDevice a then s.mem else s.mem.store a.toNat b := rfl

@[simp] theorem writeByte_halted (s : State) (a : Word) (b : Byte) :
    (s.writeByte a b).halted = s.halted := rfl

@[simp] theorem writeByte_inIntr (s : State) (a : Word) (b : Byte) :
    (s.writeByte a b).inIntr = s.inIntr := rfl

@[simp] theorem writeByte_intrSP (s : State) (a : Word) (b : Byte) :
    (s.writeByte a b).intrSP = s.intrSP := rfl

@[simp] theorem writeByte_timerPending (s : State) (a : Word) (b : Byte) :
    (s.writeByte a b).timerPending = s.timerPending := rfl

@[simp] theorem writeByte_keyData (s : State) (a : Word) (b : Byte) :
    (s.writeByte a b).keyData = s.keyData := rfl

@[simp] theorem writeByte_keyUnread (s : State) (a : Word) (b : Byte) :
    (s.writeByte a b).keyUnread = s.keyUnread := rfl

@[simp] theorem writeByte_out (s : State) (a : Word) (b : Byte) :
    (s.writeByte a b).out = if a = Config.outputRegister then s.out ++ [b] else s.out := rfl

@[simp] theorem writeByte_keyQueue (s : State) (a : Word) (b : Byte) :
    (s.writeByte a b).keyQueue = s.keyQueue := rfl

@[simp] theorem writeByte_host (s : State) (a : Word) (b : Byte) :
    (s.writeByte a b).host = s.host := rfl

@[simp] theorem writeByte_outReads (s : State) (a : Word) (b : Byte) :
    (s.writeByte a b).outReads = s.outReads := rfl

/-! ## endRoutine -/

@[simp] theorem endRoutine_regs (s : State) :
    (s.endRoutine).regs = s.regs := rfl

@[simp] theorem endRoutine_sp (s : State) :
    (s.endRoutine).sp = s.sp := rfl

@[simp] theorem endRoutine_pc (s : State) :
    (s.endRoutine).pc = s.pc := rfl

@[simp] theorem endRoutine_mem (s : State) :
    (s.endRoutine).mem = s.mem := rfl

@[simp] theorem endRoutine_halted (s : State) :
    (s.endRoutine).halted = s.halted := rfl

@[simp] theorem endRoutine_inIntr (s : State) :
    (s.endRoutine).inIntr = (s.inIntr && s.sp != s.intrSP) := rfl

@[simp] theorem endRoutine_intrSP (s : State) :
    (s.endRoutine).intrSP = s.intrSP := rfl

@[simp] theorem endRoutine_timerPending (s : State) :
    (s.endRoutine).timerPending = s.timerPending := rfl

@[simp] theorem endRoutine_keyData (s : State) :
    (s.endRoutine).keyData = s.keyData := rfl

@[simp] theorem endRoutine_keyUnread (s : State) :
    (s.endRoutine).keyUnread = s.keyUnread := rfl

@[simp] theorem endRoutine_out (s : State) :
    (s.endRoutine).out = s.out := rfl

@[simp] theorem endRoutine_keyQueue (s : State) :
    (s.endRoutine).keyQueue = s.keyQueue := rfl

@[simp] theorem endRoutine_host (s : State) :
    (s.endRoutine).host = s.host := rfl

@[simp] theorem endRoutine_outReads (s : State) :
    (s.endRoutine).outReads = s.outReads := rfl

/-! ## hearHost -/

@[simp] theorem hearHost_regs (s : State) :
    (s.hearHost).regs = s.regs := rfl

@[simp] theorem hearHost_sp (s : State) :
    (s.hearHost).sp = s.sp := rfl

@[simp] theorem hearHost_pc (s : State) :
    (s.hearHost).pc = s.pc := rfl

@[simp] theorem hearHost_mem (s : State) :
    (s.hearHost).mem = s.mem := rfl

@[simp] theorem hearHost_halted (s : State) :
    (s.hearHost).halted = s.halted := rfl

@[simp] theorem hearHost_inIntr (s : State) :
    (s.hearHost).inIntr = s.inIntr := rfl

@[simp] theorem hearHost_intrSP (s : State) :
    (s.hearHost).intrSP = s.intrSP := rfl

@[simp] theorem hearHost_timerPending (s : State) :
    (s.hearHost).timerPending = (s.timerPending || s.turn.tick) := rfl

@[simp] theorem hearHost_keyData (s : State) :
    (s.hearHost).keyData = s.keyData := rfl

@[simp] theorem hearHost_keyUnread (s : State) :
    (s.hearHost).keyUnread = s.keyUnread := rfl

@[simp] theorem hearHost_out (s : State) :
    (s.hearHost).out = s.out := rfl

@[simp] theorem hearHost_keyQueue (s : State) :
    (s.hearHost).keyQueue = s.keyQueue ++ s.turn.keys := rfl

@[simp] theorem hearHost_host (s : State) :
    (s.hearHost).host = s.host.tail := rfl

@[simp] theorem hearHost_outReads (s : State) :
    (s.hearHost).outReads = s.outReads := rfl

end Sys2Proof.Machine
end

