-- ==== Sys2Proof/Laws/Ops.lean ====
section
/-!
SUPPORT. What each shared operation does, said once: memory accesses byte by byte, the stack, interrupt
entry, Error, fetching and the boundary.
-/
namespace Sys2Proof.Machine

/-! ## Spans of addresses -/

/-- A span of one byte more is its first byte or the rest. -/
theorem inSpan_succ (a x : Word) (k : Nat) :
    inSpan a (k + 1) x = (x == a || inSpan (a + 1) k x) := by
  unfold inSpan
  rw [Bool.eq_iff_iff, Bool.or_eq_true, decide_eq_true_iff, decide_eq_true_iff, beq_iff_eq]
  constructor
  · intro h
    by_cases hx : x = a
    · exact .inl hx
    · right
      bv_omega
  · rintro (h | h)
    · subst h
      simp
    · bv_omega

/-- A span that does not wrap onto itself does not meet its first byte again. -/
theorem inSpan_next_self {k : Nat} (hk : k < 2 ^ 32) (a : Word) : inSpan (a + 1) k a = false := by
  unfold inSpan
  rw [decide_eq_false_iff_not]
  bv_omega

/-- The offset of a byte in a span counts down with the span. -/
theorem offset_next {a x : Word} (h : x ≠ a) : (x - a).toNat = (x - (a + 1)).toNat + 1 := by
  bv_omega

/-- What the fetch refuses is a span that meets a device byte. -/
theorem coversDevice_eq (a : Word) (n : Nat) :
    coversDevice a n = (inSpan a n 32 || inSpan a n 36) := by
  induction n generalizing a with
  | zero => simp [coversDevice, inSpan]
  | succ k ih =>
    rw [inSpan_succ, inSpan_succ, coversDevice, ih, isDevice, Config.outputRegister,
      Config.inputRegister, Bool.beq_comm (a := a), Bool.beq_comm (a := a)]
    cases (32 : Word) == a <;> cases (36 : Word) == a <;> simp

/-! ## MemRead -/

theorem beq_device_input (a : Word) : ((36 : Word) == a) = decide (a = Config.inputRegister) := by
  rw [Bool.eq_iff_iff, beq_iff_eq, decide_eq_true_iff]
  exact eq_comm

theorem beq_device_output (a : Word) : ((32 : Word) == a) = decide (a = Config.outputRegister) := by
  rw [Bool.eq_iff_iff, beq_iff_eq, decide_eq_true_iff]
  exact eq_comm

/-- The state after a MemRead: only keyUnread and the count of output-register reads can differ
(20_memory.md R42, R48). -/
theorem memRead_state (s : State) (a : Word) {n : Nat} (hn : n ≤ 2 ^ 32) :
    (s.memRead a n).2 =
      { s with
        keyUnread := if inSpan a n 36 then false else s.keyUnread
        outReads := if inSpan a n 32 then s.outReads + 1 else s.outReads } := by
  induction n generalizing s a with
  | zero => rfl
  | succ k ih =>
    have hk : k < 2 ^ 32 := hn
    have hself := inSpan_next_self hk a
    rw [State.memRead, ih _ _ (Nat.le_of_lt hk), inSpan_succ, inSpan_succ, beq_device_input,
      beq_device_output, readByte_keyUnread, readByte_outReads]
    have h32 : a = Config.outputRegister → inSpan (a + 1) k 32 = false := fun h => h ▸ hself
    have ku : (if inSpan (a + 1) k 36 then false
          else if a = Config.inputRegister then false else s.keyUnread) =
        if (decide (a = Config.inputRegister) || inSpan (a + 1) k 36) then false
          else s.keyUnread := by
      by_cases h : a = Config.inputRegister <;> cases inSpan (a + 1) k 36 <;> simp [h]
    have oc : (if inSpan (a + 1) k 32 then
            (if a = Config.outputRegister then s.outReads + 1 else s.outReads) + 1
          else if a = Config.outputRegister then s.outReads + 1 else s.outReads) =
        if (decide (a = Config.outputRegister) || inSpan (a + 1) k 32) then s.outReads + 1
          else s.outReads := by
      by_cases h : a = Config.outputRegister
      · rw [h32 h, decide_eq_true h, if_pos h, Bool.true_or, if_neg Bool.false_ne_true, if_pos rfl]
      · simp only [h, decide_false, Bool.false_or, if_false]
    rw [ku, oc]
    rfl

/-- The little-endian value of the n bytes that reads from an address on give. -/
def leValue (s : State) (a : Word) : Nat → Word
  | 0 => 0
  | k + 1 => (leValue s (a + 1) k <<< 8) ||| (s.seenByte a).setWidth 32

/-- Two states that show the same bytes in a span have the same value there. -/
theorem leValue_congr {s t : State} {a : Word} {n : Nat}
    (h : ∀ x, inSpan a n x = true → s.seenByte x = t.seenByte x) : leValue s a n = leValue t a n := by
  induction n generalizing a with
  | zero => rfl
  | succ k ih =>
    rw [leValue, leValue, ih fun x hx => h x (by rw [inSpan_succ, hx, Bool.or_true]),
      h a (by rw [inSpan_succ, beq_self_eq_true, Bool.true_or])]

theorem readByte_fst (s : State) (a : Word) : (s.readByte a).1 = s.seenByte a := rfl

/-- A byte other than the one just read is still the byte this access sees. -/
theorem seenByte_readByte (s : State) {a x : Word} (h : x ≠ a) :
    (s.readByte a).2.seenByte x = s.seenByte x := by
  unfold State.seenByte
  by_cases hx : x = 32
  · have ha : ¬ a = Config.outputRegister := fun e => h (hx.trans e.symm)
    rw [readByte_outReads, if_neg ha]
    rfl
  · rw [if_neg hx, if_neg hx]
    rfl

/-- The value of a MemRead is the little-endian value of the bytes its span shows before it (R42). -/
theorem memRead_value (s : State) (a : Word) {n : Nat} (hn : n ≤ 2 ^ 32) :
    (s.memRead a n).1 = leValue s a n := by
  induction n generalizing s a with
  | zero => rfl
  | succ k ih =>
    have hk : k < 2 ^ 32 := hn
    have hne : ∀ x, inSpan (a + 1) k x = true → x ≠ a := by
      rintro x hx rfl
      rw [inSpan_next_self hk] at hx
      exact Bool.false_ne_true hx
    rw [State.memRead, leValue, ih _ _ (Nat.le_of_lt hk), readByte_fst,
      leValue_congr fun x hx => seenByte_readByte s (hne x hx)]

theorem leValue_one (s : State) (a : Word) : leValue s a 1 = (s.seenByte a).setWidth 32 := by
  simp [leValue]

theorem leValue_two (s : State) (a : Word) :
    leValue s a 2 = (s.seenByte (a + 1) ++ s.seenByte a).setWidth 32 := by
  simp only [leValue]
  apply BitVec.eq_of_getLsbD_eq
  intro i hi
  simp only [BitVec.getLsbD_or, BitVec.getLsbD_shiftLeft, BitVec.getLsbD_setWidth,
    BitVec.getLsbD_append]
  by_cases h : i < 8
  · simp [h, hi]
  · have h1 : i - 8 < 32 := by omega
    simp [h, hi, h1, BitVec.getLsbD_of_ge (s.seenByte a) i (by omega)]

theorem leValue_four (s : State) (a : Word) : leValue s a 4 = s.seenDword a := by
  simp only [leValue, State.seenDword]
  have e2 : a + 1 + 1 = a + 2 := by bv_omega
  have e3 : a + 1 + 1 + 1 = a + 3 := by bv_omega
  rw [e3, e2]
  generalize s.seenByte a = b0
  generalize s.seenByte (a + 1) = b1
  generalize s.seenByte (a + 2) = b2
  generalize s.seenByte (a + 3) = b3
  apply BitVec.eq_of_getLsbD_eq
  intro i hi
  simp only [BitVec.getLsbD_or, BitVec.getLsbD_shiftLeft, BitVec.getLsbD_setWidth,
    BitVec.getLsbD_append]
  have h4 : i - 8 < 32 := by omega
  have h5 : i - 8 - 8 < 32 := by omega
  have h6 : i - 8 - 8 - 8 < 32 := by omega
  rcases Nat.lt_or_ge i 8 with h | h
  · simp [h, hi]
  · have h1 : ¬ i < 8 := by omega
    have g0 := BitVec.getLsbD_of_ge b0 i h
    rcases Nat.lt_or_ge i 16 with h' | h'
    · have h2 : i - 8 < 8 := by omega
      simp [h1, h2, h4, hi, g0]
    · have h2 : ¬ i - 8 < 8 := by omega
      have g1 := BitVec.getLsbD_of_ge b1 (i - 8) (by omega)
      rcases Nat.lt_or_ge i 24 with h'' | h''
      · have h3 : i - 8 - 8 < 8 := by omega
        simp [h1, h2, h3, h4, h5, hi, g0, g1]
      · have h3 : ¬ i - 8 - 8 < 8 := by omega
        have g2 := BitVec.getLsbD_of_ge b2 (i - 8 - 8) (by omega)
        simp [h1, h2, h3, h4, h5, h6, hi, g0, g1, g2]

/-- Where no device byte is covered a MemRead changes nothing. -/
theorem memRead_state_plain (s : State) {a : Word} {n : Nat} (hn : n ≤ 2 ^ 32)
    (h32 : inSpan a n 32 = false) (h36 : inSpan a n 36 = false) : (s.memRead a n).2 = s := by
  rw [memRead_state s a hn, h32, h36]
  rfl

/-- Away from the device bytes reads give storage. -/
theorem seenByte_plain (s : State) {a : Word} (h32 : a ≠ 32) (h36 : a ≠ 36) :
    s.seenByte a = s.byteAt a := by
  rw [State.seenByte, if_neg h36, if_neg h32]

theorem seenDword_plain (s : State) {a : Word} (h32 : inSpan a 4 32 = false)
    (h36 : inSpan a 4 36 = false) : s.seenDword a = s.storedDword a := by
  unfold inSpan at h32 h36
  rw [decide_eq_false_iff_not] at h32 h36
  unfold State.seenDword State.storedDword
  rw [seenByte_plain s, seenByte_plain s, seenByte_plain s, seenByte_plain s] <;> bv_omega

@[simp] theorem memRead_regs (s : State) (a : Word) (n : Nat) : (s.memRead a n).2.regs = s.regs := by
  induction n generalizing s a with
  | zero => rfl
  | succ k ih => exact ih _ _

@[simp] theorem memRead_sp (s : State) (a : Word) (n : Nat) : (s.memRead a n).2.sp = s.sp := by
  induction n generalizing s a with
  | zero => rfl
  | succ k ih => exact ih _ _

@[simp] theorem memRead_pc (s : State) (a : Word) (n : Nat) : (s.memRead a n).2.pc = s.pc := by
  induction n generalizing s a with
  | zero => rfl
  | succ k ih => exact ih _ _

@[simp] theorem memRead_halted (s : State) (a : Word) (n : Nat) : (s.memRead a n).2.halted = s.halted := by
  induction n generalizing s a with
  | zero => rfl
  | succ k ih => exact ih _ _

@[simp] theorem memRead_inIntr (s : State) (a : Word) (n : Nat) : (s.memRead a n).2.inIntr = s.inIntr := by
  induction n generalizing s a with
  | zero => rfl
  | succ k ih => exact ih _ _

@[simp] theorem memRead_intrSP (s : State) (a : Word) (n : Nat) : (s.memRead a n).2.intrSP = s.intrSP := by
  induction n generalizing s a with
  | zero => rfl
  | succ k ih => exact ih _ _

@[simp] theorem memRead_timerPending (s : State) (a : Word) (n : Nat) : (s.memRead a n).2.timerPending = s.timerPending := by
  induction n generalizing s a with
  | zero => rfl
  | succ k ih => exact ih _ _

@[simp] theorem memRead_keyData (s : State) (a : Word) (n : Nat) : (s.memRead a n).2.keyData = s.keyData := by
  induction n generalizing s a with
  | zero => rfl
  | succ k ih => exact ih _ _

@[simp] theorem memRead_out (s : State) (a : Word) (n : Nat) : (s.memRead a n).2.out = s.out := by
  induction n generalizing s a with
  | zero => rfl
  | succ k ih => exact ih _ _

@[simp] theorem memRead_keyQueue (s : State) (a : Word) (n : Nat) : (s.memRead a n).2.keyQueue = s.keyQueue := by
  induction n generalizing s a with
  | zero => rfl
  | succ k ih => exact ih _ _

@[simp] theorem memRead_host (s : State) (a : Word) (n : Nat) : (s.memRead a n).2.host = s.host := by
  induction n generalizing s a with
  | zero => rfl
  | succ k ih => exact ih _ _

/-- A MemRead leaves storage as it is. -/
@[simp] theorem memRead_mem (s : State) (a : Word) (n : Nat) : (s.memRead a n).2.mem = s.mem := by
  induction n generalizing s a with
  | zero => rfl
  | succ k ih => exact ih _ _

/-! ## MemWrite -/

/-- A MemWrite leaves every field but the output and the storage. -/
theorem memWrite_state (s : State) (a v : Word) (n : Nat) :
    s.memWrite a n v =
      { s with out := (s.memWrite a n v).out, mem := (s.memWrite a n v).mem } := by
  induction n generalizing s a v with
  | zero => rfl
  | succ k ih =>
    rw [State.memWrite, ih]
    rfl

@[simp] theorem memWrite_regs (s : State) (a v : Word) (n : Nat) :
    (s.memWrite a n v).regs = s.regs := by
  rw [memWrite_state]

@[simp] theorem memWrite_sp (s : State) (a v : Word) (n : Nat) :
    (s.memWrite a n v).sp = s.sp := by
  rw [memWrite_state]

@[simp] theorem memWrite_pc (s : State) (a v : Word) (n : Nat) :
    (s.memWrite a n v).pc = s.pc := by
  rw [memWrite_state]

@[simp] theorem memWrite_halted (s : State) (a v : Word) (n : Nat) :
    (s.memWrite a n v).halted = s.halted := by
  rw [memWrite_state]

@[simp] theorem memWrite_inIntr (s : State) (a v : Word) (n : Nat) :
    (s.memWrite a n v).inIntr = s.inIntr := by
  rw [memWrite_state]

@[simp] theorem memWrite_intrSP (s : State) (a v : Word) (n : Nat) :
    (s.memWrite a n v).intrSP = s.intrSP := by
  rw [memWrite_state]

@[simp] theorem memWrite_timerPending (s : State) (a v : Word) (n : Nat) :
    (s.memWrite a n v).timerPending = s.timerPending := by
  rw [memWrite_state]

@[simp] theorem memWrite_keyData (s : State) (a v : Word) (n : Nat) :
    (s.memWrite a n v).keyData = s.keyData := by
  rw [memWrite_state]

@[simp] theorem memWrite_keyUnread (s : State) (a v : Word) (n : Nat) :
    (s.memWrite a n v).keyUnread = s.keyUnread := by
  rw [memWrite_state]

@[simp] theorem memWrite_keyQueue (s : State) (a v : Word) (n : Nat) :
    (s.memWrite a n v).keyQueue = s.keyQueue := by
  rw [memWrite_state]

@[simp] theorem memWrite_host (s : State) (a v : Word) (n : Nat) :
    (s.memWrite a n v).host = s.host := by
  rw [memWrite_state]

@[simp] theorem memWrite_outReads (s : State) (a v : Word) (n : Nat) :
    (s.memWrite a n v).outReads = s.outReads := by
  rw [memWrite_state]

@[simp] theorem memWrite_reg (s : State) (a v : Word) (n : Nat) (r : Reg) :
    (s.memWrite a n v).reg r = s.reg r := by
  rw [memWrite_state]
  cases r <;> rfl

theorem isDevice_iff (a : Word) : isDevice a = true ↔ a = 32 ∨ a = 36 := by
  rw [isDevice, Bool.or_eq_true, beq_iff_eq, beq_iff_eq]
  rfl

/-- Storage after a WriteByte. -/
theorem byteAt_writeByte (s : State) (a x : Word) (b : Byte) :
    (s.writeByte a b).byteAt x = if x = a ∧ x ≠ 32 ∧ x ≠ 36 then b else s.byteAt x := by
  rw [State.byteAt, writeByte_mem]
  by_cases h : isDevice a = true
  · have hn : ¬ (x = a ∧ x ≠ 32 ∧ x ≠ 36) := by
      rintro ⟨rfl, h1, h2⟩
      exact ((isDevice_iff x).mp h).elim h1 h2
    rw [if_pos h, if_neg hn]
    rfl
  · rw [if_neg h, byteAt_store]
    rw [isDevice_iff, not_or] at h
    by_cases hx : x = a
    · subst hx
      rw [if_pos rfl, if_pos ⟨rfl, h⟩]
    · have h1 : ¬ x.toNat = a.toNat := fun e => hx (BitVec.eq_of_toNat_eq e)
      rw [if_neg h1, if_neg fun h2 => hx h2.1]
      rfl

/-- The byte of a value that lies one further up is that of the value shifted down. -/
theorem extract_shift (v : Word) (k : Nat) :
    (v >>> 8).extractLsb' (8 * k) 8 = v.extractLsb' (8 * (k + 1)) 8 := by
  apply BitVec.eq_of_getLsbD_eq
  intro i hi
  simp only [BitVec.getLsbD_extractLsb', hi, decide_true, Bool.true_and, BitVec.getLsbD_ushiftRight]
  congr 1
  omega

theorem extract_low (v : Word) : v.extractLsb' 0 8 = v.setWidth 8 := by
  apply BitVec.eq_of_getLsbD_eq
  intro i hi
  simp [hi]

/-- Storage and output after a MemWrite (20_memory.md R43). -/
theorem memWrite_stored (s : State) (a v : Word) {n : Nat} (hn : n ≤ 2 ^ 32) :
    StoredAt s (s.memWrite a n v) a n v := by
  induction n generalizing s a v with
  | zero => exact ⟨fun _ => rfl, (List.append_nil _).symm⟩
  | succ k ih =>
    have hk : k < 2 ^ 32 := hn
    obtain ⟨hb, ho⟩ := ih (s.writeByte a (v.setWidth 8)) (a + 1) (v >>> 8) (Nat.le_of_lt hk)
    rw [State.memWrite]
    constructor
    · intro x
      rw [hb x, byteAt_writeByte, inSpan_succ]
      by_cases hx : x = a
      · subst hx
        rw [inSpan_next_self hk, beq_self_eq_true, Bool.true_or, if_neg (by simp), sub_self]
        by_cases hd : x ≠ 32 ∧ x ≠ 36
        · rw [if_pos ⟨rfl, hd⟩, if_pos ⟨rfl, hd⟩]
          exact (extract_low v).symm
        · rw [if_neg fun h => hd h.2, if_neg fun h => hd h.2]
      · rw [beq_false_of_ne hx, Bool.false_or, if_neg fun h : x = a ∧ _ => hx h.1]
        split
        · rw [extract_shift, offset_next hx]
        · rfl
    · rw [ho, writeByte_out, inSpan_succ, beq_device_output]
      by_cases ha : a = Config.outputRegister
      · have hself : inSpan (a + 1) k 32 = false := ha ▸ inSpan_next_self hk a
        rw [if_pos ha, hself, decide_eq_true ha]
        simp only [Bool.false_eq_true, if_false, Bool.or_false, if_true, List.append_nil]
        have h0 : ((32 : Word) - a).toNat = 0 := by
          subst ha
          rfl
        rw [h0]
        exact congrArg (fun b => s.out ++ [b]) (extract_low v).symm
      · rw [if_neg ha, decide_eq_false ha, Bool.false_or]
        have h1 : (32 : Word) ≠ a := fun e => ha e.symm
        rw [extract_shift, offset_next h1]

/-- What a MemWrite leaves in storage and output depends on those two alone. -/
theorem memWrite_congr {s t : State} (hm : t.mem = s.mem) (ho : t.out = s.out) (a v : Word) (n : Nat) :
    (t.memWrite a n v).mem = (s.memWrite a n v).mem ∧
      (t.memWrite a n v).out = (s.memWrite a n v).out := by
  induction n generalizing s t a v with
  | zero => exact ⟨hm, ho⟩
  | succ k ih =>
    refine ih ?_ ?_ _ _
    · rw [writeByte_mem, writeByte_mem, hm]
    · rw [writeByte_out, writeByte_out, ho]

/-- The dword stored at an address clear of the device bytes is the dword that lies there. -/
theorem storedDword_of_stored {s t : State} {a v : Word} (h : StoredAt s t a 4 v)
    (h32 : inSpan a 4 32 = false) (h36 : inSpan a 4 36 = false) : t.storedDword a = v := by
  have key : ∀ k, k < 4 → t.byteAt (a + BitVec.ofNat 32 k) = v.extractLsb' (8 * k) 8 := by
    intro k hk
    have e : (a + BitVec.ofNat 32 k - a).toNat = k := by bv_omega
    unfold inSpan at h32 h36
    rw [decide_eq_false_iff_not] at h32 h36
    rw [h.1, e, if_pos]
    refine ⟨by unfold inSpan; rw [e]; simpa using hk, fun h => h32 ?_, fun h => h36 ?_⟩ <;>
      rw [← h, e] <;> exact hk
  have k0 : t.byteAt a = v.extractLsb' (8 * 0) 8 := by
    rw [← key 0 (by decide)]
    congr 1
    exact (BitVec.add_zero a).symm
  unfold State.storedDword
  rw [k0, show t.byteAt (a + 1) = _ from key 1 (by decide),
    show t.byteAt (a + 2) = _ from key 2 (by decide), show t.byteAt (a + 3) = _ from key 3 (by decide)]
  apply BitVec.eq_of_getLsbD_eq
  intro i hi
  simp only [BitVec.getLsbD_append, BitVec.getLsbD_extractLsb']
  interval_cases i <;> simp

/-- A store leaves the dwords that lie clear of it. -/
theorem storedDword_of_apart {s t : State} {a b v : Word} {n : Nat} (h : StoredAt s t a n v)
    (h0 : inSpan a n b = false) (h1 : inSpan a n (b + 1) = false) (h2 : inSpan a n (b + 2) = false)
    (h3 : inSpan a n (b + 3) = false) : t.storedDword b = s.storedDword b := by
  have k : ∀ x, inSpan a n x = false → t.byteAt x = s.byteAt x := by
    intro x hx
    rw [h.1, if_neg]
    rintro ⟨hx', _⟩
    rw [hx] at hx'
    exact Bool.false_ne_true hx'
  unfold State.storedDword
  rw [k _ h0, k _ h1, k _ h2, k _ h3]

/-! ## The canonical form of memory -/

/-- A WriteByte keeps the canonical form. -/
theorem wf_writeByte {s : State} (a : Word) (b : Byte) (h : s.mem.wf = true) :
    (s.writeByte a b).mem.wf = true := by
  rw [writeByte_mem]
  split
  · exact h
  · exact wf_store a b (by simpa using ‹¬ isDevice a = true›) h

/-- A MemWrite keeps the canonical form. -/
theorem wf_memWrite {s : State} (a v : Word) (n : Nat) (h : s.mem.wf = true) :
    (s.memWrite a n v).mem.wf = true := by
  induction n generalizing s a v with
  | zero => exact h
  | succ k ih => exact ih _ _ (wf_writeByte _ _ h)

/-- A push keeps the canonical form. -/
theorem wf_pushWord {s : State} (v : Word) (h : s.mem.wf = true) : (s.pushWord v).mem.wf = true :=
  wf_memWrite (s := { s with sp := s.sp + 4 }) _ _ _ h

/-- A pop keeps the canonical form. -/
theorem wf_popWord {s : State} (h : s.mem.wf = true) : s.popWord.2.mem.wf = true := by
  show (s.memRead s.sp 4).2.mem.wf = true
  rw [memRead_mem]
  exact h

/-- An interrupt entry keeps the canonical form. -/
theorem wf_interrupt {s : State} (n : Nat) (ret : Word) (h : s.mem.wf = true) :
    (s.interrupt n ret).mem.wf = true := by
  unfold State.interrupt
  rw [memRead_mem]
  exact wf_pushWord ret h

/-- The load of two dwords keeps the canonical form. -/
theorem wf_placeWords {s : State} (w0 w1 : Word) (h : s.mem.wf = true) :
    (s.placeWords w0 w1).mem.wf = true :=
  wf_memWrite _ _ _ (wf_memWrite _ _ _ h)

/-- The memory after reset is in canonical form. -/
theorem wf_reset : State.reset.mem.wf = true := by decide

/-- Bytes that the assembler places keep the canonical form. -/
theorem wf_placeBytes {m : Memory} (a : Word) (bs : List (Option Byte)) (h : m.wf = true) :
    (Assembler.placeBytes m a bs).wf = true := by
  induction bs generalizing m a with
  | nil => exact h
  | cons b bs ih =>
    cases b with
    | none => exact ih _ h
    | some b =>
      refine ih _ ?_
      split
      · exact h
      · exact wf_store a b (by simpa using ‹¬ isDevice a = true›) h

/-- Emitting statements keeps the canonical form. -/
theorem wf_emit {m m' : Memory} {t : Assembler.Symbols} {ps : List Assembler.Placed} (h : m.wf = true)
    (he : Assembler.emit m t ps = .ok m') : m'.wf = true := by
  induction ps generalizing m with
  | nil => cases he; exact h
  | cons p ps ih =>
    unfold Assembler.emit at he
    cases hs : p.start with
    | error d => rw [hs] at he; cases he
    | ok start =>
      cases hb : p.stmt.bytes t start with
      | error d => rw [hs] at he; simp only [bind, Except.bind, hb] at he; cases he
      | ok bs =>
        rw [hs] at he
        simp only [bind, Except.bind, hb] at he
        exact ih (wf_placeBytes _ _ h) he

/-- An assembled image is in canonical form. -/
theorem wf_assemble {place : Assembler.Section → Int} {sts : List Assembler.Stmt} {m : Memory}
    (h : Assembler.assemble place sts = .ok m) : m.wf = true := by
  unfold Assembler.assemble at h
  dsimp only at h
  split at h
  · cases h
  · exact wf_emit rfl h

/-! ## The stack -/

/-- A push moves SP, writes storage and output, and leaves every other field. -/
theorem pushWord_eq (s : State) (v : Word) :
    s.pushWord v =
      { s with
        sp := s.sp + 4
        mem := (s.memWrite (s.sp + 4) 4 v).mem
        out := (s.memWrite (s.sp + 4) 4 v).out } := by
  obtain ⟨hm, ho⟩ :=
    memWrite_congr (s := s) (t := { s with sp := s.sp + 4 }) rfl rfl (s.sp + 4) v 4
  show State.memWrite { s with sp := s.sp + 4 } (s.sp + 4) 4 v = _
  rw [memWrite_state, hm, ho]

/-- A pop reads the dword at SP, moves SP, and leaves every field but what reading the device bytes
changes. -/
theorem popWord_eq (s : State) :
    s.popWord =
      (s.seenDword s.sp,
       { s with
         sp := s.sp - 4
         keyUnread := if inSpan s.sp 4 36 then false else s.keyUnread
         outReads := if inSpan s.sp 4 32 then s.outReads + 1 else s.outReads }) := by
  unfold State.popWord
  simp only
  rw [memRead_state _ _ (by decide), memRead_value _ _ (by decide), leValue_four]

/-! ## Interrupts -/

/-- The fields of an interrupt entry whose vector lies clear of the device bytes (60_exceptions.md R185). -/
theorem interrupt_eq (s : State) {n : Nat} (ret : Word)
    (h32 : inSpan (BitVec.ofNat 32 (4 * n)) 4 32 = false)
    (h36 : inSpan (BitVec.ofNat 32 (4 * n)) 4 36 = false) :
    s.interrupt n ret =
      { s with
        sp := s.sp + 4
        mem := (s.memWrite (s.sp + 4) 4 ret).mem
        out := (s.memWrite (s.sp + 4) 4 ret).out
        inIntr := true
        intrSP := s.sp + 4
        pc := (s.memWrite (s.sp + 4) 4 ret).storedDword (BitVec.ofNat 32 (4 * n)) } := by
  unfold State.interrupt
  simp only
  rw [memRead_state_plain _ (by decide) h32 h36, memRead_value _ _ (by decide), leValue_four,
    seenDword_plain _ h32 h36, pushWord_eq]
  rfl

/-- The IVT entries that are performed are clear of the device bytes (60_exceptions.md R194). -/
theorem entry_plain {n : Nat} (hn : n < 32) (h8 : n ≠ 8) (h9 : n ≠ 9) :
    inSpan (BitVec.ofNat 32 (4 * n)) 4 32 = false ∧
      inSpan (BitVec.ofNat 32 (4 * n)) 4 36 = false := by
  interval_cases n <;> first | decide | contradiction

/-- An Error stops the run inside a routine and enters the error routine outside one. -/
theorem raiseError_cases (s : State) :
    (s.inIntr = true ∧ s.raiseError = .fault .nestedInterrupt) ∨
      (s.inIntr = false ∧ s.raiseError = .next (s.interrupt 3 s.pc)) := by
  unfold State.raiseError
  cases h : s.inIntr
  · exact .inr ⟨rfl, rfl⟩
  · exact .inl ⟨rfl, rfl⟩

/-! ## Fetching -/

/-- An instruction dword is the storage under it, unless it covers a device byte. -/
theorem fetchDword_eq (s : State) (a : Word) :
    s.fetchDword a =
      if inSpan a 4 32 = true ∨ inSpan a 4 36 = true then none else some (s.storedDword a) := by
  unfold State.fetchDword
  rw [coversDevice_eq]
  rw [memRead_value _ _ (by decide), leValue_four]
  cases h32 : inSpan a 4 32
  · cases h36 : inSpan a 4 36
    · simp [seenDword_plain s h32 h36]
    · simp
  · simp

/-! ## The boundary -/

/-- A delivery is the timer's or the keyboard's, and its conditions hold. -/
theorem deliver_cases {s t : State} {c : Choice} (h : s.deliver c = some t) :
    (c = .timer ∧ s.timerPending = true ∧ s.inIntr = false ∧
      t = { s with timerPending := false }.interrupt 4 s.pc) ∨
    (c = .keyboard ∧ s.inIntr = false ∧ s.keyUnread = false ∧ ∃ k rest, s.keyQueue = k :: rest ∧
      t = { s with keyData := k, keyUnread := true, keyQueue := rest }.interrupt 5 s.pc) := by
  cases c with
  | fetch => cases h
  | timer =>
    simp only [State.deliver, State.deliverTimer, Option.ite_none_right_eq_some, Option.some.injEq,
      Bool.and_eq_true, Bool.not_eq_true'] at h
    exact .inl ⟨rfl, h.1.1, h.1.2, h.2.symm⟩
  | keyboard =>
    simp only [State.deliver, State.deliverKey] at h
    split at h
    · cases h
    · rename_i k rest hq
      simp only [Option.ite_none_right_eq_some, Option.some.injEq, Bool.and_eq_true,
        Bool.not_eq_true'] at h
      exact .inr ⟨rfl, h.1.1, h.1.2, k, rest, hq, h.2.symm⟩

end Sys2Proof.Machine
end

