-- ==== Sys2Proof/Laws/Exec.lean ====
section
/-!
SUPPORT. What an instruction and a step can do, said once: the shared operations field by field, the kinds of
effect an instruction has, and the ways a step gives a next state.
-/
namespace Sys2Proof.Machine

/-! ## The shared operations -/

/-- The value of a MemRead of an access size: the little-endian dword, cut to the size. -/
theorem memRead_typeSize (s : State) (a : Word) (t : DataType) :
    (s.memRead a (typeSize t)).1 = leValue s a (typeSize t) :=
  memRead_value s a (by cases t <;> decide)

theorem typeSize_le (t : DataType) : typeSize t ≤ 4 := by cases t <;> decide

/-- A CALL pushes the next instruction's address and goes to the operand's address. -/
theorem call_eq (o : MemOperand) (s : State) :
    call o s = .next
      { s with
        sp := s.sp + 4
        mem := (s.memWrite (s.sp + 4) 4 (s.pc + o.length)).mem
        out := (s.memWrite (s.sp + 4) 4 (s.pc + o.length)).out
        pc := s.address o } := by
  obtain ⟨hm, ho⟩ := memWrite_congr (s := s) (t := s.advance o.length) rfl rfl (s.sp + 4)
    (s.pc + o.length) 4
  unfold call
  simp only [pushWord_eq, advance_sp, advance_pc, hm, ho]
  rfl

/-- A RET pops PC and ends a routine at its entry level. -/
theorem execRet_eq (s : State) :
    execRet s = .next
      { s with
        pc := s.seenDword s.sp
        sp := s.sp - 4
        inIntr := s.inIntr && s.sp != s.intrSP
        keyUnread := if inSpan s.sp 4 36 then false else s.keyUnread
        outReads := if inSpan s.sp 4 32 then s.outReads + 1 else s.outReads } := by
  unfold execRet
  simp only
  rw [memRead_state _ _ (by decide), memRead_value _ _ (by decide), leValue_four]
  rfl

/-- A POP reads the dword at SP, moves SP, and writes its register last. -/
theorem execPop_eq (d : Reg) (s : State) :
    execPop d s = .next
      (State.setReg
        { s with
          pc := s.pc + 4
          sp := s.sp - 4
          keyUnread := if inSpan s.sp 4 36 then false else s.keyUnread
          outReads := if inSpan s.sp 4 32 then s.outReads + 1 else s.outReads }
        d (s.seenDword s.sp)) := by
  unfold execPop
  simp only [popWord_eq]
  rfl

/-- A PUSH stores its register above the top of the stack. -/
theorem execPush_eq (r : Reg) (s : State) :
    execPush r s = .next
      { s with
        pc := s.pc + 4
        sp := s.sp + 4
        mem := (s.memWrite (s.sp + 4) 4 ((s.advance 4).reg r)).mem
        out := (s.memWrite (s.sp + 4) 4 ((s.advance 4).reg r)).out } := by
  obtain ⟨hm, ho⟩ := memWrite_congr (s := s) (t := s.advance 4) rfl rfl (s.sp + 4)
    ((s.advance 4).reg r) 4
  unfold execPush
  simp only [pushWord_eq, advance_sp, hm, ho]
  rfl

/-- A LOAD from memory reads the operand's bytes and writes its destination. -/
theorem loadMem_eq (t : DataType) (d : Reg) (o : MemOperand) (s : State) :
    loadMem t d o s = .next
      (State.setReg
        { s with
          pc := s.pc + o.length
          keyUnread := if inSpan (s.address o) (typeSize t) 36 then false else s.keyUnread
          outReads := if inSpan (s.address o) (typeSize t) 32 then s.outReads + 1 else s.outReads }
        d (typeExt t (leValue s (s.address o) (typeSize t)))) := by
  have hn : typeSize t ≤ 2 ^ 32 := Nat.le_trans (typeSize_le t) (by decide)
  unfold loadMem
  simp only
  rw [memRead_state _ _ hn, memRead_value _ _ hn,
    leValue_congr (s := s.advance o.length) (t := s) fun _ _ => rfl]
  rfl

/-- A STORE to memory writes the operand's bytes. -/
theorem storeMem_eq (t : DataType) (r : Reg) (o : MemOperand) (s : State) :
    storeMem t r o s = .next
      { s with
        pc := s.pc + o.length
        mem := (s.memWrite (s.address o) (typeSize t) ((s.advance o.length).reg r)).mem
        out := (s.memWrite (s.address o) (typeSize t) ((s.advance o.length).reg r)).out } := by
  obtain ⟨hm, ho⟩ := memWrite_congr (s := s) (t := s.advance o.length) rfl rfl (s.address o)
    ((s.advance o.length).reg r) (typeSize t)
  unfold storeMem
  simp only
  rw [memWrite_state]
  show Host.Outcome.next _ = _
  rw [show (s.advance o.length).memWrite (o.ea (s.advance o.length)) (typeSize t)
      ((s.advance o.length).reg r) = (s.advance o.length).memWrite (s.address o) (typeSize t)
      ((s.advance o.length).reg r) from rfl, hm, ho]
  rfl

/-! ## The kinds of effect -/

/-- What an instruction that completes does to the state: it reads at most four bytes and writes registers;
it writes at most four bytes and moves SP and PC; it halts; it returns; or it enters a routine, as an INT or as
the Error of a zero divisor. -/
inductive Effect (s : State) : Instr → State → Prop
  | reads {i : Instr} (regs : Vector Word 16) (sp pc a : Word) (n : Nat) (hn : n ≤ 4) :
      Effect s i
        { s with
          regs := regs
          sp := sp
          pc := pc
          keyUnread := if inSpan a n 36 then false else s.keyUnread
          outReads := if inSpan a n 32 then s.outReads + 1 else s.outReads }
  | writes {i : Instr} (sp pc a v : Word) (n : Nat) (hn : n ≤ 4) :
      Effect s i
        { s with
          sp := sp
          pc := pc
          mem := (s.memWrite a n v).mem
          out := (s.memWrite a n v).out }
  | halts (pc : Word) : Effect s (.int 0) { s with pc := pc, halted := true }
  | returns (sp pc a : Word) (n : Nat) (hn : n ≤ 4) :
      Effect s .ret
        { s with
          sp := sp
          pc := pc
          inIntr := s.inIntr && s.sp != s.intrSP
          keyUnread := if inSpan a n 36 then false else s.keyUnread
          outReads := if inSpan a n 32 then s.outReads + 1 else s.outReads }
  | enters {i : Instr} (pc : Word) (n : Nat) (ret : Word) (hi : s.inIntr = false) (hn : n < 32)
      (h8 : n ≠ 8) (h9 : n ≠ 9)
      (why : (i = .int n ∧ n ≠ 0 ∧ ret = s.pc + 4) ∨ (DividesByZero i s ∧ n = 3 ∧ ret = s.pc)) :
      Effect s i ({ s with pc := pc }.interrupt n ret)

/-- An instruction that touches no memory writes registers only. -/
theorem Effect.registers {s : State} {i : Instr} (regs : Vector Word 16) (sp pc : Word) :
    Effect s i { s with regs := regs, sp := sp, pc := pc } :=
  .reads (i := i) regs sp pc 0 0 (Nat.zero_le 4)

/-- A register written after the reads is still an effect of that kind. -/
theorem Effect.reads_setReg {s : State} {i : Instr} (d : Reg) (v sp pc a : Word) (n : Nat) (hn : n ≤ 4) :
    Effect s i
      (State.setReg
        { s with
          sp := sp
          pc := pc
          keyUnread := if inSpan a n 36 then false else s.keyUnread
          outReads := if inSpan a n 32 then s.outReads + 1 else s.outReads } d v) := by
  cases d with
  | gpr k => exact .reads (i := i) (s.regs.set k.val v k.isLt) sp pc a n hn
  | sp => exact .reads (i := i) s.regs v pc a n hn
  | pc => exact .reads (i := i) s.regs sp v a n hn

theorem Effect.setReg {s : State} {i : Instr} (d : Reg) (v b : Word) :
    Effect s i ((s.advance b).setReg d v) :=
  Effect.reads_setReg d v s.sp (s.pc + b) 0 0 (Nat.zero_le 4)

theorem effect_jump {i : Instr} {o : MemOperand} {s t : State} (h : jump o s = .next t) :
    Effect s i t := by
  cases h
  exact .registers s.regs s.sp _

theorem effect_call {i : Instr} {o : MemOperand} {s t : State} (h : call o s = .next t) :
    Effect s i t := by
  rw [call_eq] at h
  cases h
  exact .writes _ _ _ _ 4 (Nat.le_refl 4)

theorem effect_condJump {i : Instr} {c : Word → Bool} {r : Reg} {o : MemOperand} {s t : State}
    (h : condJump c r o s = .next t) : Effect s i t := by
  unfold condJump at h
  simp only [Host.Outcome.next.injEq] at h
  subst h
  split
  · exact .registers s.regs s.sp _
  · exact .registers s.regs s.sp _

theorem effect_loadConst {i : Instr} {ty : DataType} {d : Reg} {v : Word} {s t : State}
    (h : loadConst ty d v s = .next t) : Effect s i t := by
  cases h
  exact .setReg d _ 8

theorem effect_loadReg {i : Instr} {ty : DataType} {d r : Reg} {s t : State}
    (h : loadReg ty d r s = .next t) : Effect s i t := by
  cases h
  exact .setReg d _ 4

theorem effect_loadMem {i : Instr} {ty : DataType} {d : Reg} {o : MemOperand} {s t : State}
    (h : loadMem ty d o s = .next t) : Effect s i t := by
  rw [loadMem_eq] at h
  cases h
  exact .reads_setReg d _ s.sp _ _ _ (typeSize_le ty)

theorem effect_storeReg {i : Instr} {ty : DataType} {r d : Reg} {s t : State}
    (h : storeReg ty r d s = .next t) : Effect s i t := by
  cases h
  exact .setReg d _ 4

theorem effect_storeMem {i : Instr} {ty : DataType} {r : Reg} {o : MemOperand} {s t : State}
    (h : storeMem ty r o s = .next t) : Effect s i t := by
  rw [storeMem_eq] at h
  cases h
  exact .writes s.sp _ _ _ _ (typeSize_le ty)

theorem effect_alu {i : Instr} {f : Word → Word → Word} {d a b : Reg} {s t : State}
    (h : alu f d a b s = .next t) : Effect s i t := by
  cases h
  exact .setReg d _ 4

/-- After the advance a register reads as an operand of the instruction. -/
theorem reg_advance_operand (s : State) (n : Word) (r : Reg) : (s.advance n).reg r = s.operand n r := by
  cases r <;> rfl

/-- A zero divisor stops inside a routine and enters the error routine outside one; any other divisor
completes. -/
theorem aluDivide_cases (f : Word → Word → Word) (d a b : Reg) (s : State) :
    (s.operand 4 b = 0 ∧
      ((s.inIntr = true ∧ aluDivide f d a b s = .fault .nestedInterrupt) ∨
       (s.inIntr = false ∧ aluDivide f d a b s = .next (s.interrupt 3 s.pc)))) ∨
    (s.operand 4 b ≠ 0 ∧ aluDivide f d a b s = alu f d a b s) := by
  unfold aluDivide
  rw [reg_advance_operand]
  by_cases h : s.operand 4 b = 0
  · refine .inl ⟨h, ?_⟩
    simp only [h, if_true]
    exact raiseError_cases s
  · exact .inr ⟨h, by simp only [h, if_false]⟩

theorem effect_aluDivide {i : Instr} {f : Word → Word → Word} {d a b : Reg} {s t : State}
    (hi : i = .div d a b ∨ i = .mod d a b) (h : aluDivide f d a b s = .next t) : Effect s i t := by
  rcases aluDivide_cases f d a b s with ⟨h0, ⟨_, h'⟩ | ⟨hn, h'⟩⟩ | ⟨_, h'⟩ <;> rw [h'] at h
  · cases h
  · cases h
    exact .enters s.pc 3 s.pc hn (by decide) (by decide) (by decide)
      (.inr ⟨⟨d, a, b, hi, h0⟩, rfl, rfl⟩)
  · exact effect_alu h

/-- The cases of an INT by its number. -/
theorem execInt_cases (n : Nat) (s : State) :
    (n = 0 ∧ execInt n s = .next { s.advance 4 with halted := true }) ∨
    (32 ≤ n ∧ execInt n s = .refused .noSuchEntry) ∨
    ((n = 8 ∨ n = 9) ∧ execInt n s = .refused .entryOverDevice) ∨
    (n ≠ 0 ∧ n < 32 ∧ n ≠ 8 ∧ n ≠ 9 ∧
      ((s.inIntr = true ∧ execInt n s = .fault .nestedInterrupt) ∨
       (s.inIntr = false ∧ execInt n s = .next ((s.advance 4).interrupt n (s.pc + 4))))) := by
  unfold execInt
  by_cases h0 : n = 0
  · subst h0
    exact .inl ⟨rfl, rfl⟩
  · by_cases hn : Config.ivtEntries ≤ n
    · exact .inr (.inl ⟨hn, by simp [h0, hn]⟩)
    · by_cases h89 : n = 8 ∨ n = 9
      · exact .inr (.inr (.inl ⟨h89, by simp [h0, hn, h89]⟩))
      · have hlt : n < 32 := Nat.lt_of_not_le hn
        refine .inr (.inr (.inr ⟨h0, hlt, by omega, by omega, ?_⟩))
        cases hi : s.inIntr <;> simp [h0, hn, h89, hi]

theorem effect_int {n : Nat} {s t : State} (h : execInt n s = .next t) : Effect s (.int n) t := by
  rcases execInt_cases n s with ⟨h0, h'⟩ | ⟨_, h'⟩ | ⟨_, h'⟩ | ⟨h0, hn, h8, h9, ⟨_, h'⟩ | ⟨hi, h'⟩⟩ <;>
    rw [h'] at h <;> cases h
  · subst h0
    exact .halts _
  · exact .enters _ n _ hi hn h8 h9 (.inl ⟨rfl, h0, rfl⟩)

theorem effect_ret {s t : State} (h : execRet s = .next t) : Effect s .ret t := by
  rw [execRet_eq] at h
  cases h
  exact .returns _ _ _ 4 (Nat.le_refl 4)

theorem effect_push {i : Instr} {r : Reg} {s t : State} (h : execPush r s = .next t) : Effect s i t := by
  rw [execPush_eq] at h
  cases h
  exact .writes _ _ _ _ 4 (Nat.le_refl 4)

theorem effect_pop {i : Instr} {r : Reg} {s t : State} (h : execPop r s = .next t) : Effect s i t := by
  rw [execPop_eq] at h
  cases h
  exact .reads_setReg r _ _ _ _ 4 (Nat.le_refl 4)

/-- Every instruction that completes has an effect of one of the kinds, halting only for INT 0 and returning
only for RET. -/
theorem exec_effect {i : Instr} {s t : State} (h : exec i s = .next t) : Effect s i t := by
  cases i
  case jmpMemdir | jmpRegind | jmpRegdisp =>
    exact effect_jump h
  case callMemdir | callRegind | callRegdisp =>
    exact effect_call h
  case jzMemdir | jzRegind | jzRegdisp | jnzMemdir | jnzRegind | jnzRegdisp | jgzMemdir |
      jgzRegind | jgzRegdisp | jgezMemdir | jgezRegind | jgezRegdisp | jlzMemdir | jlzRegind |
      jlzRegdisp | jlezMemdir | jlezRegind | jlezRegdisp =>
    exact effect_condJump h
  case loadImm | loadubImm | loadsbImm | loaduwImm | loadswImm =>
    exact effect_loadConst h
  case loadRegdir | loadubRegdir | loadsbRegdir | loaduwRegdir | loadswRegdir =>
    exact effect_loadReg h
  case loadMemdir | loadRegind | loadRegdisp | loadubMemdir | loadubRegind | loadubRegdisp |
      loadsbMemdir | loadsbRegind | loadsbRegdisp | loaduwMemdir | loaduwRegind | loaduwRegdisp
      | loadswMemdir | loadswRegind | loadswRegdisp =>
    exact effect_loadMem h
  case storeRegdir | storebRegdir | storebSxRegdir | storewRegdir | storewSxRegdir =>
    exact effect_storeReg h
  case storeMemdir | storeRegind | storeRegdisp | storebMemdir | storebRegind | storebRegdisp |
      storebSxMemdir | storebSxRegind | storebSxRegdisp | storewMemdir | storewRegind |
      storewRegdisp | storewSxMemdir | storewSxRegind | storewSxRegdisp =>
    exact effect_storeMem h
  case add | sub | mul | and | or | xor | asl | asr =>
    exact effect_alu h
  case not d a =>
    exact effect_alu (f := fun x _ => ~~~x) (b := a) h
  case div d a b =>
    exact effect_aluDivide (.inl rfl) h
  case mod d a b =>
    exact effect_aluDivide (.inr rfl) h
  case int =>
    exact effect_int h
  case ret =>
    exact effect_ret h
  case push =>
    exact effect_push h
  case pop =>
    exact effect_pop h

/-! ## Where an instruction stops -/

/-- An instruction that does not complete ends the run inside a routine, as an INT or as the Error of a zero
divisor, or is an INT of a refused number. -/
theorem exec_stops (i : Instr) (s : State) :
    (∃ t, exec i s = .next t) ∨
    (s.inIntr = true ∧ exec i s = .fault .nestedInterrupt ∧
      ((∃ n, i = .int n ∧ n ≠ 0 ∧ n ≠ 8 ∧ n ≠ 9) ∨ DividesByZero i s)) ∨
    (exec i s = .refused .entryOverDevice ∧ (i = .int 8 ∨ i = .int 9)) ∨
    (exec i s = .refused .noSuchEntry ∧ i.wellFormed = false) := by
  cases i
  case int n =>
    show (∃ t, execInt n s = .next t) ∨ (_ ∧ execInt n s = _ ∧ _) ∨ (execInt n s = _ ∧ _) ∨
      (execInt n s = _ ∧ decide (n < Config.ivtEntries) = false)
    rcases execInt_cases n s with ⟨_, h⟩ | ⟨hn, h⟩ | ⟨h89, h⟩ | ⟨h0, _, h8, h9, ⟨hi, h⟩ | ⟨_, h⟩⟩
    · exact .inl ⟨_, h⟩
    · exact .inr (.inr (.inr ⟨h, decide_eq_false (Nat.not_lt.mpr hn)⟩))
    · refine .inr (.inr (.inl ⟨h, ?_⟩))
      rcases h89 with rfl | rfl
      · exact .inl rfl
      · exact .inr rfl
    · exact .inr (.inl ⟨hi, h, .inl ⟨n, rfl, h0, h8, h9⟩⟩)
    · exact .inl ⟨_, h⟩
  case div d a b =>
    rcases aluDivide_cases quotientOf d a b s with ⟨h0, ⟨hi, h⟩ | ⟨_, h⟩⟩ | ⟨_, h⟩
    · exact .inr (.inl ⟨hi, h, .inr ⟨d, a, b, .inl rfl, h0⟩⟩)
    · exact .inl ⟨_, h⟩
    · exact .inl ⟨_, h⟩
  case mod d a b =>
    rcases aluDivide_cases remainderOf d a b s with ⟨h0, ⟨hi, h⟩ | ⟨_, h⟩⟩ | ⟨_, h⟩
    · exact .inr (.inl ⟨hi, h, .inr ⟨d, a, b, .inr rfl, h0⟩⟩)
    · exact .inl ⟨_, h⟩
    · exact .inl ⟨_, h⟩
  all_goals exact .inl ⟨_, rfl⟩

/-! ## Fetching -/

/-- The fetch where the first dword is clear of the device bytes. -/
theorem fetch_eq {s : State} (h32 : inSpan s.pc 4 32 = false) (h36 : inSpan s.pc 4 36 = false) :
    s.fetch =
      match decodeHead (s.storedDword s.pc) with
      | .error e => .undecodable e
      | .ok (.one i) => .instr i
      | .ok (.two i) =>
        match s.fetchDword (s.pc + 4) with
        | none => .overDevice
        | some w1 => .instr (i w1) := by
  have e : s.fetchDword s.pc = some (s.storedDword s.pc) := by
    rw [fetchDword_eq, h32, h36, if_neg (by simp)]
  unfold State.fetch
  cases h : decodeHead (s.storedDword s.pc) with
  | error d => simp only [e, h]
  | ok sh => cases sh <;> (simp only [e, h] <;> rfl)

/-- An undecodable fetch has a first dword clear of the device bytes that the decoder rejects. -/
theorem fetch_undecodable {s : State} {e : DecodeError} (h : s.fetch = .undecodable e) :
    inSpan s.pc 4 32 = false ∧ inSpan s.pc 4 36 = false ∧
      decodeHead (s.storedDword s.pc) = .error e := by
  unfold State.fetch at h
  rw [fetchDword_eq] at h
  by_cases hc : inSpan s.pc 4 32 = true ∨ inSpan s.pc 4 36 = true
  · rw [if_pos hc] at h
    cases h
  · rw [if_neg hc] at h
    rw [not_or, Bool.not_eq_true, Bool.not_eq_true] at hc
    refine ⟨hc.1, hc.2, ?_⟩
    dsimp only at h
    split at h
    · cases h
      assumption
    · cases h
    · split at h <;> cases h

/-- A fetch over a device byte: the first dword covers one, or it is the head of an instruction whose second
dword does. -/
theorem fetch_overDevice {s : State} (h : s.fetch = .overDevice) :
    inSpan s.pc 4 32 = true ∨ inSpan s.pc 4 36 = true ∨
      ((∃ f, decodeHead (s.storedDword s.pc) = .ok (.two f)) ∧
        (inSpan (s.pc + 4) 4 32 = true ∨ inSpan (s.pc + 4) 4 36 = true)) := by
  unfold State.fetch at h
  rw [fetchDword_eq, fetchDword_eq] at h
  by_cases hc : inSpan s.pc 4 32 = true ∨ inSpan s.pc 4 36 = true
  · exact or_assoc.mp (.inl hc)
  · rw [if_neg hc] at h
    dsimp only at h
    split at h
    · cases h
    · cases h
    · rename_i f hd
      by_cases h2 : inSpan (s.pc + 4) 4 32 = true ∨ inSpan (s.pc + 4) 4 36 = true
      · exact .inr (.inr ⟨⟨f, hd⟩, h2⟩)
      · rw [if_neg h2] at h
        cases h

/-- A fetched instruction is well formed. -/
theorem fetch_wellFormed {s : State} {i : Instr} (h : s.fetch = .instr i) : i.wellFormed = true := by
  unfold State.fetch at h
  split at h
  · cases h
  · split at h
    · cases h
    · rename_i hd
      cases h
      exact decodeHead_wellFormed hd
    · rename_i hd
      split at h
      · cases h
      · cases h
        exact decodeHead_wellFormed hd _

/-! ## Steps -/

/-- The ways a step gives a next state: a delivery, an instruction, or the Error of an undecodable dword. -/
theorem step_cases {s t : State} (h : step s = .next t) :
    s.halted = false ∧
    (s.hearHost.deliver s.turn.choice = some t ∨
      (RunsInstruction s ∧
        ((∃ i, s.hearHost.fetch = .instr i ∧ exec i s.hearHost = .next t) ∨
         (∃ e, s.hearHost.fetch = .undecodable e ∧ s.inIntr = false ∧
            t = s.hearHost.interrupt 3 s.pc)))) := by
  unfold step at h
  cases hh : s.halted
  · refine ⟨rfl, ?_⟩
    simp only [hh, Bool.false_eq_true, if_false] at h
    cases hd : s.hearHost.deliver s.turn.choice with
    | some u =>
      simp only [hd, Host.Outcome.next.injEq] at h
      exact .inl (congrArg some h)
    | none =>
      simp only [hd, runInstruction] at h
      refine .inr ⟨⟨hh, hd⟩, ?_⟩
      cases hf : s.hearHost.fetch with
      | instr i =>
        simp only [hf] at h
        exact .inl ⟨i, rfl, h⟩
      | undecodable e =>
        simp only [hf] at h
        rcases raiseError_cases s.hearHost with ⟨_, h'⟩ | ⟨hi, h'⟩
        · rw [h'] at h
          cases h
        · rw [h'] at h
          cases h
          exact .inr ⟨e, rfl, hi, rfl⟩
      | overDevice =>
        simp only [hf] at h
        cases h
  · simp only [hh, if_true] at h
    cases h

/-- A step where an instruction runs is what the fetch finds. -/
theorem step_of_runs {s : State} (h : RunsInstruction s) : step s = runInstruction s.hearHost := by
  unfold step
  rw [h.1, h.2]
  rfl

end Sys2Proof.Machine
end

