-- ==== Sys2Proof/Laws/PerInstr.lean ====
section
/-!
SUPPORT. The family SecondDword, stated of each constructor of Instr: the instruction's encoding has a second
dword exactly when the address mode of the first is immediate, memory direct or register indirect with
displacement (30_encoding.md R73).
-/

/-- The encoding of the instruction has a second dword exactly when its mode field says so (R73). -/
def Sys2Proof.Laws.SecondDword.Statement (i : Sys2Proof.Instr) : Prop :=
  (Sys2Proof.encode i).2.isSome = true ↔
    (Sys2Proof.Fields.ofWord (Sys2Proof.encode i).1).am ∈ [0b100#3, 0b110#3, 0b111#3]

namespace Sys2Proof.Laws

/-- A two-dword instruction of one of the three modes meets the statement. -/
theorem secondDword_two {i : Instr} {op : Opcode} (am : Mode) {r0 r1 r2 : BitVec 5} {ty : BitVec 3}
    {w : Word} (h : encode i = (headWord op am r0 r1 r2 ty, some w))
    (hm : am.code ∈ [0b100#3, 0b110#3, 0b111#3]) : SecondDword.Statement i := by
  unfold SecondDword.Statement
  rw [h, headWord, fields_ofWord_toWord]
  exact ⟨fun _ => hm, fun _ => rfl⟩

/-- A one-dword instruction of one of the other two modes meets the statement. -/
theorem secondDword_one {i : Instr} {op : Opcode} (am : Mode) {r0 r1 r2 : BitVec 5} {ty : BitVec 3}
    (h : encode i = (headWord op am r0 r1 r2 ty, none))
    (hm : ¬ am.code ∈ [0b100#3, 0b110#3, 0b111#3]) : SecondDword.Statement i := by
  unfold SecondDword.Statement
  rw [h, headWord, fields_ofWord_toWord]
  exact ⟨fun e => (by cases e), fun e => absurd e hm⟩

end Sys2Proof.Laws

open Sys2Proof

theorem Sys2Proof.Laws.SecondDword.int (n : Nat) :
    Statement (.int n) :=
  secondDword_one .regdir rfl (by decide)

theorem Sys2Proof.Laws.SecondDword.ret :
    Statement .ret :=
  secondDword_one .regdir rfl (by decide)

theorem Sys2Proof.Laws.SecondDword.jmpMemdir (addr : Word) :
    Statement (.jmpMemdir addr) :=
  secondDword_two .memdir rfl (by decide)

theorem Sys2Proof.Laws.SecondDword.jmpRegind (base : Reg) :
    Statement (.jmpRegind base) :=
  secondDword_one .regind rfl (by decide)

theorem Sys2Proof.Laws.SecondDword.jmpRegdisp (base : Reg) (disp : Word) :
    Statement (.jmpRegdisp base disp) :=
  secondDword_two .regdisp rfl (by decide)

theorem Sys2Proof.Laws.SecondDword.callMemdir (addr : Word) :
    Statement (.callMemdir addr) :=
  secondDword_two .memdir rfl (by decide)

theorem Sys2Proof.Laws.SecondDword.callRegind (base : Reg) :
    Statement (.callRegind base) :=
  secondDword_one .regind rfl (by decide)

theorem Sys2Proof.Laws.SecondDword.callRegdisp (base : Reg) (disp : Word) :
    Statement (.callRegdisp base disp) :=
  secondDword_two .regdisp rfl (by decide)

theorem Sys2Proof.Laws.SecondDword.jzMemdir (tested : Reg) (addr : Word) :
    Statement (.jzMemdir tested addr) :=
  secondDword_two .memdir rfl (by decide)

theorem Sys2Proof.Laws.SecondDword.jzRegind (tested base : Reg) :
    Statement (.jzRegind tested base) :=
  secondDword_one .regind rfl (by decide)

theorem Sys2Proof.Laws.SecondDword.jzRegdisp (tested base : Reg) (disp : Word) :
    Statement (.jzRegdisp tested base disp) :=
  secondDword_two .regdisp rfl (by decide)

theorem Sys2Proof.Laws.SecondDword.jnzMemdir (tested : Reg) (addr : Word) :
    Statement (.jnzMemdir tested addr) :=
  secondDword_two .memdir rfl (by decide)

theorem Sys2Proof.Laws.SecondDword.jnzRegind (tested base : Reg) :
    Statement (.jnzRegind tested base) :=
  secondDword_one .regind rfl (by decide)

theorem Sys2Proof.Laws.SecondDword.jnzRegdisp (tested base : Reg) (disp : Word) :
    Statement (.jnzRegdisp tested base disp) :=
  secondDword_two .regdisp rfl (by decide)

theorem Sys2Proof.Laws.SecondDword.jgzMemdir (tested : Reg) (addr : Word) :
    Statement (.jgzMemdir tested addr) :=
  secondDword_two .memdir rfl (by decide)

theorem Sys2Proof.Laws.SecondDword.jgzRegind (tested base : Reg) :
    Statement (.jgzRegind tested base) :=
  secondDword_one .regind rfl (by decide)

theorem Sys2Proof.Laws.SecondDword.jgzRegdisp (tested base : Reg) (disp : Word) :
    Statement (.jgzRegdisp tested base disp) :=
  secondDword_two .regdisp rfl (by decide)

theorem Sys2Proof.Laws.SecondDword.jgezMemdir (tested : Reg) (addr : Word) :
    Statement (.jgezMemdir tested addr) :=
  secondDword_two .memdir rfl (by decide)

theorem Sys2Proof.Laws.SecondDword.jgezRegind (tested base : Reg) :
    Statement (.jgezRegind tested base) :=
  secondDword_one .regind rfl (by decide)

theorem Sys2Proof.Laws.SecondDword.jgezRegdisp (tested base : Reg) (disp : Word) :
    Statement (.jgezRegdisp tested base disp) :=
  secondDword_two .regdisp rfl (by decide)

theorem Sys2Proof.Laws.SecondDword.jlzMemdir (tested : Reg) (addr : Word) :
    Statement (.jlzMemdir tested addr) :=
  secondDword_two .memdir rfl (by decide)

theorem Sys2Proof.Laws.SecondDword.jlzRegind (tested base : Reg) :
    Statement (.jlzRegind tested base) :=
  secondDword_one .regind rfl (by decide)

theorem Sys2Proof.Laws.SecondDword.jlzRegdisp (tested base : Reg) (disp : Word) :
    Statement (.jlzRegdisp tested base disp) :=
  secondDword_two .regdisp rfl (by decide)

theorem Sys2Proof.Laws.SecondDword.jlezMemdir (tested : Reg) (addr : Word) :
    Statement (.jlezMemdir tested addr) :=
  secondDword_two .memdir rfl (by decide)

theorem Sys2Proof.Laws.SecondDword.jlezRegind (tested base : Reg) :
    Statement (.jlezRegind tested base) :=
  secondDword_one .regind rfl (by decide)

theorem Sys2Proof.Laws.SecondDword.jlezRegdisp (tested base : Reg) (disp : Word) :
    Statement (.jlezRegdisp tested base disp) :=
  secondDword_two .regdisp rfl (by decide)

theorem Sys2Proof.Laws.SecondDword.loadImm (dst : Reg) (value : Word) :
    Statement (.loadImm dst value) :=
  secondDword_two .imm rfl (by decide)

theorem Sys2Proof.Laws.SecondDword.loadRegdir (dst src : Reg) :
    Statement (.loadRegdir dst src) :=
  secondDword_one .regdir rfl (by decide)

theorem Sys2Proof.Laws.SecondDword.loadMemdir (dst : Reg) (addr : Word) :
    Statement (.loadMemdir dst addr) :=
  secondDword_two .memdir rfl (by decide)

theorem Sys2Proof.Laws.SecondDword.loadRegind (dst base : Reg) :
    Statement (.loadRegind dst base) :=
  secondDword_one .regind rfl (by decide)

theorem Sys2Proof.Laws.SecondDword.loadRegdisp (dst base : Reg) (disp : Word) :
    Statement (.loadRegdisp dst base disp) :=
  secondDword_two .regdisp rfl (by decide)

theorem Sys2Proof.Laws.SecondDword.loadubImm (dst : Reg) (value : Word) :
    Statement (.loadubImm dst value) :=
  secondDword_two .imm rfl (by decide)

theorem Sys2Proof.Laws.SecondDword.loadubRegdir (dst src : Reg) :
    Statement (.loadubRegdir dst src) :=
  secondDword_one .regdir rfl (by decide)

theorem Sys2Proof.Laws.SecondDword.loadubMemdir (dst : Reg) (addr : Word) :
    Statement (.loadubMemdir dst addr) :=
  secondDword_two .memdir rfl (by decide)

theorem Sys2Proof.Laws.SecondDword.loadubRegind (dst base : Reg) :
    Statement (.loadubRegind dst base) :=
  secondDword_one .regind rfl (by decide)

theorem Sys2Proof.Laws.SecondDword.loadubRegdisp (dst base : Reg) (disp : Word) :
    Statement (.loadubRegdisp dst base disp) :=
  secondDword_two .regdisp rfl (by decide)

theorem Sys2Proof.Laws.SecondDword.loadsbImm (dst : Reg) (value : Word) :
    Statement (.loadsbImm dst value) :=
  secondDword_two .imm rfl (by decide)

theorem Sys2Proof.Laws.SecondDword.loadsbRegdir (dst src : Reg) :
    Statement (.loadsbRegdir dst src) :=
  secondDword_one .regdir rfl (by decide)

theorem Sys2Proof.Laws.SecondDword.loadsbMemdir (dst : Reg) (addr : Word) :
    Statement (.loadsbMemdir dst addr) :=
  secondDword_two .memdir rfl (by decide)

theorem Sys2Proof.Laws.SecondDword.loadsbRegind (dst base : Reg) :
    Statement (.loadsbRegind dst base) :=
  secondDword_one .regind rfl (by decide)

theorem Sys2Proof.Laws.SecondDword.loadsbRegdisp (dst base : Reg) (disp : Word) :
    Statement (.loadsbRegdisp dst base disp) :=
  secondDword_two .regdisp rfl (by decide)

theorem Sys2Proof.Laws.SecondDword.loaduwImm (dst : Reg) (value : Word) :
    Statement (.loaduwImm dst value) :=
  secondDword_two .imm rfl (by decide)

theorem Sys2Proof.Laws.SecondDword.loaduwRegdir (dst src : Reg) :
    Statement (.loaduwRegdir dst src) :=
  secondDword_one .regdir rfl (by decide)

theorem Sys2Proof.Laws.SecondDword.loaduwMemdir (dst : Reg) (addr : Word) :
    Statement (.loaduwMemdir dst addr) :=
  secondDword_two .memdir rfl (by decide)

theorem Sys2Proof.Laws.SecondDword.loaduwRegind (dst base : Reg) :
    Statement (.loaduwRegind dst base) :=
  secondDword_one .regind rfl (by decide)

theorem Sys2Proof.Laws.SecondDword.loaduwRegdisp (dst base : Reg) (disp : Word) :
    Statement (.loaduwRegdisp dst base disp) :=
  secondDword_two .regdisp rfl (by decide)

theorem Sys2Proof.Laws.SecondDword.loadswImm (dst : Reg) (value : Word) :
    Statement (.loadswImm dst value) :=
  secondDword_two .imm rfl (by decide)

theorem Sys2Proof.Laws.SecondDword.loadswRegdir (dst src : Reg) :
    Statement (.loadswRegdir dst src) :=
  secondDword_one .regdir rfl (by decide)

theorem Sys2Proof.Laws.SecondDword.loadswMemdir (dst : Reg) (addr : Word) :
    Statement (.loadswMemdir dst addr) :=
  secondDword_two .memdir rfl (by decide)

theorem Sys2Proof.Laws.SecondDword.loadswRegind (dst base : Reg) :
    Statement (.loadswRegind dst base) :=
  secondDword_one .regind rfl (by decide)

theorem Sys2Proof.Laws.SecondDword.loadswRegdisp (dst base : Reg) (disp : Word) :
    Statement (.loadswRegdisp dst base disp) :=
  secondDword_two .regdisp rfl (by decide)

theorem Sys2Proof.Laws.SecondDword.storeRegdir (src dst : Reg) :
    Statement (.storeRegdir src dst) :=
  secondDword_one .regdir rfl (by decide)

theorem Sys2Proof.Laws.SecondDword.storeMemdir (src : Reg) (addr : Word) :
    Statement (.storeMemdir src addr) :=
  secondDword_two .memdir rfl (by decide)

theorem Sys2Proof.Laws.SecondDword.storeRegind (src base : Reg) :
    Statement (.storeRegind src base) :=
  secondDword_one .regind rfl (by decide)

theorem Sys2Proof.Laws.SecondDword.storeRegdisp (src base : Reg) (disp : Word) :
    Statement (.storeRegdisp src base disp) :=
  secondDword_two .regdisp rfl (by decide)

theorem Sys2Proof.Laws.SecondDword.storebRegdir (src dst : Reg) :
    Statement (.storebRegdir src dst) :=
  secondDword_one .regdir rfl (by decide)

theorem Sys2Proof.Laws.SecondDword.storebMemdir (src : Reg) (addr : Word) :
    Statement (.storebMemdir src addr) :=
  secondDword_two .memdir rfl (by decide)

theorem Sys2Proof.Laws.SecondDword.storebRegind (src base : Reg) :
    Statement (.storebRegind src base) :=
  secondDword_one .regind rfl (by decide)

theorem Sys2Proof.Laws.SecondDword.storebRegdisp (src base : Reg) (disp : Word) :
    Statement (.storebRegdisp src base disp) :=
  secondDword_two .regdisp rfl (by decide)

theorem Sys2Proof.Laws.SecondDword.storebSxRegdir (src dst : Reg) :
    Statement (.storebSxRegdir src dst) :=
  secondDword_one .regdir rfl (by decide)

theorem Sys2Proof.Laws.SecondDword.storebSxMemdir (src : Reg) (addr : Word) :
    Statement (.storebSxMemdir src addr) :=
  secondDword_two .memdir rfl (by decide)

theorem Sys2Proof.Laws.SecondDword.storebSxRegind (src base : Reg) :
    Statement (.storebSxRegind src base) :=
  secondDword_one .regind rfl (by decide)

theorem Sys2Proof.Laws.SecondDword.storebSxRegdisp (src base : Reg) (disp : Word) :
    Statement (.storebSxRegdisp src base disp) :=
  secondDword_two .regdisp rfl (by decide)

theorem Sys2Proof.Laws.SecondDword.storewRegdir (src dst : Reg) :
    Statement (.storewRegdir src dst) :=
  secondDword_one .regdir rfl (by decide)

theorem Sys2Proof.Laws.SecondDword.storewMemdir (src : Reg) (addr : Word) :
    Statement (.storewMemdir src addr) :=
  secondDword_two .memdir rfl (by decide)

theorem Sys2Proof.Laws.SecondDword.storewRegind (src base : Reg) :
    Statement (.storewRegind src base) :=
  secondDword_one .regind rfl (by decide)

theorem Sys2Proof.Laws.SecondDword.storewRegdisp (src base : Reg) (disp : Word) :
    Statement (.storewRegdisp src base disp) :=
  secondDword_two .regdisp rfl (by decide)

theorem Sys2Proof.Laws.SecondDword.storewSxRegdir (src dst : Reg) :
    Statement (.storewSxRegdir src dst) :=
  secondDword_one .regdir rfl (by decide)

theorem Sys2Proof.Laws.SecondDword.storewSxMemdir (src : Reg) (addr : Word) :
    Statement (.storewSxMemdir src addr) :=
  secondDword_two .memdir rfl (by decide)

theorem Sys2Proof.Laws.SecondDword.storewSxRegind (src base : Reg) :
    Statement (.storewSxRegind src base) :=
  secondDword_one .regind rfl (by decide)

theorem Sys2Proof.Laws.SecondDword.storewSxRegdisp (src base : Reg) (disp : Word) :
    Statement (.storewSxRegdisp src base disp) :=
  secondDword_two .regdisp rfl (by decide)

theorem Sys2Proof.Laws.SecondDword.push (src : Reg) :
    Statement (.push src) :=
  secondDword_one .regdir rfl (by decide)

theorem Sys2Proof.Laws.SecondDword.pop (dst : Reg) :
    Statement (.pop dst) :=
  secondDword_one .regdir rfl (by decide)

theorem Sys2Proof.Laws.SecondDword.add (dst src1 src2 : Reg) :
    Statement (.add dst src1 src2) :=
  secondDword_one .regdir rfl (by decide)

theorem Sys2Proof.Laws.SecondDword.sub (dst src1 src2 : Reg) :
    Statement (.sub dst src1 src2) :=
  secondDword_one .regdir rfl (by decide)

theorem Sys2Proof.Laws.SecondDword.mul (dst src1 src2 : Reg) :
    Statement (.mul dst src1 src2) :=
  secondDword_one .regdir rfl (by decide)

theorem Sys2Proof.Laws.SecondDword.div (dst src1 src2 : Reg) :
    Statement (.div dst src1 src2) :=
  secondDword_one .regdir rfl (by decide)

theorem Sys2Proof.Laws.SecondDword.mod (dst src1 src2 : Reg) :
    Statement (.mod dst src1 src2) :=
  secondDword_one .regdir rfl (by decide)

theorem Sys2Proof.Laws.SecondDword.and (dst src1 src2 : Reg) :
    Statement (.and dst src1 src2) :=
  secondDword_one .regdir rfl (by decide)

theorem Sys2Proof.Laws.SecondDword.or (dst src1 src2 : Reg) :
    Statement (.or dst src1 src2) :=
  secondDword_one .regdir rfl (by decide)

theorem Sys2Proof.Laws.SecondDword.xor (dst src1 src2 : Reg) :
    Statement (.xor dst src1 src2) :=
  secondDword_one .regdir rfl (by decide)

theorem Sys2Proof.Laws.SecondDword.not (dst src : Reg) :
    Statement (.not dst src) :=
  secondDword_one .regdir rfl (by decide)

theorem Sys2Proof.Laws.SecondDword.asl (dst src1 src2 : Reg) :
    Statement (.asl dst src1 src2) :=
  secondDword_one .regdir rfl (by decide)

theorem Sys2Proof.Laws.SecondDword.asr (dst src1 src2 : Reg) :
    Statement (.asr dst src1 src2) :=
  secondDword_one .regdir rfl (by decide)
end

