-- ==== Sys2Proof/Tests/Slice0.lean ====
section
/-!
SUPPORT. The implementer's own tests. Expected values come from spec/: words from the field positions of
30_encoding.md R71, results from 95_test_vectors.md.
-/
namespace Sys2Proof.Tests

open Sys2Proof.Machine

/-- A general register. -/
abbrev r (i : Fin 16) : Reg := .gpr i

/-! ## WellFormed: its one check, on the last number it accepts and the first it refuses -/

theorem test_wellFormed_number : (Instr.int 31).wellFormed = true := by
  decide

theorem test_illFormed_number : (Instr.int 32).wellFormed = false := by
  decide

/-! ## Decoding: a word for every constructor -/

theorem test_decode_int :
    decodeWords 0x00000000 0 = .ok (.int 0) ∧
    decodeWords 0x001F0000 0 = .ok (.int 31) ∧
    decodeWords 0x0006FFFF 0 = .ok (.int 6) := by
  decide

theorem test_decode_ret :
    decodeWords 0x01000000 0 = .ok (.ret) ∧
    decodeWords 0x011FFFFF 0 = .ok (.ret) := by
  decide

theorem test_decode_jmp :
    decodeWords 0x02C00000 0x100 = .ok (.jmpMemdir 0x100) ∧
    decodeWords 0x02430000 0 = .ok (.jmpRegind (r 3)) ∧
    decodeWords 0x02F10000 0x10 = .ok (.jmpRegdisp .pc 0x10) := by
  decide

theorem test_decode_call :
    decodeWords 0x03C00000 0x100 = .ok (.callMemdir 0x100) ∧
    decodeWords 0x03430000 0 = .ok (.callRegind (r 3)) ∧
    decodeWords 0x03F10000 0x10 = .ok (.callRegdisp .pc 0x10) := by
  decide

theorem test_decode_jz :
    decodeWords 0x04C00800 0x100 = .ok (.jzMemdir (r 1) 0x100) ∧
    decodeWords 0x04420800 0 = .ok (.jzRegind (r 1) (r 2)) ∧
    decodeWords 0x04F10800 0xFFFFFFF8 = .ok (.jzRegdisp (r 1) .pc 0xFFFFFFF8) := by
  decide

theorem test_decode_jnz :
    decodeWords 0x05C00800 0x100 = .ok (.jnzMemdir (r 1) 0x100) ∧
    decodeWords 0x05420800 0 = .ok (.jnzRegind (r 1) (r 2)) ∧
    decodeWords 0x05F10800 0xFFFFFFF8 = .ok (.jnzRegdisp (r 1) .pc 0xFFFFFFF8) := by
  decide

theorem test_decode_jgz :
    decodeWords 0x06C00800 0x100 = .ok (.jgzMemdir (r 1) 0x100) ∧
    decodeWords 0x06420800 0 = .ok (.jgzRegind (r 1) (r 2)) ∧
    decodeWords 0x06F10800 0xFFFFFFF8 = .ok (.jgzRegdisp (r 1) .pc 0xFFFFFFF8) := by
  decide

theorem test_decode_jgez :
    decodeWords 0x07C00800 0x100 = .ok (.jgezMemdir (r 1) 0x100) ∧
    decodeWords 0x07420800 0 = .ok (.jgezRegind (r 1) (r 2)) ∧
    decodeWords 0x07F10800 0xFFFFFFF8 = .ok (.jgezRegdisp (r 1) .pc 0xFFFFFFF8) := by
  decide

theorem test_decode_jlz :
    decodeWords 0x08C00800 0x100 = .ok (.jlzMemdir (r 1) 0x100) ∧
    decodeWords 0x08420800 0 = .ok (.jlzRegind (r 1) (r 2)) ∧
    decodeWords 0x08F10800 0xFFFFFFF8 = .ok (.jlzRegdisp (r 1) .pc 0xFFFFFFF8) := by
  decide

theorem test_decode_jlez :
    decodeWords 0x09C00800 0x100 = .ok (.jlezMemdir (r 1) 0x100) ∧
    decodeWords 0x09420800 0 = .ok (.jlezRegind (r 1) (r 2)) ∧
    decodeWords 0x09F10800 0xFFFFFFF8 = .ok (.jlezRegdisp (r 1) .pc 0xFFFFFFF8) := by
  decide

theorem test_decode_load :
    decodeWords 0x10800800 0x12345678 = .ok (.loadImm (r 1) 0x12345678) ∧
    decodeWords 0x10052000 0 = .ok (.loadRegdir (r 4) (r 5)) ∧
    decodeWords 0x10C00800 0x2000 = .ok (.loadMemdir (r 1) 0x2000) ∧
    decodeWords 0x10500800 0 = .ok (.loadRegind (r 1) .sp) ∧
    decodeWords 0x10E31000 4 = .ok (.loadRegdisp (r 2) (r 3) 4) := by
  decide

theorem test_decode_loadub :
    decodeWords 0x10800818 0x12345678 = .ok (.loadubImm (r 1) 0x12345678) ∧
    decodeWords 0x10052018 0 = .ok (.loadubRegdir (r 4) (r 5)) ∧
    decodeWords 0x10C00818 0x2000 = .ok (.loadubMemdir (r 1) 0x2000) ∧
    decodeWords 0x10500818 0 = .ok (.loadubRegind (r 1) .sp) ∧
    decodeWords 0x10E31018 4 = .ok (.loadubRegdisp (r 2) (r 3) 4) := by
  decide

theorem test_decode_loadsb :
    decodeWords 0x10800838 0x12345678 = .ok (.loadsbImm (r 1) 0x12345678) ∧
    decodeWords 0x10052038 0 = .ok (.loadsbRegdir (r 4) (r 5)) ∧
    decodeWords 0x10C00838 0x2000 = .ok (.loadsbMemdir (r 1) 0x2000) ∧
    decodeWords 0x10500838 0 = .ok (.loadsbRegind (r 1) .sp) ∧
    decodeWords 0x10E31038 4 = .ok (.loadsbRegdisp (r 2) (r 3) 4) := by
  decide

theorem test_decode_loaduw :
    decodeWords 0x10800808 0x12345678 = .ok (.loaduwImm (r 1) 0x12345678) ∧
    decodeWords 0x10052008 0 = .ok (.loaduwRegdir (r 4) (r 5)) ∧
    decodeWords 0x10C00808 0x2000 = .ok (.loaduwMemdir (r 1) 0x2000) ∧
    decodeWords 0x10500808 0 = .ok (.loaduwRegind (r 1) .sp) ∧
    decodeWords 0x10E31008 4 = .ok (.loaduwRegdisp (r 2) (r 3) 4) := by
  decide

theorem test_decode_loadsw :
    decodeWords 0x10800828 0x12345678 = .ok (.loadswImm (r 1) 0x12345678) ∧
    decodeWords 0x10052028 0 = .ok (.loadswRegdir (r 4) (r 5)) ∧
    decodeWords 0x10C00828 0x2000 = .ok (.loadswMemdir (r 1) 0x2000) ∧
    decodeWords 0x10500828 0 = .ok (.loadswRegind (r 1) .sp) ∧
    decodeWords 0x10E31028 4 = .ok (.loadswRegdisp (r 2) (r 3) 4) := by
  decide

theorem test_decode_store :
    decodeWords 0x11020800 0 = .ok (.storeRegdir (r 1) (r 2)) ∧
    decodeWords 0x11C00800 0x2000 = .ok (.storeMemdir (r 1) 0x2000) ∧
    decodeWords 0x11420800 0 = .ok (.storeRegind (r 1) (r 2)) ∧
    decodeWords 0x11E28800 8 = .ok (.storeRegdisp .pc (r 2) 8) := by
  decide

theorem test_decode_storeb :
    decodeWords 0x11020818 0 = .ok (.storebRegdir (r 1) (r 2)) ∧
    decodeWords 0x11C00818 0x2000 = .ok (.storebMemdir (r 1) 0x2000) ∧
    decodeWords 0x11420818 0 = .ok (.storebRegind (r 1) (r 2)) ∧
    decodeWords 0x11E28818 8 = .ok (.storebRegdisp .pc (r 2) 8) := by
  decide

theorem test_decode_storebSx :
    decodeWords 0x11020838 0 = .ok (.storebSxRegdir (r 1) (r 2)) ∧
    decodeWords 0x11C00838 0x2000 = .ok (.storebSxMemdir (r 1) 0x2000) ∧
    decodeWords 0x11420838 0 = .ok (.storebSxRegind (r 1) (r 2)) ∧
    decodeWords 0x11E28838 8 = .ok (.storebSxRegdisp .pc (r 2) 8) := by
  decide

theorem test_decode_storew :
    decodeWords 0x11020808 0 = .ok (.storewRegdir (r 1) (r 2)) ∧
    decodeWords 0x11C00808 0x2000 = .ok (.storewMemdir (r 1) 0x2000) ∧
    decodeWords 0x11420808 0 = .ok (.storewRegind (r 1) (r 2)) ∧
    decodeWords 0x11E28808 8 = .ok (.storewRegdisp .pc (r 2) 8) := by
  decide

theorem test_decode_storewSx :
    decodeWords 0x11020828 0 = .ok (.storewSxRegdir (r 1) (r 2)) ∧
    decodeWords 0x11C00828 0x2000 = .ok (.storewSxMemdir (r 1) 0x2000) ∧
    decodeWords 0x11420828 0 = .ok (.storewSxRegind (r 1) (r 2)) ∧
    decodeWords 0x11E28828 8 = .ok (.storewSxRegdisp .pc (r 2) 8) := by
  decide

theorem test_decode_push :
    decodeWords 0x20030000 0 = .ok (.push (r 3)) ∧
    decodeWords 0x20100000 0 = .ok (.push .sp) := by
  decide

theorem test_decode_pop :
    decodeWords 0x21040000 0 = .ok (.pop (r 4)) ∧
    decodeWords 0x21110000 0 = .ok (.pop .pc) := by
  decide

theorem test_decode_add :
    decodeWords 0x30042980 0 = .ok (.add (r 4) (r 5) (r 6)) ∧
    decodeWords 0x30117C00 0 = .ok (.add .pc (r 15) .sp) := by
  decide

theorem test_decode_sub :
    decodeWords 0x31042980 0 = .ok (.sub (r 4) (r 5) (r 6)) ∧
    decodeWords 0x31117C00 0 = .ok (.sub .pc (r 15) .sp) := by
  decide

theorem test_decode_mul :
    decodeWords 0x32042980 0 = .ok (.mul (r 4) (r 5) (r 6)) ∧
    decodeWords 0x32117C00 0 = .ok (.mul .pc (r 15) .sp) := by
  decide

theorem test_decode_div :
    decodeWords 0x33042980 0 = .ok (.div (r 4) (r 5) (r 6)) ∧
    decodeWords 0x33117C00 0 = .ok (.div .pc (r 15) .sp) := by
  decide

theorem test_decode_mod :
    decodeWords 0x34042980 0 = .ok (.mod (r 4) (r 5) (r 6)) ∧
    decodeWords 0x34117C00 0 = .ok (.mod .pc (r 15) .sp) := by
  decide

theorem test_decode_and :
    decodeWords 0x35042980 0 = .ok (.and (r 4) (r 5) (r 6)) ∧
    decodeWords 0x35117C00 0 = .ok (.and .pc (r 15) .sp) := by
  decide

theorem test_decode_or :
    decodeWords 0x36042980 0 = .ok (.or (r 4) (r 5) (r 6)) ∧
    decodeWords 0x36117C00 0 = .ok (.or .pc (r 15) .sp) := by
  decide

theorem test_decode_xor :
    decodeWords 0x37042980 0 = .ok (.xor (r 4) (r 5) (r 6)) ∧
    decodeWords 0x37117C00 0 = .ok (.xor .pc (r 15) .sp) := by
  decide

theorem test_decode_not :
    decodeWords 0x38011000 0 = .ok (.not (r 1) (r 2)) ∧
    decodeWords 0x380117C0 0 = .ok (.not (r 1) (r 2)) := by
  decide

theorem test_decode_asl :
    decodeWords 0x39042980 0 = .ok (.asl (r 4) (r 5) (r 6)) ∧
    decodeWords 0x39117C00 0 = .ok (.asl .pc (r 15) .sp) := by
  decide

theorem test_decode_asr :
    decodeWords 0x3A042980 0 = .ok (.asr (r 4) (r 5) (r 6)) ∧
    decodeWords 0x3A117C00 0 = .ok (.asr .pc (r 15) .sp) := by
  decide

/-! ## Decoding: rejections by name (95_test_vectors.md section 7) -/

theorem test_reject_opcode :
    decodeWords 0x0A000000 0 = .error .undefinedOpcode ∧
    decodeWords 0xFF000000 0 = .error .undefinedOpcode ∧
    decodeWords 0x12345678 0 = .error .undefinedOpcode ∧
    decodeWords 0x3B0110C0 0 = .error .undefinedOpcode ∧
    decodeWords 0x0A200000 0 = .error .undefinedOpcode := by
  decide

theorem test_reject_mode :
    decodeWords 0x02200000 0 = .error .undefinedMode ∧
    decodeWords 0x10600800 0 = .error .undefinedMode ∧
    decodeWords 0x30A110C0 0 = .error .undefinedMode ∧
    decodeWords 0x02320000 0 = .error .undefinedMode := by
  decide

theorem test_reject_mode_not_accepted :
    decodeWords 0x02800000 0x100 = .error .modeNotAccepted ∧
    decodeWords 0x02030000 0 = .error .modeNotAccepted ∧
    decodeWords 0x11800800 0x100 = .error .modeNotAccepted ∧
    decodeWords 0x20430000 0 = .error .modeNotAccepted ∧
    decodeWords 0x30C110C0 0 = .error .modeNotAccepted ∧
    decodeWords 0x00460000 0 = .error .modeNotAccepted ∧
    decodeWords 0x01C00000 0 = .error .modeNotAccepted := by
  decide

theorem test_reject_register :
    decodeWords 0x20120000 0 = .error .undefinedRegister ∧
    decodeWords 0x300117C0 0 = .error .undefinedRegister ∧
    decodeWords 0x10520800 0 = .error .undefinedRegister ∧
    decodeWords 0x10029800 0 = .error .undefinedRegister ∧
    decodeWords 0x04C09000 0x200 = .error .undefinedRegister := by
  decide

theorem test_reject_type :
    decodeWords 0x10800810 5 = .error .undefinedDataType ∧
    decodeWords 0x10800820 5 = .error .undefinedDataType ∧
    decodeWords 0x11420830 0 = .error .undefinedDataType := by
  decide

theorem test_unused_bits :
    decodeWords 0x10DF0800 0x2000 = .ok (.loadMemdir (r 1) 0x2000) ∧
    decodeWords 0x02DFFFFF 0x200 = .ok (.jmpMemdir 0x200) ∧
    decodeWords 0x300110D0 0 = .ok (.add (r 1) (r 2) (r 3)) := by
  decide

/-- 95_test_vectors.md section 2: the bytes of LOAD R1, #0x12345678, with one byte after them. -/
theorem test_decode_bytes :
    decode [0x00, 0x08, 0x80, 0x10, 0x78, 0x56, 0x34, 0x12, 0xAB] =
      .ok (.loadImm (r 1) 0x12345678, [0xAB]) ∧
    decode [0x00, 0x08, 0x80, 0x10, 0x78] = .error .tooFewBytes := by
  decide

theorem test_encode_bytes :
    encodeBytes (.loadRegdisp (r 2) (r 3) 4) = [0x00, 0x10, 0xE3, 0x10, 4, 0, 0, 0] ∧
    encodeBytes (.storebMemdir (r 1) 32) = [0x18, 0x08, 0xC0, 0x11, 0x20, 0, 0, 0] ∧
    encodeBytes (.sub (r 1) .pc .sp) = [0x00, 0x8C, 0x01, 0x31] := by
  decide

theorem test_table_word :
    decodeTableWord 32 0x02C00000 = some (.jmpMemdir 0) ∧
    decodeTableWord 64 0x0000010002C00000 = some (.jmpMemdir 0x100) ∧
    decodeTableWord 32 0x3B000000 = none := by
  decide

/-! ## One instruction: helpers -/

/-- The start state of 95_test_vectors.md: PC 0x100, SP 0x1000, IVT[3] = 0x500. -/
def vec : State :=
  { State.reset with sp := 0x1000, pc := 0x100, mem := [(12, 0), (13, 5), (14, 0), (15, 0)] }

/-- Bytes put into storage. -/
def poke (a : Nat) (bs : List Byte) (s : State) : State :=
  match bs with
  | [] => s
  | b :: rest => poke (a + 1) rest { s with mem := s.mem.store a b }

/-- The start state of the load vectors. -/
def data : State := poke 0x2000 [0xB3, 0xA2, 0x91, 0x80] vec

/-- Bytes of storage. -/
def bytes (s : State) (a : Word) (n : Nat) : List Byte :=
  (List.range n).map (fun k => s.byteAt (a + BitVec.ofNat 32 k))

/-- What a next state shows. -/
def after {α : Type} (o : Host.Outcome State Fault Refusal) (f : State → α) : Option α :=
  match o with
  | .next t => some (f t)
  | .fault _ => none
  | .refused _ => none

/-- Why there is no next state. -/
def stopOf (o : Host.Outcome State Fault Refusal) : Option (Fault ⊕ Refusal) :=
  match o with
  | .next _ => none
  | .fault e => some (.inl e)
  | .refused e => some (.inr e)

/-- The five values of 40_control_flow.md's table. -/
def boundaries {α : Type} (f : Word → α) : List α :=
  [f 0, f 1, f 0x7FFFFFFF, f 0x80000000, f 0xFFFFFFFF]

/-- R1 after OP R1, R2, R3. -/
def alu3 (op : Reg → Reg → Reg → Instr) (a b : Word) : Option Word :=
  after (exec (op (r 1) (r 2) (r 3)) ((vec.setReg (r 2) a).setReg (r 3) b)) (·.reg (r 1))

/-! ## One instruction: the vectors -/

/-- 95_test_vectors.md CF1. -/
theorem test_int_enters :
    after (exec (.int 6) (poke 0x18 [0, 4, 0, 0] vec)) (fun t => (t.sp, t.pc, t.inIntr, t.intrSP, bytes t 0x1004 4)) = some (0x1004, 0x400, true, 0x1004, [4, 1, 0, 0]) := by
  decide

/-- 95_test_vectors.md CF3. -/
theorem test_int_0_halts :
    after (exec (.int 0) { vec with inIntr := true }) (fun t => (t.halted, t.pc, t.sp, t.inIntr)) = some (true, 0x104, 0x1000, true) := by
  decide

/-- 95_test_vectors.md CF4, CF5. -/
theorem test_int_stops :
    stopOf (exec (.int 8) vec) = some (.inr .entryOverDevice) ∧
    stopOf (exec (.int 6) { vec with inIntr := true }) = some (.inl .nestedInterrupt) := by
  decide

/-- 95_test_vectors.md CF12. -/
theorem test_jmp_pc_relative :
    after (exec (.jmpRegdisp .pc 0xFFFFFFF8) vec) (fun t => (t.pc, t.sp)) = some (0x100, 0x1000) := by
  decide

/-- 95_test_vectors.md CF15. -/
theorem test_jmp_sp :
    after (exec (.jmpRegind .sp) vec) (fun t => (t.pc)) = some (0x1000) := by
  decide

/-- 95_test_vectors.md CF18. -/
theorem test_call_sp :
    after (exec (.callRegdisp .sp 0x10) vec) (fun t => (t.pc, t.sp, bytes t 0x1004 4)) = some (0x1010, 0x1004, [8, 1, 0, 0]) := by
  decide

/-- 95_test_vectors.md CF17. -/
theorem test_call_register :
    after (exec (.callRegind (r 5)) (vec.setReg (r 5) 0x300)) (fun t => (t.pc, t.sp, bytes t 0x1004 4)) = some (0x300, 0x1004, [4, 1, 0, 0]) := by
  decide

/-- 95_test_vectors.md CF21. -/
theorem test_ret_ends_routine :
    after (exec (.ret) { poke 0x1004 [8, 1, 0, 0] vec with sp := 0x1004, inIntr := true, intrSP := 0x1004 }) (fun t => (t.pc, t.sp, t.inIntr)) = some (0x108, 0x1000, false) := by
  decide

/-- 95_test_vectors.md CF22. -/
theorem test_ret_in_subroutine :
    after (exec (.ret) { poke 0x1008 [8, 1, 0, 0] vec with sp := 0x1008, inIntr := true, intrSP := 0x1004 }) (fun t => (t.pc, t.sp, t.inIntr)) = some (0x108, 0x1004, true) := by
  decide

/-- 95_test_vectors.md section 3, the table of conditional jumps, column JZ. -/
theorem test_jz_boundaries :
    boundaries (fun v => after (exec (.jzMemdir (r 1) 0x200) (vec.setReg (r 1) v)) (·.pc)) =
      [some 0x200, some 0x108, some 0x108, some 0x108, some 0x108] := by
  decide

/-- 95_test_vectors.md section 3, the table of conditional jumps, column JNZ. -/
theorem test_jnz_boundaries :
    boundaries (fun v => after (exec (.jnzMemdir (r 1) 0x200) (vec.setReg (r 1) v)) (·.pc)) =
      [some 0x108, some 0x200, some 0x200, some 0x200, some 0x200] := by
  decide

/-- 95_test_vectors.md section 3, the table of conditional jumps, column JGZ. -/
theorem test_jgz_boundaries :
    boundaries (fun v => after (exec (.jgzMemdir (r 1) 0x200) (vec.setReg (r 1) v)) (·.pc)) =
      [some 0x108, some 0x200, some 0x200, some 0x108, some 0x108] := by
  decide

/-- 95_test_vectors.md section 3, the table of conditional jumps, column JGEZ. -/
theorem test_jgez_boundaries :
    boundaries (fun v => after (exec (.jgezMemdir (r 1) 0x200) (vec.setReg (r 1) v)) (·.pc)) =
      [some 0x200, some 0x200, some 0x200, some 0x108, some 0x108] := by
  decide

/-- 95_test_vectors.md section 3, the table of conditional jumps, column JLZ. -/
theorem test_jlz_boundaries :
    boundaries (fun v => after (exec (.jlzMemdir (r 1) 0x200) (vec.setReg (r 1) v)) (·.pc)) =
      [some 0x108, some 0x108, some 0x108, some 0x200, some 0x200] := by
  decide

/-- 95_test_vectors.md section 3, the table of conditional jumps, column JLEZ. -/
theorem test_jlez_boundaries :
    boundaries (fun v => after (exec (.jlezMemdir (r 1) 0x200) (vec.setReg (r 1) v)) (·.pc)) =
      [some 0x200, some 0x108, some 0x108, some 0x200, some 0x200] := by
  decide

/-- 95_test_vectors.md LS6. -/
theorem test_load_old_base :
    after (exec (.loadRegind (r 1) (r 1)) (data.setReg (r 1) 0x2000)) (fun t => (t.reg (r 1), t.pc)) = some (0x8091A2B3, 0x104) := by
  decide

/-- 95_test_vectors.md LS8. -/
theorem test_load_wraps :
    after (exec (.loadMemdir (r 1) 0xFFFFFFFE) (poke 0xFFFFFFFE [0xAA, 0xBB] (poke 0 [0, 0xDD] vec))) (fun t => (t.reg (r 1))) = some (0xDD00BBAA) := by
  decide

/-- 95_test_vectors.md LS29. -/
theorem test_loadub_key :
    after (exec (.loadubMemdir (r 1) 36) { vec with keyData := 0x61, keyUnread := true }) (fun t => (t.reg (r 1), t.keyUnread, t.keyData)) = some (0x61, false, 0x61) := by
  decide

/-- 95_test_vectors.md LS19. -/
theorem test_loadub_register :
    after (exec (.loadubRegdir (r 1) (r 2)) (vec.setReg (r 2) 0x000181FF)) (fun t => (t.reg (r 1))) = some (0xFF) := by
  decide

/-- 95_test_vectors.md LS10. -/
theorem test_loadsb_memory :
    after (exec (.loadsbMemdir (r 1) 0x2000) data) (fun t => (t.reg (r 1), t.pc)) = some (0xFFFFFFB3, 0x108) := by
  decide

/-- 95_test_vectors.md LS16. -/
theorem test_loadsb_constant :
    after (exec (.loadsbImm (r 1) 0x1234F6F5) vec) (fun t => (t.reg (r 1))) = some (0xFFFFFFF5) := by
  decide

/-- 95_test_vectors.md LS11. -/
theorem test_loaduw_memory :
    after (exec (.loaduwMemdir (r 1) 0x2000) data) (fun t => (t.reg (r 1))) = some (0x0000A2B3) := by
  decide

/-- 95_test_vectors.md LS17. -/
theorem test_loaduw_constant :
    after (exec (.loaduwImm (r 1) 0x1234F6F5) vec) (fun t => (t.reg (r 1))) = some (0x0000F6F5) := by
  decide

/-- 95_test_vectors.md LS12. -/
theorem test_loadsw_memory :
    after (exec (.loadswMemdir (r 1) 0x2000) data) (fun t => (t.reg (r 1))) = some (0xFFFFA2B3) := by
  decide

/-- 95_test_vectors.md LS22. -/
theorem test_loadsw_register :
    after (exec (.loadswRegdir (r 1) (r 2)) (vec.setReg (r 2) 0x000181FF)) (fun t => (t.reg (r 1))) = some (0xFFFF81FF) := by
  decide

/-- 95_test_vectors.md ST10. -/
theorem test_store_over_output :
    after (exec (.storeMemdir (r 1) 30) (vec.setReg (r 1) 0x44434241)) (fun t => (t.out, bytes t 30 2, bytes t 33 1, t.pc)) = some ([0x43], [0x41, 0x42], [0x44], 0x108) := by
  decide

/-- 95_test_vectors.md ST19. -/
theorem test_store_pc :
    after (exec (.storeMemdir .pc 0x2000) vec) (fun t => (bytes t 0x2000 4)) = some ([8, 1, 0, 0]) := by
  decide

/-- 95_test_vectors.md ST6. -/
theorem test_storeb_memory :
    after (exec (.storebRegind (r 1) (r 2)) ((data.setReg (r 1) 0x12345678).setReg (r 2) 0x2001)) (fun t => (bytes t 0x2000 4)) = some ([0xB3, 0x78, 0x91, 0x80]) := by
  decide

/-- 95_test_vectors.md ST13, ST14. -/
theorem test_storeb_registers :
    after (exec (.storebRegdir (r 1) (r 2)) (vec.setReg (r 1) 0x123456F8)) (fun t => (t.reg (r 2), after (exec (.storebSxRegdir (r 1) (r 2)) (vec.setReg (r 1) 0x123456F8)) (·.reg (r 2)))) = some (0xF8, some 0xFFFFFFF8) := by
  decide

/-- 95_test_vectors.md ST8. -/
theorem test_storew_memory :
    after (exec (.storewMemdir (r 1) 0x2003) (vec.setReg (r 1) 0x12345678)) (fun t => (bytes t 0x2003 2)) = some ([0x78, 0x56]) := by
  decide

/-- 95_test_vectors.md ST15, ST16. -/
theorem test_storew_registers :
    after (exec (.storewRegdir (r 1) (r 2)) (vec.setReg (r 1) 0x1234F678)) (fun t => (t.reg (r 2), after (exec (.storewSxRegdir (r 1) (r 2)) (vec.setReg (r 1) 0x1234F678)) (·.reg (r 2)))) = some (0xF678, some 0xFFFFF678) := by
  decide

/-- 95_test_vectors.md SK3. -/
theorem test_push_sp :
    after (exec (.push .sp) vec) (fun t => (t.sp, bytes t 0x1004 4, t.pc)) = some (0x1004, [0, 0x10, 0, 0], 0x104) := by
  decide

/-- 95_test_vectors.md SK8. -/
theorem test_push_to_output :
    after (exec (.push (r 1)) { vec.setReg (r 1) 0x44434241 with sp := 28 }) (fun t => (t.sp, t.out, bytes t 33 3)) = some (32, [0x41], [0x42, 0x43, 0x44]) := by
  decide

/-- 95_test_vectors.md SK5. -/
theorem test_pop_sp :
    after (exec (.pop .sp) { poke 0x1004 [0, 0x30, 0, 0] vec with sp := 0x1004 }) (fun t => (t.sp, t.pc)) = some (0x3000, 0x104) := by
  decide

/-- 95_test_vectors.md SK7. -/
theorem test_pop_pc_keeps_routine :
    after (exec (.pop .pc) { poke 0x1004 [0, 4, 0, 0] vec with sp := 0x1004, inIntr := true, intrSP := 0x1004 }) (fun t => (t.pc, t.sp, t.inIntr)) = some (0x400, 0x1000, true) := by
  decide

/-- 95_test_vectors.md section 6, ADD. -/
theorem test_add :
    alu3 .add 0x7FFFFFFF 1 = some 0x80000000 ∧
    alu3 .add 0xFFFFFFFF 1 = some 0 := by
  decide

/-- 95_test_vectors.md section 6, SUB. -/
theorem test_sub :
    alu3 .sub 5 7 = some 0xFFFFFFFE ∧
    alu3 .sub 0x80000000 1 = some 0x7FFFFFFF := by
  decide

/-- 95_test_vectors.md section 6, MUL. -/
theorem test_mul :
    alu3 .mul 0x12345678 0x9ABCDEF0 = some 0x242D2080 ∧
    alu3 .mul 6 0xFFFFFFFD = some 0xFFFFFFEE := by
  decide

/-- 95_test_vectors.md section 6, DIV. -/
theorem test_div :
    alu3 .div 0xFFFFFFF9 2 = some 0xFFFFFFFD ∧
    alu3 .div 7 0xFFFFFFFE = some 0xFFFFFFFD ∧
    alu3 .div 0x80000000 0xFFFFFFFF = some 0x80000000 ∧
    alu3 .div 1 0x80000000 = some 0 := by
  decide

/-- 95_test_vectors.md section 6, MOD. -/
theorem test_mod :
    alu3 .mod 0xFFFFFFF9 2 = some 0xFFFFFFFF ∧
    alu3 .mod 7 0xFFFFFFFE = some 1 ∧
    alu3 .mod 0x80000000 0xFFFFFFFF = some 0 ∧
    alu3 .mod 1 0x80000000 = some 1 := by
  decide

/-- 95_test_vectors.md section 6, AND. -/
theorem test_and :
    alu3 .and 0xF0F0F0F0 0x0FF00FF0 = some 0x00F000F0 := by
  decide

/-- 95_test_vectors.md section 6, OR. -/
theorem test_or :
    alu3 .or 0xF0F0F0F0 0x0FF00FF0 = some 0xFFF0FFF0 := by
  decide

/-- 95_test_vectors.md section 6, XOR. -/
theorem test_xor :
    alu3 .xor 0xF0F0F0F0 0x0FF00FF0 = some 0xFF00FF00 := by
  decide

/-- 95_test_vectors.md section 6, ASL. -/
theorem test_asl :
    alu3 .asl 0x80000001 4 = some 0x10 ∧
    alu3 .asl 1 31 = some 0x80000000 ∧
    alu3 .asl 0x12345678 33 = some 0 ∧
    alu3 .asl 0xFFFFFFFF 0xFFFFFFFF = some 0 := by
  decide

/-- 95_test_vectors.md section 6, ASR. -/
theorem test_asr :
    alu3 .asr 0x80000000 4 = some 0xF8000000 ∧
    alu3 .asr 0xFFFFFFF9 1 = some 0xFFFFFFFC ∧
    alu3 .asr 0x80000000 32 = some 0xFFFFFFFF ∧
    alu3 .asr 0x7FFFFFFF 32 = some 0 ∧
    alu3 .asr 0x80000000 0xFFFFFFFF = some 0xFFFFFFFF := by
  decide

/-- 95_test_vectors.md AL1. -/
theorem test_not :
    after (exec (.not (r 1) (r 2)) (vec.setReg (r 2) 0x0000FFFF)) (fun t => (t.reg (r 1), t.pc)) = some (0xFFFF0000, 0x104) := by
  decide

/-- 95_test_vectors.md AL5. -/
theorem test_add_pc :
    after (exec (.add .pc .pc (r 2)) (vec.setReg (r 2) 0x10)) (fun t => (t.pc)) = some (0x114) := by
  decide

/-- 95_test_vectors.md AL8. -/
theorem test_div_by_zero :
    after (exec (.div (r 1) (r 2) (r 3)) ((vec.setReg (r 1) 0x55).setReg (r 2) 5)) (fun t => (t.reg (r 1), t.sp, bytes t 0x1004 4, t.inIntr, t.intrSP, t.pc)) = some (0x55, 0x1004, [0, 1, 0, 0], true, 0x1004, 0x500) := by
  decide

/-- 95_test_vectors.md AL9, AL10. -/
theorem test_mod_by_zero :
    after (exec (.mod (r 1) (r 2) (r 3)) vec) (fun t => (t.pc, bytes t 0x1004 4)) =
      some (0x500, [0, 1, 0, 0]) ∧
    stopOf (exec (.mod (r 1) (r 2) (r 3)) { vec with inIntr := true }) = some (.inl .nestedInterrupt) := by
  decide

/-! ## Steps -/

/-- The first instruction after reset: JMP 0x100. -/
theorem test_first_step :
    after (step (State.reset.withFetchWord 64 0x0000010002C00000)) (·.pc) = some 0x100 := by
  decide

/-- The first instruction after reset with stack reads at a free SP still completes: RET, POP and CALL. -/
theorem test_first_step_stack :
    after (step (State.reset.withFetchWord 32 0x01000000)) (·.halted) = some false ∧
    after (step (State.reset.withFetchWord 32 0x21040000)) (·.pc) = some 4 ∧
    after (step (State.reset.withFetchWord 32 0x03C00000)) (·.pc) = some 0 := by
  decide

/-- 95_test_vectors.md DE1, DE26: an undefined opcode enters the error routine, and ends the run inside
one. -/
theorem test_step_undefined_opcode :
    after (step (poke 0x100 [0, 0, 0, 0x0A] vec)) (fun t => (t.pc, t.sp, bytes t 0x1004 4, t.inIntr)) =
      some (0x500, 0x1004, [0, 1, 0, 0], true) ∧
    stopOf (step { poke 0x100 [0, 0, 0x3F, 0x0A] vec with inIntr := true }) =
      some (.inl .nestedInterrupt) := by
  decide

/-- 95_test_vectors.md DE27, DE28, DE29: a fetch over a device byte is refused. -/
theorem test_step_fetch_device :
    stopOf (step { poke 0x1D [0x00, 0x08, 0x80] vec with pc := 0x1D }) = some (.inr .fetchFromDevice) ∧
    stopOf (step { poke 0x1C [0x00, 0x08, 0x80, 0x10] vec with pc := 0x1C }) =
      some (.inr .fetchFromDevice) ∧
    stopOf (step { vec with pc := 0x24 }) = some (.inr .fetchFromDevice) := by
  decide

/-- 95_test_vectors.md P4 scenario B, steps 6 and 8: the timer, then the key, each a step of its own. -/
theorem test_step_deliveries :
    after (step { poke 0x10 [0xA0, 1, 0, 0] vec with host := [⟨true, [], .timer⟩] })
      (fun t => (t.pc, t.timerPending, t.inIntr, bytes t 0x1004 4)) =
      some (0x1A0, false, true, [0, 1, 0, 0]) ∧
    after (step { poke 0x14 [0xB0, 1, 0, 0] vec with host := [⟨false, [0x78], .keyboard⟩] })
      (fun t => (t.pc, t.keyData, t.keyUnread, t.keyQueue)) = some (0x1B0, 0x78, true, []) := by
  decide

/-- 60_exceptions.md R186, R190: inside a routine nothing is delivered, and the tick stays pending. -/
theorem test_step_held :
    after (step { poke 0x100 [0, 0, 0x43, 2] vec with inIntr := true, host := [⟨true, [0x78], .timer⟩] })
      (fun t => (t.pc, t.timerPending, t.keyQueue)) = some (0, true, [0x78]) := by
  decide

/-- 60_exceptions.md R193: a halted machine takes no step. -/
theorem test_step_halted : stopOf (step { vec with halted := true }) = some (.inl .halted) := by
  decide

/-! ## The assembler (95_test_vectors.md section 8) -/

open Sys2Proof.Assembler

/-- The bytes of source lines assembled from 0x200 on, read back at an address. -/
def assembled (lines : List String) (a n : Nat) : List (Option Byte) :=
  match assembleText (fun _ => 0x200) lines with
  | .ok m => (List.range n).map (fun k => Memory.lookup m (a + k))
  | .error _ => []

theorem test_asm_data :
    assembled ["DW 0x1234, 0xFFFF ; two words"] 0x200 4 = [some 0x34, some 0x12, some 0xFF, some 0xFF] ∧
    assembled ["DW 2 DUP 0x0102"] 0x200 4 = [some 2, some 1, some 2, some 1] ∧
    assembled ["DB 4 DUP ?, 'A'"] 0x200 5 = [none, none, none, none, some 65] := by
  decide

theorem test_asm_symbols :
    assembled ["x: DD x"] 0x200 4 = [some 0, some 2, some 0, some 0] ∧
    assembled ["ORG 0x300", "y: DD $"] 0x300 4 = [some 0, some 3, some 0, some 0] := by
  decide

/-- 30_encoding.md R101, R112: a symbol may be used before the line that defines it, in a DEF, an ORG and a count,
and in a chain of them; a circle has no value, and a name is defined once. -/
theorem test_asm_forward :
    assembled ["ORG at", "DB n DUP 7", "last: DD last", "at DEF base + 4", "base DEF 0x300",
        "n DEF 2"] 0x304 6 = [some 7, some 7, some 6, some 3, some 0, some 0] ∧
    assembled ["size DEF stop - start", "start: DB 1, 2, 3", "stop: DB size"] 0x203 1 = [some 3] ∧
    assembleText (fun _ => 0) ["x DEF y", "y DEF x", "DD x"] = .error (.undefinedSymbol "y") ∧
    assembleText (fun _ => 0) ["x DEF 1", "x: DD 2"] = .error (.duplicateSymbol "x") := by
  decide

/-- 20_memory.md R56, 30_encoding.md R115: bss takes its space and has no value, and sections with numbers are
distinct. -/
theorem test_asm_sections :
    assembled ["bss", "DB 5, 6", "y: DB ?", "ORG 0x300", "data.1", "ORG y", "DB 8"] 0x200 3 =
      [none, none, some 8] ∧
    assembled ["data.1", "ORG 0x210", "data", "DB 1", "data.01", "DB 2"] 0x210 1 = [some 2] := by
  decide

theorem test_asm_code :
    assembled ["N DEF 5", "LOAD R1, #(N*2)+1"] 0x200 8 =
      [some 0, some 8, some 0x80, some 0x10, some 0x0B, some 0, some 0, some 0] ∧
    assembled ["loop: JMP loop", "JMP [PC + ((loop - $) - 8)]"] 0x208 8 =
      [some 0, some 0, some 0xF1, some 2, some 0xF0, some 0xFF, some 0xFF, some 0xFF] := by
  decide

/-- Lines of program P1 (95_test_vectors.md section 9), at their own addresses. -/
theorem test_asm_program :
    assembled ["ORG 0x118", "loop: ADD R1, R1, R2", "SUB R2, R2, R3", "JNZ R2, loop",
        "STORE R1, 0x200"] 0x118 24 =
      [some 0x80, some 0x08, some 0x01, some 0x30, some 0xC0, some 0x10, some 0x02, some 0x31,
       some 0x00, some 0x10, some 0xC0, some 0x05, some 0x18, some 0x01, some 0, some 0,
       some 0x00, some 0x08, some 0xC0, some 0x11, some 0, some 2, some 0, some 0] := by
  decide

/-- What is read back from a text, a chain without parentheses, and two lines that are not read. -/
theorem test_asm_read :
    readLine "lab: LOADSB SP, [R3 + L - $ - 8]".toList =
      .ok ⟨some "lab", .code (.load .sbyte .sp
        (.indDisp (r 3) (.sub (.sub (.sym "L") .here) (.lit 8))))⟩ ∧
    readLine "DB 1 + 2 * 3".toList = .error .precedenceOpen ∧
    readLine "STORE R1".toList = .error .notAStatement ∧
    readLine "text.2".toList = .ok ⟨none, .enter ⟨.text, some 2⟩⟩ := by
  decide

theorem test_asm_literals :
    literalValue ['0', 'x', '1', 'F'] = some 31 ∧ literalValue ['0', 'b', '1', '0', '1'] = some 5 ∧
    literalValue ['-', '5'] = some (-5) ∧ literalValue ['1', '2', '3'] = some 123 ∧
    literalValue [Char.ofNat 39, 'A', Char.ofNat 39] = some 65 ∧
    literalValue [Char.ofNat 39, Char.ofNat 92, 'n', Char.ofNat 39] = some 10 ∧
    literalValue [] = none ∧ literalValue ['1', 'A'] = none := by
  decide

/-- C's escapes (30_encoding.md R109): a quote, octal and hexadecimal digits, and codes that are none. -/
theorem test_asm_escapes :
    escapeValue ['?'] = some 63 ∧ escapeValue [Char.ofNat 39] = some 39 ∧ escapeValue ['0'] = some 0 ∧
    escapeValue ['1', '0', '1'] = some 65 ∧ escapeValue ['x', '4', '1'] = some 65 ∧
    escapeValue ['x'] = none ∧ escapeValue ['8'] = none ∧ escapeValue ['4', '0', '0'] = none ∧
    assembled ["DB '\\x41', '\\'', '\\101' ; 'three'"] 0x200 3 = [some 65, some 39, some 65] := by
  decide

/-- Spellings of 30_encoding.md R105, R111 and R115. -/
theorem test_asm_text :
    Stmt.text ⟨some "loop", .code (.load .ubyte (r 1) (.indDisp .pc (.lit 16)))⟩ =
      "loop: LOADUB R1, [PC + 16]" ∧
    Stmt.text ⟨none, .data .dw [.dup (.lit 2) (.lit (-5)), .undef]⟩ = "DW 2 DUP -5, ?" ∧
    Stmt.text ⟨none, .enter ⟨.text, some 2⟩⟩ = "text.2" := by
  decide

theorem test_asm_registers :
    registerNamed "R15" = some (r 15) ∧ registerNamed "SP" = some .sp ∧
    registerNamed "PC" = some .pc ∧ registerNamed "R16" = none := by
  decide

/-! ## Witnesses: states and operands that meet the hypotheses of the statements -/

/-- An outcome that shows something is a next state. -/
theorem after_next {α : Type} {o : Host.Outcome State Fault Refusal} {f : State → α} {a : α}
    (h : after o f = some a) : ∃ t, o = .next t ∧ f t = a := by
  cases o with
  | next t =>
    simp only [after, Option.some.injEq] at h
    exact ⟨t, rfl, h⟩
  | fault e => simp [after] at h
  | refused e => simp [after] at h

/-- The test machine about to run the given bytes. -/
def about (bs : List Byte) : State := poke 0x100 bs vec

/-- RET about to run at the entry level of a routine. -/
def leaving : State :=
  { poke 0x100 [0, 0, 0, 1] vec with inIntr := true, sp := 0x1004, intrSP := 0x1004 }

/-- STOREB R0, 32 about to run. -/
def printing : State := about [0x18, 0, 0xC0, 0x11, 32, 0, 0, 0]

/-- A key about to be delivered, one more waiting. -/
def keyed : State := { vec with keyQueue := [0x61], host := [⟨false, [0x62], .keyboard⟩] }

/-- ResetMemoryIsWellFormed: a canonical image. -/
theorem witness_image_wf : Memory.wf [(0, 1), (31, 2), (33, 3), (4294967295, 4)] = true := by decide

/-- EveryStepKeepsMemoryWellFormed: a canonical memory and a step that stores. -/
theorem witness_wf_step :
    printing.wf ∧ ∃ t, step printing = .next t ∧ t.out = [0] :=
  ⟨by show printing.mem.wf = true; decide, after_next (by decide)⟩

/-- DecodeOfEncodeIsTheInstruction: the largest number of an INT. -/
theorem witness_wellFormed : (Instr.int 31).wellFormed = true := by decide

/-- StepRunsTheDecodedInstruction, a one-dword instruction whose next bytes are device bytes. -/
theorem witness_step_one :
    RunsInstruction { poke 28 [0, 0, 0x43, 2] vec with pc := 28 } ∧
    (decode ((List.range 8).map (fun k =>
        State.byteAt (poke 28 [0, 0, 0x43, 2] vec) (28 + BitVec.ofNat 32 k)))).toOption.map (·.1) =
      some (.jmpRegind (r 3)) ∧
    (∀ k, k < 8 - 4 → (28 : Word) + BitVec.ofNat 32 k ≠ 32 ∧ (28 : Word) + BitVec.ofNat 32 k ≠ 36) :=
  ⟨⟨rfl, rfl⟩, by decide, by decide⟩

/-- StepRunsTheDecodedInstruction, a two-dword instruction. -/
theorem witness_step_two :
    RunsInstruction printing ∧
    decode ((List.range 8).map (fun k => printing.byteAt (0x100 + BitVec.ofNat 32 k))) =
      .ok (.storebMemdir (r 0) 32, []) ∧
    (∀ k, k < 8 - 0 → (0x100 : Word) + BitVec.ofNat 32 k ≠ 32 ∧
      (0x100 : Word) + BitVec.ofNat 32 k ≠ 36) :=
  ⟨⟨rfl, rfl⟩, by decide, by decide⟩

/-- UndefinedEncodingRaisesError and DecodeRejectsExactlyTheUndefinedEncodings: words at the ends of the ranges
of R85. -/
theorem witness_undefined_opcodes :
    ([0x0A000000, 0x0F000000, 0x12000000, 0x1F000000, 0x22000000, 0x2F000000, 0x3B000000,
      0xFF000000] : List Word).all badOpcode = true := by
  decide

/-- The other four conditions. -/
theorem witness_undefined_rest :
    badMode 0x02200000 = true ∧ unacceptedMode 0x02800000 = true ∧ badRegister 0x20120000 = true ∧
    badRegister 0x04C09000 = true ∧ badType 0x10800810 = true ∧
    undefinedEncoding 0x10800810 = true := by
  decide

/-- UndefinedEncodingRaisesError: outside a routine and inside one. -/
theorem witness_undefined_step :
    RunsInstruction (about [0, 0, 0, 0x0A]) ∧
    inSpan (about [0, 0, 0, 0x0A]).pc 4 32 = false ∧ inSpan (about [0, 0, 0, 0x0A]).pc 4 36 = false ∧
    (about [0, 0, 0, 0x0A]).storedDword 0x100 = 0x0A000000 ∧ (about [0, 0, 0, 0x0A]).inIntr = false ∧
    RunsInstruction { about [0, 0, 0, 0x0A] with inIntr := true } :=
  ⟨⟨rfl, rfl⟩, by decide, by decide, by decide, rfl, ⟨rfl, rfl⟩⟩

/-- ZeroDwordHalts. -/
theorem witness_zero_dword :
    RunsInstruction (about [0, 0, 0, 0]) ∧ inSpan (about [0, 0, 0, 0]).pc 4 32 = false ∧
    inSpan (about [0, 0, 0, 0]).pc 4 36 = false ∧ (about [0, 0, 0, 0]).storedDword 0x100 = 0 :=
  ⟨⟨rfl, rfl⟩, by decide, by decide, by decide⟩

/-- FetchOverADeviceByteIsRefused, first clause: the first and last addresses whose dword covers one. -/
theorem witness_fetch_first :
    RunsInstruction { vec with pc := 29 } ∧ inSpan 29 4 32 = true ∧ inSpan 28 4 32 = false ∧
    inSpan 36 4 36 = true ∧ inSpan 37 4 36 = false :=
  ⟨⟨rfl, rfl⟩, by decide, by decide, by decide, by decide⟩

/-- FetchOverADeviceByteIsRefused, second clause: a LOAD immediate at 28 with its second dword at 32. -/
theorem witness_fetch_second :
    RunsInstruction { poke 28 [0, 8, 0x80, 0x10] vec with pc := 28 } ∧
    State.storedDword { poke 28 [0, 8, 0x80, 0x10] vec with pc := 28 } 28 = 0x10800800 ∧
    undefinedEncoding 0x10800800 = false ∧ amField 0x10800800 = 0b100 ∧
    inSpan (28 + 4) 4 32 = true :=
  ⟨⟨rfl, rfl⟩, by decide, by decide, by decide, by decide⟩

/-- NothingIsDeliveredInsideARoutine. -/
theorem witness_inside : leaving.inIntr = true ∧ leaving.halted = false := ⟨rfl, rfl⟩

/-- TimerDeliveryEntersEntryFour: a tick that waits, and a tick that arrives. -/
theorem witness_timer :
    (State.turn { vec with timerPending := true, host := [⟨false, [], .timer⟩] }).choice = .timer ∧
    (State.turn { vec with host := [⟨true, [], .timer⟩] }).tick = true ∧ vec.halted = false ∧
    vec.inIntr = false := by
  decide

/-- KeyboardDeliveryEntersEntryFive. -/
theorem witness_key :
    keyed.halted = false ∧ keyed.inIntr = false ∧ keyed.keyUnread = false ∧
    keyed.turn.choice = .keyboard ∧ keyed.keyQueue ++ keyed.turn.keys = [0x61, 0x62] := by
  decide

/-- NoKeyIsDeliveredWhileOneIsUnread. -/
theorem witness_unread :
    State.turn { keyed with keyUnread := true } = ⟨false, [0x62], .keyboard⟩ ∧
    keyed.halted = false := by
  decide

/-- ReadAndFetchSeeTheLastWrite: just below byte 32, above byte 36, and over the top of the address space. -/
theorem witness_plain_span :
    inSpan 28 4 32 = false ∧ inSpan 28 4 36 = false ∧ inSpan 37 4 32 = false ∧
    inSpan 37 4 36 = false ∧ inSpan 0xFFFFFFFE 4 32 = false ∧ inSpan 0xFFFFFFFE 4 36 = false := by
  decide

/-- RetUndoesAnInterruptEntry and PushThenPopRestores: the stack slot just below the output register. -/
theorem witness_slot :
    inSpan ((24 : Word) + 4) 4 32 = false ∧ inSpan ((24 : Word) + 4) 4 36 = false := by
  decide

/-- InterruptEntryPushesAndVectors and IntEntersItsRoutine: the numbers at the ends of the ranges. -/
theorem witness_numbers :
    (∀ n, n = 1 ∨ n = 7 ∨ n = 10 ∨ n = 31 → n ≠ 0 ∧ n < 32 ∧ n ≠ 8 ∧ n ≠ 9) ∧ vec.inIntr = false := by
  refine ⟨fun n hn => ?_, rfl⟩
  omega

/-- IntStopsWhereTheSpecSays and IntWithoutAnEncodingIsRefused, a number for each clause. -/
theorem witness_int_stops :
    stopOf (exec (.int 9) vec) = some (.inr .entryOverDevice) ∧
    stopOf (exec (.int 31) { vec with inIntr := true }) = some (.inl .nestedInterrupt) ∧
    stopOf (exec (.int 32) vec) = some (.inr .noSuchEntry) := by
  decide

/-- DivModSatisfyTheDivisionLaw, DivModOverflowCase and ZeroDivisorRaisesError: operands for each. -/
theorem witness_divisors :
    (vec.setReg (r 3) 1).operand 4 (r 3) ≠ 0 ∧
    ((vec.setReg (r 2) 0x80000000).setReg (r 3) 0xFFFFFFFF).operand 4 (r 2) = 0x80000000 ∧
    ((vec.setReg (r 2) 0x80000000).setReg (r 3) 0xFFFFFFFF).operand 4 (r 3) = 0xFFFFFFFF ∧
    vec.operand 4 (r 3) = 0 ∧ vec.inIntr = false ∧ State.inIntr { vec with inIntr := true } = true := by
  decide

/-- OnlyIntZeroHalts: INT 0 ends a run. -/
theorem witness_halting_step : ∃ t, step (about [0, 0, 0, 0]) = .next t ∧ t.halted = true :=
  after_next (by decide)

/-- OnlyRetAtTheEntryLevelEndsARoutine: RET at the entry level ends a routine. -/
theorem witness_leaving_step : leaving.inIntr = true ∧ ∃ t, step leaving = .next t ∧ t.inIntr = false :=
  ⟨rfl, after_next (by decide)⟩

/-- OnlyAnEntryStartsARoutine, both clauses: INT 6 outside a routine. -/
theorem witness_entering_step :
    vec.inIntr = false ∧ ∃ t, step (about [0, 0, 6, 0]) = .next t ∧ (t.inIntr, t.intrSP) = (true, 0x1004) :=
  ⟨rfl, after_next (by decide)⟩

/-- OnlyAnEntryStartsARoutine, the other entries: an undefined dword, DIV R2, R2, R3 by zero, a tick, a key. -/
theorem witness_entering_otherwise :
    vec.inIntr = false ∧ keyed.inIntr = false ∧
    ([about [0, 0, 0, 0x0A], about [0xC0, 0x10, 2, 0x33], { vec with host := [⟨true, [], .timer⟩] },
      keyed].map (fun s => after (step s) (fun t => (t.inIntr, t.intrSP)))) =
      [some (true, 0x1004), some (true, 0x1004), some (true, 0x1004), some (true, 0x1004)] := by
  decide

/-- KeyDataChangesOnlyByDelivery: a delivery that changes keyData and sets keyUnread. -/
theorem witness_delivery_step :
    keyed.keyData = 0 ∧ keyed.keyUnread = false ∧
    ∃ t, step keyed = .next t ∧ (t.keyData, t.keyUnread) = (0x61, true) :=
  ⟨rfl, rfl, after_next (by decide)⟩

/-- StepsStopOnlyWhereTheSpecSays: a state of each case after the first, NestedInterrupt by an undefined dword, an
INT and a zero divisor, the refused fetch by either dword. -/
theorem witness_stops :
    stopOf (step { about [0, 0, 0, 0x0A] with inIntr := true }) = some (.inl .nestedInterrupt) ∧
    stopOf (step { about [0, 0, 1, 0] with inIntr := true }) = some (.inl .nestedInterrupt) ∧
    stopOf (step { about [0xC0, 0x10, 2, 0x33] with inIntr := true }) = some (.inl .nestedInterrupt) ∧
    stopOf (step { vec with pc := 33 }) = some (.inr .fetchFromDevice) ∧
    stopOf (step { poke 28 [0, 8, 0x80, 0x10] vec with pc := 28 }) = some (.inr .fetchFromDevice) ∧
    stopOf (step (about [0, 0, 8, 0])) = some (.inr .entryOverDevice) := by
  decide

/-- StepsOutsideARoutineAreSafe: an undefined dword outside a routine. -/
theorem witness_safe_step :
    State.fetch (about [0, 0, 0, 0x0A]).hearHost = .undecodable .undefinedOpcode ∧
    (about [0, 0, 0, 0x0A]).inIntr = false := by
  decide

/-- PlacedWordsRunNext: two dwords that are an instruction. -/
theorem witness_placed : decodeWords 0x10800800 7 = .ok (.loadImm (r 1) 7) := by decide

/-- AssembledInstructionIsPlacedAtOrg: a source that assembles, at the lowest and the highest place. -/
theorem witness_source :
    ((Source.jmp (.addr (.sym "x"))).instr (fun e => e.eval [("x", 128)] 128) =
      .ok (.jmpMemdir 128)) ∧ 128 ≤ 128 ∧ 4294967288 + 8 ≤ 2 ^ 32 := by
  decide

end Sys2Proof.Tests
end

section
/-!
The boundary and the fetch in one piece: what a step runs when the bytes at PC are an instruction (00_scope.md
R10, 30_encoding.md R91), and the host's load as a state in which such a step comes next (60_exceptions.md
R201).
-/
namespace Sys2Proof.Machine

/-! ## Spans clear of an address -/

/-- Two adjacent dwords cover what one span of eight bytes covers. -/
theorem inSpan_eight (a x : Word) : inSpan a 8 x = (inSpan a 4 x || inSpan (a + 4) 4 x) := by
  unfold inSpan
  rw [Bool.eq_iff_iff, Bool.or_eq_true, decide_eq_true_iff, decide_eq_true_iff, decide_eq_true_iff]
  constructor
  · intro h
    by_cases h4 : (x - a).toNat < 4
    · exact .inl h4
    · right
      bv_omega
  · rintro (h | h) <;> bv_omega

theorem inSpan_eq_false_of_ne {a x : Word} {n : Nat} (h : ∀ k, k < n → a + BitVec.ofNat 32 k ≠ x) :
    inSpan a n x = false := by
  refine decide_eq_false fun hlt => h _ hlt ?_
  rw [BitVec.ofNat_toNat, BitVec.setWidth_eq, add_sub_cancel]

/-! ## What the fetch finds -/

theorem fetchDword_clear (s : State) {a : Word} (h32 : inSpan a 4 32 = false)
    (h36 : inSpan a 4 36 = false) : s.fetchDword a = some (s.storedDword a) := by
  rw [fetchDword_eq, h32, h36, if_neg (by simp)]

theorem fetchDword_hearHost (s : State) (a : Word) : s.hearHost.fetchDword a = s.fetchDword a := by
  rw [fetchDword_eq, fetchDword_eq]
  rfl

/-- The host's events change neither PC nor storage, so they leave what the fetch finds. -/
theorem fetch_hearHost (s : State) : s.hearHost.fetch = s.fetch := by
  simp only [State.fetch, hearHost_pc, fetchDword_hearHost]

/-- A one-dword instruction is fetched without a look at the bytes after it (30_encoding.md R73). -/
theorem fetch_of_one {s : State} {i : Instr} (h32 : inSpan s.pc 4 32 = false)
    (h36 : inSpan s.pc 4 36 = false) (hd : decodeHead (s.storedDword s.pc) = .ok (.one i)) :
    s.fetch = .instr i := by
  simp only [State.fetch, fetchDword_clear s h32 h36, hd]

/-- A two-dword instruction takes the dword after its first. -/
theorem fetch_of_two {s : State} {f : Word → Instr} (h32 : inSpan s.pc 8 32 = false)
    (h36 : inSpan s.pc 8 36 = false) (hd : decodeHead (s.storedDword s.pc) = .ok (.two f)) :
    s.fetch = .instr (f (s.storedDword (s.pc + 4))) := by
  rw [inSpan_eight, Bool.or_eq_false_iff] at h32 h36
  simp only [State.fetch, fetchDword_clear s h32.1 h36.1, hd, fetchDword_clear s h32.2 h36.2]

/-- Where eight bytes at PC are clear of the device bytes, the fetch finds what the two dwords decode to. -/
theorem fetch_of_decodeWords {s : State} {i : Instr} (hc : coversDevice s.pc 8 = false)
    (hd : decodeWords (s.storedDword s.pc) (s.storedDword (s.pc + 4)) = .ok i) : s.fetch = .instr i := by
  rw [coversDevice_eq, Bool.or_eq_false_iff] at hc
  obtain ⟨h32, h36⟩ := hc
  unfold decodeWords at hd
  split at hd
  · cases hd
  · rename_i hh
    cases hd
    rw [inSpan_eight, Bool.or_eq_false_iff] at h32 h36
    exact fetch_of_one h32.1 h36.1 hh
  · rename_i hh
    cases hd
    exact fetch_of_two h32 h36 hh

/-! ## The bytes at PC as the decoder's input -/

/-- Eight bytes of storage are the bytes of two dwords. -/
theorem decode_bytes_cases {s : State} {a : Word} {i : Instr} {rest : List Byte}
    (h : decode ((List.range 8).map (fun k => s.byteAt (a + BitVec.ofNat 32 k))) = .ok (i, rest)) :
    (decodeHead (s.storedDword a) = .ok (.one i) ∧ rest.length = 4) ∨
      ∃ f, decodeHead (s.storedDword a) = .ok (.two f) ∧ i = f (s.storedDword (a + 4)) ∧
        rest.length = 0 := by
  have first : dwordOfBytes (s.byteAt (a + BitVec.ofNat 32 0)) (s.byteAt (a + BitVec.ofNat 32 1))
      (s.byteAt (a + BitVec.ofNat 32 2)) (s.byteAt (a + BitVec.ofNat 32 3)) = s.storedDword a := by
    rw [show a + BitVec.ofNat 32 0 = a from BitVec.add_zero a]
    rfl
  have second : dwordOfBytes (s.byteAt (a + BitVec.ofNat 32 4)) (s.byteAt (a + BitVec.ofNat 32 5))
      (s.byteAt (a + BitVec.ofNat 32 6)) (s.byteAt (a + BitVec.ofNat 32 7)) =
      s.storedDword (a + 4) := by
    unfold State.storedDword
    rw [BitVec.add_assoc, BitVec.add_assoc, BitVec.add_assoc]
    rfl
  simp only [List.range, List.range.loop, List.map, decode, first, second] at h
  split at h
  · cases h
  · cases h
    exact .inl ⟨‹_›, rfl⟩
  · cases h
    exact .inr ⟨_, ‹_›, rfl, rfl⟩

/-- The fetch finds the instruction that the bytes at PC decode to, where its own bytes are clear of the device
bytes. -/
theorem fetch_of_decode {s : State} {i : Instr} {rest : List Byte}
    (hd : decode ((List.range 8).map (fun k => s.byteAt (s.pc + BitVec.ofNat 32 k))) = .ok (i, rest))
    (hc : ∀ k, k < 8 - rest.length → s.pc + BitVec.ofNat 32 k ≠ 32 ∧ s.pc + BitVec.ofNat 32 k ≠ 36) :
    s.fetch = .instr i := by
  have h32 := inSpan_eq_false_of_ne fun k hk => (hc k hk).1
  have h36 := inSpan_eq_false_of_ne fun k hk => (hc k hk).2
  rcases decode_bytes_cases hd with ⟨hone, hlen⟩ | ⟨f, htwo, rfl, hlen⟩
  · rw [hlen] at h32 h36
    exact fetch_of_one h32 h36 hone
  · rw [hlen] at h32 h36
    exact fetch_of_two h32 h36 htwo

/-! ## The step that runs an instruction -/

theorem step_of_fetch {s : State} {i : Instr} (hr : RunsInstruction s) (hf : s.fetch = .instr i) :
    step s = exec i s.hearHost := by
  rw [step_of_runs hr, runInstruction, fetch_hearHost, hf]

/-- Settles O8: the fetch finds the instruction that the bytes at PC decode to, and what the fetch finds is well
formed and runs. -/
theorem stepRunsTheDecodedInstruction : Obligations.StepRunsTheDecodedInstruction := by
  intro s i rest hr hd hc
  have hf : s.fetch = .instr i := fetch_of_decode hd hc
  exact ⟨fetch_wellFormed hf, step_of_fetch hr hf⟩

/-! ## The host's load -/

/-- The state whose storage the load writes: PC has room, the machine is not halted, and the next turn, if any,
chooses the fetch. -/
def State.readied (s : State) : State :=
  { s with
    pc := if coversDevice s.pc 8 then 0 else s.pc
    halted := false
    host := match s.host with
      | [] => []
      | t :: ts => { t with choice := .fetch } :: ts }

/-- The load is two stores in the readied state. -/
theorem placeWords_eq (s : State) (w0 w1 : Word) :
    s.placeWords w0 w1 =
      (s.readied.memWrite s.readied.pc 4 w0).memWrite (s.readied.pc + 4) 4 w1 := rfl

section
variable (s : State) (w0 w1 : Word)

@[simp] theorem placeWords_pc :
    (s.placeWords w0 w1).pc = if coversDevice s.pc 8 then 0 else s.pc := by
  simp [placeWords_eq, State.readied]

@[simp] theorem placeWords_halted : (s.placeWords w0 w1).halted = false := by
  simp [placeWords_eq, State.readied]

@[simp] theorem placeWords_inIntr : (s.placeWords w0 w1).inIntr = s.inIntr := by
  simp [placeWords_eq, State.readied]

@[simp] theorem placeWords_intrSP : (s.placeWords w0 w1).intrSP = s.intrSP := by
  simp [placeWords_eq, State.readied]

@[simp] theorem placeWords_timerPending : (s.placeWords w0 w1).timerPending = s.timerPending := by
  simp [placeWords_eq, State.readied]

@[simp] theorem placeWords_keyQueue : (s.placeWords w0 w1).keyQueue = s.keyQueue := by
  simp [placeWords_eq, State.readied]

theorem placeWords_sameInput : SameInput s (s.placeWords w0 w1) := by
  simp [SameInput, placeWords_eq, State.readied]

theorem placeWords_reg {r : Reg} (h : r ≠ .pc) : (s.placeWords w0 w1).reg r = s.reg r := by
  cases r with
  | gpr i => simp [placeWords_eq, State.readied]
  | sp => simp [placeWords_eq, State.readied]
  | pc => exact absurd rfl h

/-- The load's next turn is the host's, with the fetch as its choice. -/
@[simp] theorem placeWords_choice : (s.placeWords w0 w1).turn.choice = .fetch := by
  cases h : s.host <;> simp [State.turn, placeWords_eq, State.readied, h]

theorem placeWords_runs : RunsInstruction (s.placeWords w0 w1) := by
  refine ⟨placeWords_halted s w0 w1, ?_⟩
  rw [placeWords_choice]
  rfl

/-- The load chooses a PC with room for two dwords. -/
theorem placeWords_clear : coversDevice (s.placeWords w0 w1).pc 8 = false := by
  rw [placeWords_pc]
  split
  · decide
  · exact Bool.eq_false_of_not_eq_true ‹_›

end

/-- Two dwords stored one after the other, clear of the device bytes, both lie there afterwards. -/
theorem storedDword_memWrite_pair (s : State) {a : Word} (w0 w1 : Word) (hc : coversDevice a 8 = false) :
    ((s.memWrite a 4 w0).memWrite (a + 4) 4 w1).storedDword a = w0 ∧
      ((s.memWrite a 4 w0).memWrite (a + 4) 4 w1).storedDword (a + 4) = w1 := by
  rw [coversDevice_eq, inSpan_eight, inSpan_eight, Bool.or_eq_false_iff, Bool.or_eq_false_iff,
    Bool.or_eq_false_iff] at hc
  obtain ⟨⟨h32, h32'⟩, h36, h36'⟩ := hc
  have hw0 := memWrite_stored s a w0 (n := 4) (by decide)
  have hw1 := memWrite_stored (s.memWrite a 4 w0) (a + 4) w1 (n := 4) (by decide)
  refine ⟨?_, storedDword_of_stored hw1 h32' h36'⟩
  rw [storedDword_of_apart hw1, storedDword_of_stored hw0 h32 h36] <;>
    exact decide_eq_false (by bv_omega)

theorem placeWords_storedDword (s : State) (w0 w1 : Word) :
    (s.placeWords w0 w1).storedDword (s.placeWords w0 w1).pc = w0 ∧
      (s.placeWords w0 w1).storedDword ((s.placeWords w0 w1).pc + 4) = w1 := by
  have hc := placeWords_clear s w0 w1
  have hpc : (s.placeWords w0 w1).pc = s.readied.pc := placeWords_pc s w0 w1
  rw [hpc] at hc
  rw [hpc, placeWords_eq]
  exact storedDword_memWrite_pair s.readied w0 w1 hc

theorem placeWords_fetch (s : State) {w0 w1 : Word} {i : Instr} (hd : decodeWords w0 w1 = .ok i) :
    (s.placeWords w0 w1).fetch = .instr i := by
  obtain ⟨hw0, hw1⟩ := placeWords_storedDword s w0 w1
  refine fetch_of_decodeWords (placeWords_clear s w0 w1) ?_
  rw [hw0, hw1]
  exact hd

/-- Settles O53: the load leaves a state that runs an instruction at its next boundary, and the fetch there finds
the placed one. -/
theorem placedWordsRunNext : Obligations.PlacedWordsRunNext := by
  intro s w0 w1 i hd
  exact ⟨step_of_fetch (placeWords_runs s w0 w1) (placeWords_fetch s hd),
    fun _ hr => placeWords_reg s w0 w1 hr, placeWords_sameInput s w0 w1, placeWords_inIntr s w0 w1,
    placeWords_intrSP s w0 w1, placeWords_timerPending s w0 w1, placeWords_keyQueue s w0 w1⟩

end Sys2Proof.Machine
end

section
/-!
The canonical form of memory (10_state.md R33, 20_memory.md R43, R49) as an invariant: reset has it, and each
way a step gives a next state keeps it. Only a MemWrite touches storage, so every case rests on `wf_memWrite`.
-/
namespace Sys2Proof.Machine

/-- Each kind of effect keeps the canonical form: a write stores, an entry pushes, the others leave storage. -/
theorem Effect.keeps_wf {s t : State} {i : Instr} (he : Effect s i t) (h : s.wf) : t.wf := by
  cases he with
  | reads => exact h
  | writes sp pc a v n => exact wf_memWrite a v n h
  | halts => exact h
  | returns => exact h
  | enters pc n ret => exact wf_interrupt (s := { s with pc := pc }) n ret h

/-- An instruction that completes keeps the canonical form. -/
theorem exec_keeps_wf {i : Instr} {s t : State} (hx : exec i s = .next t) (h : s.wf) : t.wf :=
  (exec_effect hx).keeps_wf h

/-- A delivery keeps the canonical form: the entry's push is its only store. -/
theorem deliver_keeps_wf {s t : State} {c : Choice} (hd : s.deliver c = some t) (h : s.wf) : t.wf := by
  rcases deliver_cases hd with ⟨-, -, -, rfl⟩ | ⟨-, -, -, k, rest, -, rfl⟩
  · exact wf_interrupt (s := { s with timerPending := false }) 4 s.pc h
  · exact wf_interrupt (s := { s with keyData := k, keyUnread := true, keyQueue := rest }) 5 s.pc h

/-- The host's events reach no storage. -/
theorem hearHost_wf {s : State} (h : s.wf) : s.hearHost.wf := h

/-- Settles O3, by the ways a step gives a next state: a delivery, an instruction, or the Error of an
undecodable dword, each from the state that has heard the host. -/
theorem everyStepKeepsMemoryWellFormed : Obligations.EveryStepKeepsMemoryWellFormed := by
  intro s t h hs
  have hh : s.hearHost.wf := hearHost_wf h
  obtain ⟨-, hd | ⟨-, ⟨i, -, hx⟩ | ⟨e, -, -, rfl⟩⟩⟩ := step_cases hs
  · exact deliver_keeps_wf hd hh
  · exact exec_keeps_wf hx hh
  · exact wf_interrupt 3 s.pc hh

/-- The boot sequence takes the image as its storage. -/
@[simp] theorem boot_mem (p : BootParams) : (State.boot p).mem = p.image := rfl

/-- Settles O2: a boot has the image as its memory, and the model's reset boots the empty image. -/
theorem resetMemoryIsWellFormed : Obligations.ResetMemoryIsWellFormed := by
  refine ⟨wf_reset, fun p himage => ?_⟩
  rw [State.wf, boot_mem]
  exact himage

end Sys2Proof.Machine
end

section
/-!
The two memory accesses in the spec's words (20_memory.md R41 to R48, R58, R62): what a MemRead and a MemWrite of 1,
2 or 4 bytes give, store and leave, and that a read or a fetch sees the last write.
-/
namespace Sys2Proof.Machine

/-! ## The low bytes of a dword -/

/-- The two low bytes of a dword of four bytes are the halfword of its two first bytes. -/
theorem dwordOfBytes_and_0xFFFF (b0 b1 b2 b3 : Byte) :
    dwordOfBytes b0 b1 b2 b3 &&& 0xFFFF = (b1 ++ b0).setWidth 32 := by
  apply BitVec.eq_of_getLsbD_eq
  intro i hi
  simp only [dwordOfBytes, BitVec.getLsbD_and, BitVec.getLsbD_setWidth, BitVec.getLsbD_append]
  interval_cases i <;> simp

/-- The low byte of a dword of four bytes is its first byte. -/
theorem dwordOfBytes_and_0xFF (b0 b1 b2 b3 : Byte) :
    dwordOfBytes b0 b1 b2 b3 &&& 0xFF = b0.setWidth 32 := by
  apply BitVec.eq_of_getLsbD_eq
  intro i hi
  simp only [dwordOfBytes, BitVec.getLsbD_and, BitVec.getLsbD_setWidth, BitVec.getLsbD_append]
  interval_cases i <;> simp

/-! ## MemRead -/

/-- A MemRead does no more than reading its bytes does (20_memory.md R42, R48). -/
theorem memRead_readsOnly (s : State) (a : Word) {n : Nat} (hn : n ≤ 2 ^ 32) :
    ReadsOnly s (s.memRead a n).2 a n := by
  rw [memRead_state s a hn]
  exact ⟨rfl, rfl, rfl, fun _ => rfl, rfl, ⟨rfl, rfl, rfl⟩, ⟨rfl, rfl, rfl⟩⟩

@[simp] theorem memRead_reg (s : State) (a : Word) (n : Nat) (r : Reg) :
    (s.memRead a n).2.reg r = s.reg r :=
  reg_congr (memRead_regs s a n) (memRead_sp s a n) (memRead_pc s a n) r

theorem memRead_one (s : State) (a : Word) : (s.memRead a 1).1 = s.seenDword a &&& 0xFF := by
  rw [memRead_value s a (by decide), leValue_one]
  exact (dwordOfBytes_and_0xFF _ _ _ _).symm

theorem memRead_two (s : State) (a : Word) : (s.memRead a 2).1 = s.seenDword a &&& 0xFFFF := by
  rw [memRead_value s a (by decide), leValue_two]
  exact (dwordOfBytes_and_0xFFFF _ _ _ _).symm

theorem memRead_four (s : State) (a : Word) : (s.memRead a 4).1 = s.seenDword a := by
  rw [memRead_value s a (by decide), leValue_four]

/-- An access size is no longer than the address space, so an access meets no byte twice. -/
theorem accessSize_le {n : Nat} (hn : n = 1 ∨ n = 2 ∨ n = 4) : n ≤ 2 ^ 32 := by
  omega

/-- Settles O17: the value by the size, and the frame of a MemRead of any size. -/
theorem memReadGivesTheBytesLittleEndian : Obligations.MemReadGivesTheBytesLittleEndian := by
  intro s a
  refine ⟨memRead_one s a, memRead_two s a, memRead_four s a, fun n hn => ?_⟩
  exact ⟨memRead_readsOnly s a (accessSize_le hn), memRead_reg s a n⟩

/-! ## MemWrite -/

/-- Settles O18: `memWrite_stored` for the bytes and the output, and the frame of a MemWrite, which leaves every
other field. -/
theorem memWriteStoresTheBytesLittleEndian : Obligations.MemWriteStoresTheBytesLittleEndian := by
  intro s a v n hn
  refine ⟨memWrite_stored s a v (accessSize_le hn), memWrite_reg s a v n, ?_, ?_, ?_⟩
  · exact ⟨memWrite_keyData s a v n, memWrite_keyUnread s a v n, memWrite_outReads s a v n⟩
  · exact ⟨memWrite_halted s a v n, memWrite_inIntr s a v n, memWrite_intrSP s a v n⟩
  · exact ⟨memWrite_timerPending s a v n, memWrite_keyQueue s a v n, memWrite_host s a v n⟩

/-! ## A read or a fetch after a write -/

/-- Settles O19: clear of the device bytes a read and a fetch both give the dword that lies in storage, which is
the one just stored. -/
theorem readAndFetchSeeTheLastWrite : Obligations.ReadAndFetchSeeTheLastWrite := by
  intro s a v h32 h36
  have hstored : (s.memWrite a 4 v).storedDword a = v :=
    storedDword_of_stored (memWrite_stored s a v (by decide)) h32 h36
  constructor
  · rw [memRead_four, seenDword_plain _ h32 h36, hstored]
  · rw [fetchDword_clear _ h32 h36, hstored]

/-! ## The access sizes -/

/-- Settles O34: the size column of R45, type by type. -/
theorem dataTypesHaveTheirSizes : Obligations.DataTypesHaveTheirSizes :=
  ⟨rfl, rfl, rfl, rfl, rfl⟩

end Sys2Proof.Machine
end

section
/-!
The fetch over a device byte (20_memory.md R64). The second dword is fetched only for a first dword that decodes to
a two-dword instruction (30_encoding.md R73, R91), so the refusal of the second one needs that a defined encoding
with a two-dword mode decodes to one.
-/
namespace Sys2Proof

/-! ## The decoder's fields as the numbers of R71 -/

theorem ofWord_op_toNat (w : Word) : (Fields.ofWord w).op.toNat = opField w := by
  simp only [Fields.ofWord, opField, BitVec.extractLsb'_toNat, Nat.shiftRight_eq_div_pow]
  omega

theorem ofWord_am_toNat (w : Word) : (Fields.ofWord w).am.toNat = amField w := by
  simp only [Fields.ofWord, amField, BitVec.extractLsb'_toNat, Nat.shiftRight_eq_div_pow]

theorem ofWord_r0_toNat (w : Word) : (Fields.ofWord w).r0.toNat = r0Field w := by
  simp only [Fields.ofWord, r0Field, BitVec.extractLsb'_toNat, Nat.shiftRight_eq_div_pow]

theorem ofWord_r1_toNat (w : Word) : (Fields.ofWord w).r1.toNat = r1Field w := by
  simp only [Fields.ofWord, r1Field, BitVec.extractLsb'_toNat, Nat.shiftRight_eq_div_pow]

theorem ofWord_ty_toNat (w : Word) : (Fields.ofWord w).ty.toNat = tyField w := by
  simp only [Fields.ofWord, tyField, BitVec.extractLsb'_toNat, Nat.shiftRight_eq_div_pow]

/-! ## Fields that the ranges of R85 to R89 leave -/

/-- A code outside the ranges of R85 is an opcode's. -/
theorem opcode_ofCode_of_defined {c : BitVec 8}
    (h : ¬ ((0x0A ≤ c.toNat ∧ c.toNat ≤ 0x0F) ∨ (0x12 ≤ c.toNat ∧ c.toNat ≤ 0x1F) ∨
      (0x22 ≤ c.toNat ∧ c.toNat ≤ 0x2F) ∨ (0x3B ≤ c.toNat ∧ c.toNat ≤ 0xFF))) :
    ∃ op, Opcode.ofCode c = some op := by
  rw [← Option.isSome_iff_exists]
  revert c
  decide

/-- A code that is not one of the three of R89 is a data type's. -/
theorem decodeType_of_defined {c : BitVec 3}
    (h : ¬ (c.toNat = 0b010 ∨ c.toNat = 0b100 ∨ c.toNat = 0b110)) : ∃ t, decodeType c = .ok t := by
  have hs : (DataType.ofCode c).isSome = true := by
    revert c
    decide
  obtain ⟨t, ht⟩ := Option.isSome_iff_exists.mp hs
  exact ⟨t, by rw [decodeType, ht]⟩

/-- A code up to 0x11 is a register's. -/
theorem decodeReg_of_le {c : BitVec 5} (h : c.toNat ≤ 0x11) : ∃ r, decodeReg c = .ok r := by
  have hs : (Reg.ofCode c).isSome = true := by
    rw [reg_ofCode_isSome, decide_eq_true h]
  obtain ⟨r, hr⟩ := Option.isSome_iff_exists.mp hs
  exact ⟨r, by rw [decodeReg, hr]⟩

/-- The mode codes that R73 gives a second dword, with their modes. -/
theorem mode_of_twoDwords {c : BitVec 3} (h : c.toNat = 0b100 ∨ c.toNat = 0b110 ∨ c.toNat = 0b111) :
    ∃ am, Mode.ofCode c = some am ∧
      ((c.toNat = 0b100 ∧ am = .imm) ∨ (c.toNat = 0b110 ∧ am = .memdir) ∨
        (c.toNat = 0b111 ∧ am = .regdisp)) := by
  have hm : Mode.ofCode c = some .imm ∧ c.toNat = 0b100 ∨ Mode.ofCode c = some .memdir ∧ c.toNat = 0b110 ∨
      Mode.ofCode c = some .regdisp ∧ c.toNat = 0b111 := by
    revert c
    decide
  rcases hm with ⟨hm, hc⟩ | ⟨hm, hc⟩ | ⟨hm, hc⟩
  · exact ⟨_, hm, .inl ⟨hc, rfl⟩⟩
  · exact ⟨_, hm, .inr (.inl ⟨hc, rfl⟩)⟩
  · exact ⟨_, hm, .inr (.inr ⟨hc, rfl⟩)⟩

/-! ## First dwords that wait for their second -/

/-- The form decodes to a two-dword instruction. -/
def TwoDwords (form : Except DecodeError Shape) : Prop := ∃ f, form = .ok (.two f)

theorem TwoDwords.of_reg {c : BitVec 5} {k : Reg → Except DecodeError Shape} (hc : c.toNat ≤ 0x11)
    (hk : ∀ r, TwoDwords (k r)) : TwoDwords (decodeReg c >>= k) := by
  obtain ⟨r, hr⟩ := decodeReg_of_le hc
  rw [hr]
  exact hk r

theorem TwoDwords.of_type {c : BitVec 3} {k : DataType → Except DecodeError Shape}
    (hc : ¬ (c.toNat = 0b010 ∨ c.toNat = 0b100 ∨ c.toNat = 0b110))
    (hk : ∀ t, TwoDwords (k t)) : TwoDwords (decodeType c >>= k) := by
  obtain ⟨t, ht⟩ := decodeType_of_defined hc
  rw [ht]
  exact hk t

/-! ## What a defined encoding rules out (R85 to R89) -/

/-- A defined encoding meets none of the five decode conditions E-OPC to E-TYPE. -/
theorem undefinedEncoding_eq_false {w : Word} :
    undefinedEncoding w = false ↔ badOpcode w = false ∧ badMode w = false ∧ unacceptedMode w = false ∧
      badRegister w = false ∧ badType w = false := by
  simp only [undefinedEncoding, Bool.or_eq_false_iff, and_assoc]

section
variable {w : Word} (hu : undefinedEncoding w = false)
include hu

theorem opcode_defined : ∃ op, Opcode.ofCode (Fields.ofWord w).op = some op := by
  obtain ⟨hop, -⟩ := undefinedEncoding_eq_false.mp hu
  rw [badOpcode, decide_eq_false_iff_not, ← ofWord_op_toNat] at hop
  exact opcode_ofCode_of_defined hop

/-- Only the jumps, CALL, LOAD and STORE accept a mode other than register direct (R83, R84). -/
theorem opField_of_amField_ne_zero (ham : amField w ≠ 0) :
    (0x02 ≤ opField w ∧ opField w ≤ 0x09) ∨ opField w = 0x10 ∨ opField w = 0x11 := by
  obtain ⟨hop, -, hacc, -⟩ := undefinedEncoding_eq_false.mp hu
  have hlt : opField w < 2 ^ 8 := ofWord_op_toNat w ▸ (Fields.ofWord w).op.isLt
  simp only [badOpcode, unacceptedMode, decide_eq_false_iff_not] at hop hacc
  omega

/-- Only LOAD accepts the immediate mode (R83). -/
theorem opField_of_immediate (ham : amField w = 0b100) : opField w = 0x10 := by
  have hop := opField_of_amField_ne_zero hu (by rw [ham]; decide)
  obtain ⟨-, -, hacc, -⟩ := undefinedEncoding_eq_false.mp hu
  simp only [unacceptedMode, decide_eq_false_iff_not] at hacc
  omega

/-- Every form with a displacement uses Reg0 (R77, R78). -/
theorem r0_of_regdisp (ham : amField w = 0b111) : (Fields.ofWord w).r0.toNat ≤ 0x11 := by
  have hop := opField_of_amField_ne_zero hu (by rw [ham]; decide)
  obtain ⟨-, -, -, hreg, -⟩ := undefinedEncoding_eq_false.mp hu
  simp only [badRegister, decide_eq_false_iff_not] at hreg
  rw [ofWord_r0_toNat]
  omega

/-- The conditional jumps, LOAD and STORE use Reg1 in every mode (R77, R78). -/
theorem r1_of_opField (ham : amField w ≠ 0) (h4 : 0x04 ≤ opField w) :
    (Fields.ofWord w).r1.toNat ≤ 0x11 := by
  have hop := opField_of_amField_ne_zero hu ham
  obtain ⟨-, -, -, hreg, -⟩ := undefinedEncoding_eq_false.mp hu
  simp only [badRegister, decide_eq_false_iff_not] at hreg
  rw [ofWord_r1_toNat]
  omega

theorem type_of_opField (hop : opField w = 0x10 ∨ opField w = 0x11) :
    ¬ ((Fields.ofWord w).ty.toNat = 0b010 ∨ (Fields.ofWord w).ty.toNat = 0b100 ∨
      (Fields.ofWord w).ty.toNat = 0b110) := by
  obtain ⟨-, -, -, -, htype⟩ := undefinedEncoding_eq_false.mp hu
  rw [badType, decide_eq_false_iff_not, not_and] at htype
  rw [ofWord_ty_toNat]
  exact htype hop

end

/-! ## A defined encoding with a two-dword mode -/

/-- The register and type fields that the form uses decode, and the form waits for its second dword. -/
theorem decodeForm_twoDwords {w : Word} {op : Opcode} {am : Mode} (hu : undefinedEncoding w = false)
    (hop : opField w = op.code.toNat)
    (ham : (amField w = 0b100 ∧ am = .imm) ∨ (amField w = 0b110 ∧ am = .memdir) ∨
      (amField w = 0b111 ∧ am = .regdisp)) :
    TwoDwords (decodeForm op am (Fields.ofWord w)) := by
  have hne : amField w ≠ 0 := by omega
  cases op
  case jmp | call =>
    rcases ham with ⟨hm, rfl⟩ | ⟨-, rfl⟩ | ⟨hm, rfl⟩
    · exact absurd (opField_of_immediate hu hm) (by rw [hop]; decide)
    · exact ⟨_, rfl⟩
    · exact .of_reg (r0_of_regdisp hu hm) fun b => ⟨_, rfl⟩
  case jz | jnz | jgz | jgez | jlz | jlez =>
    have h1 := r1_of_opField hu hne (by rw [hop]; decide)
    rcases ham with ⟨hm, rfl⟩ | ⟨-, rfl⟩ | ⟨hm, rfl⟩
    · exact absurd (opField_of_immediate hu hm) (by rw [hop]; decide)
    · exact .of_reg h1 fun r => ⟨_, rfl⟩
    · exact .of_reg h1 fun r => .of_reg (r0_of_regdisp hu hm) fun b => ⟨_, rfl⟩
  case load =>
    have h1 := r1_of_opField hu hne (by rw [hop]; decide)
    have hty := type_of_opField hu (.inl hop)
    rcases ham with ⟨-, rfl⟩ | ⟨-, rfl⟩ | ⟨hm, rfl⟩
    · exact .of_reg h1 fun d => .of_type hty fun t => ⟨_, rfl⟩
    · exact .of_reg h1 fun d => .of_type hty fun t => ⟨_, rfl⟩
    · exact .of_reg h1 fun d => .of_reg (r0_of_regdisp hu hm) fun b => .of_type hty fun t => ⟨_, rfl⟩
  case store =>
    have h1 := r1_of_opField hu hne (by rw [hop]; decide)
    have hty := type_of_opField hu (.inr hop)
    rcases ham with ⟨hm, rfl⟩ | ⟨-, rfl⟩ | ⟨hm, rfl⟩
    · exact absurd (opField_of_immediate hu hm) (by rw [hop]; decide)
    · exact .of_reg h1 fun r => .of_type hty fun t => ⟨_, rfl⟩
    · exact .of_reg h1 fun r => .of_reg (r0_of_regdisp hu hm) fun b => .of_type hty fun t => ⟨_, rfl⟩
  all_goals exact absurd (opField_of_amField_ne_zero hu hne) (by rw [hop]; decide)

/-- A defined first dword with a two-dword mode decodes to a two-dword instruction (R73). -/
theorem decodeHead_twoDwords {w : Word} (hu : undefinedEncoding w = false)
    (ham : amField w = 0b100 ∨ amField w = 0b110 ∨ amField w = 0b111) : TwoDwords (decodeHead w) := by
  obtain ⟨op, hop⟩ := opcode_defined hu
  have hcode : opField w = op.code.toNat := by rw [opcode_code_of_ofCode hop, ofWord_op_toNat]
  rw [← ofWord_am_toNat] at ham
  obtain ⟨am, hmode, hcases⟩ := mode_of_twoDwords ham
  rw [ofWord_am_toNat] at hcases
  rw [decodeHead, hop, hmode]
  exact decodeForm_twoDwords hu hcode hcases

end Sys2Proof

namespace Sys2Proof.Machine

/-! ## The fetch -/

theorem fetchDword_overDevice (s : State) {a : Word} (h : inSpan a 4 32 = true ∨ inSpan a 4 36 = true) :
    s.fetchDword a = none := by
  rw [fetchDword_eq, if_pos h]

theorem fetch_of_first_overDevice {s : State} (h : inSpan s.pc 4 32 = true ∨ inSpan s.pc 4 36 = true) :
    s.fetch = .overDevice := by
  simp only [State.fetch, fetchDword_overDevice s h]

theorem fetch_of_second_overDevice {s : State} (h32 : inSpan s.pc 4 32 = false)
    (h36 : inSpan s.pc 4 36 = false) (hd : TwoDwords (decodeHead (s.storedDword s.pc)))
    (h : inSpan (s.pc + 4) 4 32 = true ∨ inSpan (s.pc + 4) 4 36 = true) : s.fetch = .overDevice := by
  obtain ⟨f, hd⟩ := hd
  simp only [State.fetch, fetchDword_clear s h32 h36, hd, fetchDword_overDevice s h]

theorem step_of_overDevice {s : State} (hr : RunsInstruction s) (hf : s.fetch = .overDevice) :
    step s = .refused .fetchFromDevice := by
  rw [step_of_runs hr, runInstruction, fetch_hearHost, hf]

/-- Settles O11: either dword over a device byte leaves the fetch without one, and the step is refused. -/
theorem fetchOverADeviceByteIsRefused : Obligations.FetchOverADeviceByteIsRefused := by
  intro s hr
  refine ⟨fun hfirst => ?_, fun h32 h36 hu ham hsecond => ?_⟩
  · exact step_of_overDevice hr (fetch_of_first_overDevice hfirst)
  · exact step_of_overDevice hr
      (fetch_of_second_overDevice h32 h36 (decodeHead_twoDwords hu ham) hsecond)

end Sys2Proof.Machine
end

section
/-!
What one step can do to the output stream and to the input register (20_memory.md R52, R53, R59; 60_exceptions.md
R191). Only a MemWrite appends to the output, and at most one byte of it lies at address 32; only a keyboard
delivery brings a key. Each relation is proved of a register change, a write and an interrupt entry, then of the
kinds of effect, then of a step.
-/
namespace Sys2Proof.Machine

/-! ## Interrupt entry, field by field -/

section
variable (s : State) (n : Nat) (ret : Word)

/-- An entry writes what its push writes. -/
theorem interrupt_out : (s.interrupt n ret).out = (s.memWrite (s.sp + 4) 4 ret).out := by
  unfold State.interrupt
  simp only [memRead_out, pushWord_eq]

@[simp] theorem interrupt_keyData : (s.interrupt n ret).keyData = s.keyData := by
  unfold State.interrupt
  simp only [memRead_keyData, pushWord_eq]

@[simp] theorem interrupt_keyQueue : (s.interrupt n ret).keyQueue = s.keyQueue := by
  unfold State.interrupt
  simp only [memRead_keyQueue, pushWord_eq]

end

/-- An entry that is performed reads its vector clear of the input register, so it leaves keyUnread. -/
theorem interrupt_keyUnread (s : State) {n : Nat} (ret : Word) (hn : n < 32) (h8 : n ≠ 8) (h9 : n ≠ 9) :
    (s.interrupt n ret).keyUnread = s.keyUnread := by
  obtain ⟨h32, h36⟩ := entry_plain hn h8 h9
  rw [interrupt_eq s ret h32 h36]

/-! ## The output stream -/

/-- The output is the old one with at most one byte appended. -/
def OutputGrows (s t : State) : Prop := ∃ new, t.out = s.out ++ new ∧ new.length ≤ 1

theorem OutputGrows.of_eq {s t : State} (h : t.out = s.out) : OutputGrows s t :=
  ⟨[], by rw [h, List.append_nil], Nat.zero_le 1⟩

/-- A write sends its byte for address 32 to the output, and no other. -/
theorem StoredAt.outputGrows {s t : State} {a v : Word} {n : Nat} (h : StoredAt s t a n v) :
    OutputGrows s t := by
  refine ⟨_, h.2, ?_⟩
  split
  · exact Nat.le_refl 1
  · exact Nat.zero_le 1

theorem interrupt_outputGrows (s : State) (n : Nat) (ret : Word) : OutputGrows s (s.interrupt n ret) := by
  unfold OutputGrows
  rw [interrupt_out]
  exact (memWrite_stored s (s.sp + 4) ret (n := 4) (by decide)).outputGrows

/-- Each kind of effect appends at most one byte: a write stores once, an entry pushes once, the others leave the
output. -/
theorem Effect.outputGrows {s t : State} {i : Instr} (he : Effect s i t) : OutputGrows s t := by
  cases he with
  | reads => exact .of_eq rfl
  | writes sp pc a v n hn => exact (memWrite_stored s a v (Nat.le_trans hn (by decide))).outputGrows
  | halts => exact .of_eq rfl
  | returns => exact .of_eq rfl
  | enters pc n ret => exact interrupt_outputGrows { s with pc := pc } n ret

theorem deliver_outputGrows {s t : State} {c : Choice} (hd : s.deliver c = some t) : OutputGrows s t := by
  rcases deliver_cases hd with ⟨-, -, -, rfl⟩ | ⟨-, -, -, k, rest, -, rfl⟩
  · exact interrupt_outputGrows { s with timerPending := false } 4 s.pc
  · exact interrupt_outputGrows { s with keyData := k, keyUnread := true, keyQueue := rest } 5 s.pc

/-- Settles O49, by the ways a step gives a next state: a delivery, an instruction, or the Error of an undecodable
dword. The host's events leave the output, so the state that has heard the host stands for the first one. -/
theorem outputOnlyGrows : Obligations.OutputOnlyGrows := by
  intro s t hs
  have hgrows : OutputGrows s.hearHost t := by
    obtain ⟨-, hd | ⟨-, ⟨i, -, hx⟩ | ⟨e, -, -, rfl⟩⟩⟩ := step_cases hs
    · exact deliver_outputGrows hd
    · exact (exec_effect hx).outputGrows
    · exact interrupt_outputGrows s.hearHost 3 s.pc
  exact hgrows

/-! ## The input register -/

/-- No key arrives: keyData stays, and keyUnread is not set where it was clear. -/
def NoNewKey (s t : State) : Prop :=
  t.keyData = s.keyData ∧ (s.keyUnread = false → t.keyUnread = false)

theorem interrupt_noNewKey (s : State) {n : Nat} (ret : Word) (hn : n < 32) (h8 : n ≠ 8) (h9 : n ≠ 9) :
    NoNewKey s (s.interrupt n ret) := by
  refine ⟨interrupt_keyData s n ret, fun hu => ?_⟩
  rw [interrupt_keyUnread s ret hn h8 h9, hu]

/-- No instruction brings a key: reads can only clear keyUnread, and the entries that are performed leave it. -/
theorem Effect.noNewKey {s t : State} {i : Instr} (he : Effect s i t) : NoNewKey s t := by
  cases he with
  | reads => exact ⟨rfl, fun hclear => by simp only [hclear, ite_self]⟩
  | writes => exact ⟨rfl, id⟩
  | halts => exact ⟨rfl, id⟩
  | returns => exact ⟨rfl, fun hclear => by simp only [hclear, ite_self]⟩
  | enters pc n ret hi hn h8 h9 => exact interrupt_noNewKey { s with pc := pc } ret hn h8 h9

/-- A delivery brings no key, or it is the keyboard's and brings the oldest waiting one. -/
theorem deliver_key_cases {s t : State} {c : Choice} (hd : s.deliver c = some t) :
    NoNewKey s t ∨
      (c = .keyboard ∧ s.inIntr = false ∧ s.keyUnread = false ∧ s.keyQueue = t.keyData :: t.keyQueue ∧
        t.keyUnread = true) := by
  rcases deliver_cases hd with ⟨-, -, -, rfl⟩ | ⟨hc, hi, hu, k, rest, hq, rfl⟩
  · exact .inl (interrupt_noNewKey { s with timerPending := false } s.pc (n := 4)
      (by decide) (by decide) (by decide))
  · refine .inr ⟨hc, hi, hu, ?_, ?_⟩
    · rw [interrupt_keyData, interrupt_keyQueue, hq]
    · rw [interrupt_keyUnread _ _ (by decide) (by decide) (by decide)]

/-- A step brings no key, or it delivers the oldest one that waits once the host's events have arrived. -/
theorem step_key_cases {s t : State} (hs : step s = .next t) :
    NoNewKey s t ∨
      (s.turn.choice = .keyboard ∧ s.inIntr = false ∧ s.keyUnread = false ∧
        s.keyQueue ++ s.turn.keys = t.keyData :: t.keyQueue ∧ t.keyUnread = true) := by
  obtain ⟨-, hd | ⟨-, ⟨i, -, hx⟩ | ⟨e, -, -, rfl⟩⟩⟩ := step_cases hs
  · exact deliver_key_cases hd
  · exact .inl (exec_effect hx).noNewKey
  · exact .inl (interrupt_noNewKey s.hearHost s.pc (by decide) (by decide) (by decide))

/-- Settles O50: a step that changes keyData or sets keyUnread brings a key, so it is the keyboard delivery of
`step_key_cases`. -/
theorem keyDataChangesOnlyByDelivery : Obligations.KeyDataChangesOnlyByDelivery := by
  intro s t hs hchange
  rcases step_key_cases hs with ⟨hdata, hunread⟩ | hdelivered
  · rcases hchange with hne | ⟨hclear, hset⟩
    · exact absurd hdata hne
    · rw [hunread hclear] at hset
      cases hset
  · exact hdelivered

end Sys2Proof.Machine
end

section
/-!
The first dword of an instruction as the bits its form uses (30_encoding.md R71 to R82): a dword agrees with an
instruction's encoding on the used bits exactly when the fields that the form uses hold its codes. The decoder
and the encoder meet in these equivalences, one for each of the seven sets of used fields.
-/
namespace Sys2Proof

/-! ## A dword cut to some of its fields -/

/-- The fields of one first dword where another has ones. -/
def Fields.and (f g : Fields) : Fields where
  op := f.op &&& g.op
  am := f.am &&& g.am
  r0 := f.r0 &&& g.r0
  r1 := f.r1 &&& g.r1
  r2 := f.r2 &&& g.r2
  ty := f.ty &&& g.ty

theorem fields_toWord_inj {f g : Fields} : f.toWord = g.toWord ↔ f = g :=
  (Function.LeftInverse.injective fields_ofWord_toWord).eq_iff

/-- A mask made of fields takes the word's fields apart (R71); the bits 2..0 lie in no field. -/
theorem and_toWord (w : Word) (g : Fields) : w &&& g.toWord = ((Fields.ofWord w).and g).toWord := by
  apply BitVec.eq_of_getLsbD_eq
  intro i hi
  simp only [Fields.toWord, Fields.and, Fields.ofWord, BitVec.getLsbD_and, BitVec.getLsbD_append,
    BitVec.getLsbD_extractLsb']
  interval_cases i <;> simp

/-- A word agrees with an encoding on the bits of a mask exactly when its fields do. -/
theorem and_eq_headWord_iff {w m : Word} (g : Fields) (hm : m = g.toWord) {op : Opcode} {am : Mode}
    {r0 r1 r2 : BitVec 5} {ty : BitVec 3} :
    w &&& m = headWord op am r0 r1 r2 ty ↔
      (Fields.ofWord w).and g = ⟨op.code, am.code, r0, r1, r2, ty⟩ := by
  rw [hm, and_toWord, headWord, fields_toWord_inj]

section
variable {w : Word} {op : Opcode} {am : Mode} {r0 r1 r2 : BitVec 5} {ty : BitVec 3}

/-! ## The seven sets of used fields (R77 to R81) -/

theorem usesNone_iff :
    w &&& 0xFFE00000 = headWord op am 0 0 0 0 ↔
      (Fields.ofWord w).op = op.code ∧ (Fields.ofWord w).am = am.code :=
  (and_eq_headWord_iff ⟨.allOnes 8, .allOnes 3, 0, 0, 0, 0⟩ rfl).trans
    (by simp [-BitVec.reduceAllOnes, Fields.and])

theorem usesR0_iff :
    w &&& 0xFFFF0000 = headWord op am r0 0 0 0 ↔
      (Fields.ofWord w).op = op.code ∧ (Fields.ofWord w).am = am.code ∧ (Fields.ofWord w).r0 = r0 :=
  (and_eq_headWord_iff ⟨.allOnes 8, .allOnes 3, .allOnes 5, 0, 0, 0⟩ rfl).trans
    (by simp [-BitVec.reduceAllOnes, Fields.and])

theorem usesR1_iff :
    w &&& 0xFFE0F800 = headWord op am 0 r1 0 0 ↔
      (Fields.ofWord w).op = op.code ∧ (Fields.ofWord w).am = am.code ∧ (Fields.ofWord w).r1 = r1 :=
  (and_eq_headWord_iff ⟨.allOnes 8, .allOnes 3, 0, .allOnes 5, 0, 0⟩ rfl).trans
    (by simp [-BitVec.reduceAllOnes, Fields.and])

theorem usesR0R1_iff :
    w &&& 0xFFFFF800 = headWord op am r0 r1 0 0 ↔
      (Fields.ofWord w).op = op.code ∧ (Fields.ofWord w).am = am.code ∧
        (Fields.ofWord w).r0 = r0 ∧ (Fields.ofWord w).r1 = r1 :=
  (and_eq_headWord_iff ⟨.allOnes 8, .allOnes 3, .allOnes 5, .allOnes 5, 0, 0⟩ rfl).trans
    (by simp [-BitVec.reduceAllOnes, Fields.and])

theorem usesR0R1R2_iff :
    w &&& 0xFFFFFFC0 = headWord op am r0 r1 r2 0 ↔
      (Fields.ofWord w).op = op.code ∧ (Fields.ofWord w).am = am.code ∧
        (Fields.ofWord w).r0 = r0 ∧ (Fields.ofWord w).r1 = r1 ∧ (Fields.ofWord w).r2 = r2 :=
  (and_eq_headWord_iff ⟨.allOnes 8, .allOnes 3, .allOnes 5, .allOnes 5, .allOnes 5, 0⟩ rfl).trans
    (by simp [-BitVec.reduceAllOnes, Fields.and])

theorem usesR1Ty_iff :
    w &&& 0xFFE0F838 = headWord op am 0 r1 0 ty ↔
      (Fields.ofWord w).op = op.code ∧ (Fields.ofWord w).am = am.code ∧
        (Fields.ofWord w).r1 = r1 ∧ (Fields.ofWord w).ty = ty :=
  (and_eq_headWord_iff ⟨.allOnes 8, .allOnes 3, 0, .allOnes 5, 0, .allOnes 3⟩ rfl).trans
    (by simp [-BitVec.reduceAllOnes, Fields.and])

theorem usesR0R1Ty_iff :
    w &&& 0xFFFFF838 = headWord op am r0 r1 0 ty ↔
      (Fields.ofWord w).op = op.code ∧ (Fields.ofWord w).am = am.code ∧
        (Fields.ofWord w).r0 = r0 ∧ (Fields.ofWord w).r1 = r1 ∧ (Fields.ofWord w).ty = ty :=
  (and_eq_headWord_iff ⟨.allOnes 8, .allOnes 3, .allOnes 5, .allOnes 5, 0, .allOnes 3⟩ rfl).trans
    (by simp [-BitVec.reduceAllOnes, Fields.and])

end

/-! ## The rows of LOAD and STORE by data type -/

section
variable (t : DataType) (r b : Reg) (v : Word)

theorem encode_loadImmOf :
    encode (Instr.loadImmOf t r v) = (headWord .load .imm 0 r.code 0 t.code, some v) ∧
      (Instr.loadImmOf t r v).usedBits = 0xFFE0F838 := by
  cases t <;> exact ⟨rfl, rfl⟩

theorem encode_loadRegdirOf :
    encode (Instr.loadRegdirOf t r b) = (headWord .load .regdir b.code r.code 0 t.code, none) ∧
      (Instr.loadRegdirOf t r b).usedBits = 0xFFFFF838 := by
  cases t <;> exact ⟨rfl, rfl⟩

theorem encode_loadMemdirOf :
    encode (Instr.loadMemdirOf t r v) = (headWord .load .memdir 0 r.code 0 t.code, some v) ∧
      (Instr.loadMemdirOf t r v).usedBits = 0xFFE0F838 := by
  cases t <;> exact ⟨rfl, rfl⟩

theorem encode_loadRegindOf :
    encode (Instr.loadRegindOf t r b) = (headWord .load .regind b.code r.code 0 t.code, none) ∧
      (Instr.loadRegindOf t r b).usedBits = 0xFFFFF838 := by
  cases t <;> exact ⟨rfl, rfl⟩

theorem encode_loadRegdispOf :
    encode (Instr.loadRegdispOf t r b v) = (headWord .load .regdisp b.code r.code 0 t.code, some v) ∧
      (Instr.loadRegdispOf t r b v).usedBits = 0xFFFFF838 := by
  cases t <;> exact ⟨rfl, rfl⟩

theorem encode_storeRegdirOf :
    encode (Instr.storeRegdirOf t r b) = (headWord .store .regdir b.code r.code 0 t.code, none) ∧
      (Instr.storeRegdirOf t r b).usedBits = 0xFFFFF838 := by
  cases t <;> exact ⟨rfl, rfl⟩

theorem encode_storeMemdirOf :
    encode (Instr.storeMemdirOf t r v) = (headWord .store .memdir 0 r.code 0 t.code, some v) ∧
      (Instr.storeMemdirOf t r v).usedBits = 0xFFE0F838 := by
  cases t <;> exact ⟨rfl, rfl⟩

theorem encode_storeRegindOf :
    encode (Instr.storeRegindOf t r b) = (headWord .store .regind b.code r.code 0 t.code, none) ∧
      (Instr.storeRegindOf t r b).usedBits = 0xFFFFF838 := by
  cases t <;> exact ⟨rfl, rfl⟩

theorem encode_storeRegdispOf :
    encode (Instr.storeRegdispOf t r b v) = (headWord .store .regdisp b.code r.code 0 t.code, some v) ∧
      (Instr.storeRegdispOf t r b v).usedBits = 0xFFFFF838 := by
  cases t <;> exact ⟨rfl, rfl⟩

end

/-! ## From a decoded first dword to its encoding -/

/-- The word has the bits that encoding the shape's instructions needs, and the shape waits for the dword that
the encoder puts second. -/
def Shape.EncodedBy (w : Word) (sh : Shape) : Prop :=
  match sh with
  | .one i => w &&& i.usedBits = (encode i).1 ∧ (encode i).2 = none
  | .two f => ∀ v, w &&& (f v).usedBits = (encode (f v)).1 ∧ (encode (f v)).2 = some v

theorem Shape.EncodedBy.one {w m h : Word} {i : Instr} (he : encode i = (h, none) ∧ i.usedBits = m)
    (hw : w &&& m = h) : Shape.EncodedBy w (.one i) := by
  obtain ⟨he, rfl⟩ := he
  exact ⟨by rw [he, hw], by rw [he]⟩

theorem Shape.EncodedBy.two {w m h : Word} {f : Word → Instr}
    (he : ∀ v, encode (f v) = (h, some v) ∧ (f v).usedBits = m)
    (hw : w &&& m = h) : Shape.EncodedBy w (.two f) := by
  intro v
  obtain ⟨he, hm⟩ := he v
  exact ⟨by rw [he, hm, hw], by rw [he]⟩

/-- What a form decodes to is encoded by the word whose fields it was given. -/
theorem decodeForm_encodedBy {w : Word} {op : Opcode} {am : Mode} {sh : Shape}
    (hop : (Fields.ofWord w).op = op.code) (ham : (Fields.ofWord w).am = am.code)
    (h : decodeForm op am (Fields.ofWord w) = .ok sh) : sh.EncodedBy w := by
  cases op
  case int =>
    obtain ⟨rfl, h⟩ := onlyRegdir_ok h
    cases h
    exact .one ⟨rfl, rfl⟩ (usesR0_iff.mpr ⟨hop, ham, by simp⟩)
  case ret =>
    obtain ⟨rfl, h⟩ := onlyRegdir_ok h
    cases h
    exact .one ⟨rfl, rfl⟩ (usesNone_iff.mpr ⟨hop, ham⟩)
  case jmp | call =>
    rcases jumpForm_ok h with ⟨rfl, rfl⟩ | ⟨rfl, b, hb, rfl⟩ | ⟨rfl, b, hb, rfl⟩
    · exact .two (fun _ => ⟨rfl, rfl⟩) (usesNone_iff.mpr ⟨hop, ham⟩)
    · exact .one ⟨rfl, rfl⟩ (usesR0_iff.mpr ⟨hop, ham, hb⟩)
    · exact .two (fun _ => ⟨rfl, rfl⟩) (usesR0_iff.mpr ⟨hop, ham, hb⟩)
  case jz | jnz | jgz | jgez | jlz | jlez =>
    obtain ⟨r, hr, ⟨rfl, rfl⟩ | ⟨rfl, b, hb, rfl⟩ | ⟨rfl, b, hb, rfl⟩⟩ := condForm_ok h
    · exact .two (fun _ => ⟨rfl, rfl⟩) (usesR1_iff.mpr ⟨hop, ham, hr⟩)
    · exact .one ⟨rfl, rfl⟩ (usesR0R1_iff.mpr ⟨hop, ham, hb, hr⟩)
    · exact .two (fun _ => ⟨rfl, rfl⟩) (usesR0R1_iff.mpr ⟨hop, ham, hb, hr⟩)
  case load =>
    obtain ⟨r, t, hr, ht, ⟨rfl, rfl⟩ | ⟨rfl, rfl⟩ |
      ⟨b, hb, ⟨rfl, rfl⟩ | ⟨rfl, rfl⟩ | ⟨rfl, rfl⟩⟩⟩ := loadForm_ok h
    · exact .two (encode_loadImmOf t r) (usesR1Ty_iff.mpr ⟨hop, ham, hr, ht⟩)
    · exact .two (encode_loadMemdirOf t r) (usesR1Ty_iff.mpr ⟨hop, ham, hr, ht⟩)
    · exact .one (encode_loadRegdirOf t r b) (usesR0R1Ty_iff.mpr ⟨hop, ham, hb, hr, ht⟩)
    · exact .one (encode_loadRegindOf t r b) (usesR0R1Ty_iff.mpr ⟨hop, ham, hb, hr, ht⟩)
    · exact .two (encode_loadRegdispOf t r b) (usesR0R1Ty_iff.mpr ⟨hop, ham, hb, hr, ht⟩)
  case store =>
    obtain ⟨r, t, hr, ht, ⟨rfl, rfl⟩ | ⟨b, hb, ⟨rfl, rfl⟩ | ⟨rfl, rfl⟩ | ⟨rfl, rfl⟩⟩⟩ :=
      storeForm_ok h
    · exact .two (encode_storeMemdirOf t r) (usesR1Ty_iff.mpr ⟨hop, ham, hr, ht⟩)
    · exact .one (encode_storeRegdirOf t r b) (usesR0R1Ty_iff.mpr ⟨hop, ham, hb, hr, ht⟩)
    · exact .one (encode_storeRegindOf t r b) (usesR0R1Ty_iff.mpr ⟨hop, ham, hb, hr, ht⟩)
    · exact .two (encode_storeRegdispOf t r b) (usesR0R1Ty_iff.mpr ⟨hop, ham, hb, hr, ht⟩)
  case push | pop =>
    obtain ⟨rfl, h⟩ := onlyRegdir_ok h
    obtain ⟨r, hr, rfl⟩ := oneReg_ok h
    exact .one ⟨rfl, rfl⟩ (usesR0_iff.mpr ⟨hop, ham, hr⟩)
  case not =>
    obtain ⟨rfl, h⟩ := onlyRegdir_ok h
    obtain ⟨d, a, hd, ha, rfl⟩ := twoRegs_ok h
    exact .one ⟨rfl, rfl⟩ (usesR0R1_iff.mpr ⟨hop, ham, hd, ha⟩)
  all_goals
    obtain ⟨rfl, h⟩ := onlyRegdir_ok h
    obtain ⟨d, a, b, hd, ha, hb, rfl⟩ := threeRegs_ok h
    exact .one ⟨rfl, rfl⟩ (usesR0R1R2_iff.mpr ⟨hop, ham, hd, ha, hb⟩)

theorem decodeHead_encodedBy {w : Word} {sh : Shape} (h : decodeHead w = .ok sh) : sh.EncodedBy w := by
  unfold decodeHead at h
  simp only at h
  split at h
  · cases h
  · rename_i op hop
    split at h
    · cases h
    · rename_i am ham
      exact decodeForm_encodedBy (opcode_code_of_ofCode hop).symm (mode_code_of_ofCode ham).symm h

end Sys2Proof
end

section
/-!
Decoding and encoding are inverse to each other on the used bits (30_encoding.md R70 to R82), as words and as
bytes.
-/
namespace Sys2Proof

/-! ## From an encoding to what its first dword decodes to -/

theorem decodeHead_eq_decodeForm {w : Word} {op : Opcode} {am : Mode}
    (hop : (Fields.ofWord w).op = op.code) (ham : (Fields.ofWord w).am = am.code) :
    decodeHead w = decodeForm op am (Fields.ofWord w) := by
  rw [decodeHead, hop, ham, opcode_ofCode_code, mode_ofCode_code]

/-- The word decodes to the instruction, or waits for the dword that the encoder puts second to be it. -/
inductive DecodesTo (w : Word) : Instr → Prop where
  | one {i : Instr} (hd : decodeHead w = .ok (.one i)) (he : (encode i).2 = none) : DecodesTo w i
  | two {f : Word → Instr} {v : Word} (hd : decodeHead w = .ok (.two f))
      (he : (encode (f v)).2 = some v) : DecodesTo w (f v)

/-- A word that agrees with an encoding on the used bits decodes to the instruction, by the fields used and the
number of dwords. -/
theorem decodesTo_of_used {w : Word} {i : Instr} (hwf : i.wellFormed = true)
    (h : w &&& i.usedBits = (encode i).1) : DecodesTo w i := by
  cases i
  case int n =>
    obtain ⟨hop, ham, hn⟩ := usesR0_iff.mp h
    have hlt : n < 32 := of_decide_eq_true hwf
    refine .one ?_ rfl
    rw [decodeHead_eq_decodeForm hop ham, decodeForm, onlyRegdir, hn, BitVec.toNat_ofNat,
      Nat.mod_eq_of_lt hlt]
  case ret =>
    obtain ⟨hop, ham⟩ := usesNone_iff.mp h
    exact .one (decodeHead_eq_decodeForm hop ham) rfl
  case jmpMemdir v | callMemdir v =>
    obtain ⟨hop, ham⟩ := usesNone_iff.mp h
    exact .two (decodeHead_eq_decodeForm hop ham) rfl
  case jmpRegind b | callRegind b | push b | pop b =>
    obtain ⟨hop, ham, hb⟩ := usesR0_iff.mp h
    refine .one ?_ rfl
    simp only [decodeHead_eq_decodeForm hop ham, decodeForm, jumpForm, onlyRegdir, oneReg, hb,
      decodeReg_code]
    rfl
  case jmpRegdisp b v | callRegdisp b v =>
    obtain ⟨hop, ham, hb⟩ := usesR0_iff.mp h
    refine .two ?_ rfl
    simp only [decodeHead_eq_decodeForm hop ham, decodeForm, jumpForm, hb, decodeReg_code]
    rfl
  case jzMemdir r v | jnzMemdir r v | jgzMemdir r v | jgezMemdir r v | jlzMemdir r v | jlezMemdir r v =>
    obtain ⟨hop, ham, hr⟩ := usesR1_iff.mp h
    refine .two ?_ rfl
    simp only [decodeHead_eq_decodeForm hop ham, decodeForm, condForm, hr, decodeReg_code]
    rfl
  case jzRegind r b | jnzRegind r b | jgzRegind r b | jgezRegind r b | jlzRegind r b | jlezRegind r b |
      not r b =>
    obtain ⟨hop, ham, h0, h1⟩ := usesR0R1_iff.mp h
    refine .one ?_ rfl
    simp only [decodeHead_eq_decodeForm hop ham, decodeForm, condForm, onlyRegdir, twoRegs, h0, h1,
      decodeReg_code]
    rfl
  case jzRegdisp r b v | jnzRegdisp r b v | jgzRegdisp r b v | jgezRegdisp r b v | jlzRegdisp r b v |
      jlezRegdisp r b v =>
    obtain ⟨hop, ham, hb, hr⟩ := usesR0R1_iff.mp h
    refine .two ?_ rfl
    simp only [decodeHead_eq_decodeForm hop ham, decodeForm, condForm, hb, hr, decodeReg_code]
    rfl
  case add | sub | mul | div | mod | and | or | xor | asl | asr =>
    obtain ⟨hop, ham, hd, ha, hb⟩ := usesR0R1R2_iff.mp h
    refine .one ?_ rfl
    simp only [decodeHead_eq_decodeForm hop ham, decodeForm, onlyRegdir, threeRegs, hd, ha, hb,
      decodeReg_code]
    rfl
  case loadImm r v | loadubImm r v | loadsbImm r v | loaduwImm r v | loadswImm r v |
      loadMemdir r v | loadubMemdir r v | loadsbMemdir r v | loaduwMemdir r v | loadswMemdir r v |
      storeMemdir r v | storebMemdir r v | storebSxMemdir r v | storewMemdir r v | storewSxMemdir r v =>
    obtain ⟨hop, ham, hr, ht⟩ := usesR1Ty_iff.mp h
    refine .two ?_ rfl
    simp only [decodeHead_eq_decodeForm hop ham, decodeForm, loadForm, storeForm, hr, ht,
      decodeReg_code, decodeType_code]
    rfl
  case loadRegdisp r b v | loadubRegdisp r b v | loadsbRegdisp r b v | loaduwRegdisp r b v |
      loadswRegdisp r b v | storeRegdisp r b v | storebRegdisp r b v | storebSxRegdisp r b v |
      storewRegdisp r b v | storewSxRegdisp r b v =>
    obtain ⟨hop, ham, hb, hr, ht⟩ := usesR0R1Ty_iff.mp h
    refine .two ?_ rfl
    simp only [decodeHead_eq_decodeForm hop ham, decodeForm, loadForm, storeForm, hb, hr, ht,
      decodeReg_code, decodeType_code]
    rfl
  all_goals
    obtain ⟨hop, ham, hb, hr, ht⟩ := usesR0R1Ty_iff.mp h
    refine .one ?_ rfl
    simp only [decodeHead_eq_decodeForm hop ham, decodeForm, loadForm, storeForm, hb, hr, ht,
      decodeReg_code, decodeType_code]
    rfl

/-! ## Words -/

theorem decodeWords_of_one {w0 : Word} {i : Instr} (hd : decodeHead w0 = .ok (.one i)) (w1 : Word) :
    decodeWords w0 w1 = .ok i := by
  rw [decodeWords, hd]

theorem decodeWords_of_two {w0 : Word} {f : Word → Instr} (hd : decodeHead w0 = .ok (.two f))
    (w1 : Word) : decodeWords w0 w1 = .ok (f w1) := by
  rw [decodeWords, hd]

/-- What two dwords decode to is a one-dword instruction or takes the second dword. -/
theorem decodeWords_cases {w0 w1 : Word} {i : Instr} (h : decodeWords w0 w1 = .ok i) :
    decodeHead w0 = .ok (.one i) ∨ ∃ f, decodeHead w0 = .ok (.two f) ∧ i = f w1 := by
  unfold decodeWords at h
  split at h
  · cases h
  · cases h
    exact .inl ‹_›
  · cases h
    exact .inr ⟨_, ‹_›, rfl⟩

/-- Settles O5: the decoder's forms are encoded by the words they come from, and a word with an encoding's used
bits decodes to its instruction. -/
theorem decodeAcceptsExactlyTheEncodings : Obligations.DecodeAcceptsExactlyTheEncodings := by
  intro w0 w1 i
  constructor
  · intro h
    rcases decodeWords_cases h with hd | ⟨f, hd, rfl⟩
    · obtain ⟨hused, hnone⟩ := decodeHead_encodedBy hd
      exact ⟨decodeHead_wellFormed hd, hused, .inl hnone⟩
    · obtain ⟨hused, hsome⟩ := decodeHead_encodedBy hd w1
      exact ⟨decodeHead_wellFormed hd w1, hused, .inr hsome⟩
  · rintro ⟨hwf, hused, hsecond⟩
    cases decodesTo_of_used hwf hused with
    | one hd => exact decodeWords_of_one hd w1
    | @two f v hd he =>
      have hv : v = w1 := by simpa [he] using hsecond
      rw [decodeWords_of_two hd, hv]

/-- Settles O7: five closed words, each run through the decoder. -/
theorem writtenOutWordsDecode : Obligations.WrittenOutWordsDecode :=
  ⟨by decide, by decide, by decide, by decide, by decide⟩

/-! ## Bytes -/

theorem decode_of_one {w : Word} {i : Instr} (hd : decodeHead w = .ok (.one i)) (rest : List Byte) :
    decode (bytesOfDword w ++ rest) = .ok (i, rest) := by
  simp only [bytesOfDword, List.cons_append, List.nil_append, decode, dwordOfBytes_bytes, hd]

theorem decode_of_two {w : Word} {f : Word → Instr} (hd : decodeHead w = .ok (.two f)) (v : Word)
    (rest : List Byte) : decode (bytesOfDword w ++ bytesOfDword v ++ rest) = .ok (f v, rest) := by
  simp only [bytesOfDword, List.cons_append, List.nil_append, decode, dwordOfBytes_bytes, hd]

theorem encodeBytes_of_one {i : Instr} (h : (encode i).2 = none) :
    encodeBytes i = bytesOfDword (encode i).1 := by
  cases he : encode i with
  | mk w0 second =>
    rw [he] at h
    cases h
    simp only [encodeBytes, he]

theorem encodeBytes_of_two {i : Instr} {v : Word} (h : (encode i).2 = some v) :
    encodeBytes i = bytesOfDword (encode i).1 ++ bytesOfDword v := by
  cases he : encode i with
  | mk w0 second =>
    rw [he] at h
    cases h
    simp only [encodeBytes, he]

@[simp] theorem ofWord_headWord (op : Opcode) (am : Mode) (r0 r1 r2 : BitVec 5) (ty : BitVec 3) :
    Fields.ofWord (headWord op am r0 r1 r2 ty) = ⟨op.code, am.code, r0, r1, r2, ty⟩ :=
  fields_ofWord_toWord _

/-- The encoder leaves every bit zero that the form does not use (R81). -/
theorem encode_and_usedBits (i : Instr) : (encode i).1 &&& i.usedBits = (encode i).1 := by
  cases i <;>
    simp only [encode, Instr.usedBits, usesNone_iff, usesR0_iff, usesR1_iff, usesR0R1_iff,
      usesR0R1R2_iff, usesR1Ty_iff, usesR0R1Ty_iff, ofWord_headWord, and_self]

/-- Settles O4: an encoding has its own used bits, so its first dword decodes to the instruction, and the bytes
are those of one dword or two. -/
theorem decodeOfEncodeIsTheInstruction : Obligations.DecodeOfEncodeIsTheInstruction := by
  intro i rest hwf
  cases decodesTo_of_used hwf (encode_and_usedBits i) with
  | one hd he =>
    rw [encodeBytes_of_one he]
    exact decode_of_one hd rest
  | two hd he =>
    rw [encodeBytes_of_two he]
    exact decode_of_two hd _ rest

end Sys2Proof
end

section
/-!
The undefined first dwords (30_encoding.md R85 to R89): what each form of the decoder rejects, in the numbers of
R71, and together the five conditions E-OPC to E-TYPE.
-/
namespace Sys2Proof

/-! ## What the code tables leave out -/

theorem ofWord_r2_toNat (w : Word) : (Fields.ofWord w).r2.toNat = r2Field w := by
  simp only [Fields.ofWord, r2Field, BitVec.extractLsb'_toNat, Nat.shiftRight_eq_div_pow]

/-- An opcode's code lies in no range of R85. -/
theorem badOpcode_of_code {w : Word} {op : Opcode} (h : opField w = op.code.toNat) :
    badOpcode w = false := by
  rw [badOpcode, h, decide_eq_false_iff_not]
  cases op <;> decide

/-- A mode's code is none of the three of R86. -/
theorem badMode_of_code {w : Word} {am : Mode} (h : amField w = am.code.toNat) : badMode w = false := by
  rw [badMode, h, decide_eq_false_iff_not]
  cases am <;> decide

/-- A code that is not one of the three of R86 is a mode's. -/
theorem mode_ofCode_of_defined {c : BitVec 3}
    (h : ¬ (c.toNat = 0b001 ∨ c.toNat = 0b011 ∨ c.toNat = 0b101)) : ∃ am, Mode.ofCode c = some am := by
  rw [← Option.isSome_iff_exists]
  revert c
  decide

theorem badOpcode_of_ofCode {w : Word} (h : Opcode.ofCode (Fields.ofWord w).op = none) :
    badOpcode w = true := by
  by_contra hdef
  rw [badOpcode, decide_eq_true_iff, ← ofWord_op_toNat] at hdef
  obtain ⟨op, hop⟩ := opcode_ofCode_of_defined hdef
  cases hop.symm.trans h

theorem badMode_of_ofCode {w : Word} (h : Mode.ofCode (Fields.ofWord w).am = none) :
    badMode w = true := by
  by_contra hdef
  rw [badMode, decide_eq_true_iff, ← ofWord_am_toNat] at hdef
  obtain ⟨am, ham⟩ := mode_ofCode_of_defined hdef
  cases ham.symm.trans h

/-- One of the three codes of R89 is no data type's. -/
theorem decodeType_of_undefined {c : BitVec 3} (h : c.toNat = 0b010 ∨ c.toNat = 0b100 ∨ c.toNat = 0b110) :
    decodeType c = .error .undefinedDataType := by
  revert c
  decide

/-- A code above 0x11 is no register's. -/
theorem decodeReg_of_gt {c : BitVec 5} (h : 0x11 < c.toNat) :
    decodeReg c = .error .undefinedRegister := by
  revert c
  decide

/-! ## What each form rejects -/

/-- The check or the form ends in a decode error. -/
def Rejects {α : Type} (x : Except DecodeError α) : Prop := ∃ e, x = .error e

theorem rejects_ok {α : Type} (a : α) : Rejects (.ok a : Except DecodeError α) ↔ False :=
  ⟨fun ⟨_, h⟩ => (by cases h), False.elim⟩

theorem rejects_error {α : Type} (e : DecodeError) : Rejects (.error e : Except DecodeError α) ↔ True :=
  ⟨fun _ => trivial, fun _ => ⟨e, rfl⟩⟩

/-- A register is checked before what follows it (R91 step 5). -/
theorem rejects_reg_bind {α : Type} {c : BitVec 5} {k : Reg → Except DecodeError α} {p : Prop}
    (hk : ∀ r, Rejects (k r) ↔ p) : Rejects (decodeReg c >>= k) ↔ 0x11 < c.toNat ∨ p := by
  by_cases hc : 0x11 < c.toNat
  · rw [decodeReg_of_gt hc]
    exact ⟨fun _ => .inl hc, fun _ => ⟨_, rfl⟩⟩
  · obtain ⟨r, hr⟩ := decodeReg_of_le (Nat.le_of_not_lt hc)
    rw [hr, or_iff_right hc]
    exact hk r

/-- The data type is checked before what follows it (R91 step 6). -/
theorem rejects_type_bind {α : Type} {c : BitVec 3} {k : DataType → Except DecodeError α}
    (hk : ∀ t, Rejects (k t) ↔ False) :
    Rejects (decodeType c >>= k) ↔ c.toNat = 0b010 ∨ c.toNat = 0b100 ∨ c.toNat = 0b110 := by
  by_cases hc : c.toNat = 0b010 ∨ c.toNat = 0b100 ∨ c.toNat = 0b110
  · rw [decodeType_of_undefined hc]
    exact ⟨fun _ => hc, fun _ => ⟨_, rfl⟩⟩
  · obtain ⟨t, ht⟩ := decodeType_of_defined hc
    rw [ht]
    exact (hk t).trans (iff_of_false id hc)

theorem rejects_oneReg {c : BitVec 5} {i : Reg → Instr} : Rejects (oneReg c i) ↔ 0x11 < c.toNat :=
  (rejects_reg_bind fun _ => rejects_ok _).trans (iff_of_eq (or_false _))

theorem rejects_twoRegs {c0 c1 : BitVec 5} {i : Reg → Reg → Instr} :
    Rejects (twoRegs c0 c1 i) ↔ 0x11 < c0.toNat ∨ 0x11 < c1.toNat :=
  rejects_reg_bind fun r => rejects_oneReg (i := i r)

theorem rejects_threeRegs {c0 c1 c2 : BitVec 5} {i : Reg → Reg → Reg → Instr} :
    Rejects (threeRegs c0 c1 c2 i) ↔ 0x11 < c0.toNat ∨ 0x11 < c1.toNat ∨ 0x11 < c2.toNat :=
  rejects_reg_bind fun r => rejects_twoRegs (i := i r)

theorem rejects_onlyRegdir {am : Mode} {form : Except DecodeError Shape} :
    Rejects (onlyRegdir am form) ↔ am.code.toNat ≠ 0b000 ∨ Rejects form := by
  cases am <;> simp [onlyRegdir, Mode.code, rejects_error]

section
variable (am : Mode) (f : Fields)

theorem rejects_jumpForm {m : Word → Instr} {i : Reg → Instr} {d : Reg → Word → Instr} :
    Rejects (jumpForm am f m i d) ↔ am.code.toNat = 0b100 ∨ am.code.toNat = 0b000 ∨
      (am.code.toNat = 0b010 ∨ am.code.toNat = 0b111) ∧ 0x11 < f.r0.toNat := by
  cases am with
  | imm | regdir => simp [jumpForm, Mode.code, rejects_error]
  | memdir => simp [jumpForm, Mode.code, rejects_ok]
  | regind => simp [jumpForm, Mode.code, rejects_oneReg]
  | regdisp => exact (rejects_reg_bind fun b => rejects_ok _).trans (by simp [Mode.code])

theorem rejects_condForm {m : Reg → Word → Instr} {i : Reg → Reg → Instr}
    {d : Reg → Reg → Word → Instr} :
    Rejects (condForm am f m i d) ↔ am.code.toNat = 0b100 ∨ am.code.toNat = 0b000 ∨ 0x11 < f.r1.toNat ∨
      (am.code.toNat = 0b010 ∨ am.code.toNat = 0b111) ∧ 0x11 < f.r0.toNat := by
  cases am with
  | imm | regdir => simp [condForm, Mode.code, rejects_error]
  | memdir => exact (rejects_reg_bind fun r => rejects_ok _).trans (by simp [Mode.code])
  | regind => simp [condForm, Mode.code, rejects_twoRegs]
  | regdisp =>
    exact (rejects_reg_bind fun r => rejects_reg_bind fun b => rejects_ok _).trans (by simp [Mode.code])

theorem rejects_loadForm :
    Rejects (loadForm am f) ↔ 0x11 < f.r1.toNat ∨
      (am.code.toNat = 0b000 ∨ am.code.toNat = 0b010 ∨ am.code.toNat = 0b111) ∧ 0x11 < f.r0.toNat ∨
      (f.ty.toNat = 0b010 ∨ f.ty.toNat = 0b100 ∨ f.ty.toNat = 0b110) := by
  cases am with
  | imm | memdir =>
    exact (rejects_reg_bind fun r => rejects_type_bind fun t => rejects_ok _).trans (by simp [Mode.code])
  | regdir | regind | regdisp =>
    exact (rejects_reg_bind fun r => rejects_reg_bind fun b => rejects_type_bind fun t =>
      rejects_ok _).trans (by simp [Mode.code])

theorem rejects_storeForm :
    Rejects (storeForm am f) ↔ am.code.toNat = 0b100 ∨ 0x11 < f.r1.toNat ∨
      (am.code.toNat = 0b000 ∨ am.code.toNat = 0b010 ∨ am.code.toNat = 0b111) ∧ 0x11 < f.r0.toNat ∨
      (f.ty.toNat = 0b010 ∨ f.ty.toNat = 0b100 ∨ f.ty.toNat = 0b110) := by
  cases am with
  | imm => simp [storeForm, Mode.code, rejects_error]
  | memdir =>
    exact (rejects_reg_bind fun r => rejects_type_bind fun t => rejects_ok _).trans (by simp [Mode.code])
  | regdir | regind | regdisp =>
    exact (rejects_reg_bind fun r => rejects_reg_bind fun b => rejects_type_bind fun t =>
      rejects_ok _).trans (by simp [Mode.code])

end

/-! ## The five conditions together -/

/-- With an opcode and a mode the form rejects what E-MODE, E-REG and E-TYPE name (R87 to R89). -/
theorem rejects_decodeForm {w : Word} {op : Opcode} {am : Mode} (hop : opField w = op.code.toNat)
    (ham : amField w = am.code.toNat) :
    Rejects (decodeForm op am (Fields.ofWord w)) ↔
      unacceptedMode w = true ∨ badRegister w = true ∨ badType w = true := by
  simp only [unacceptedMode, badRegister, badType, decide_eq_true_eq]
  cases op
  case int | ret =>
    have hrange : opField w ≤ 0x01 := by rw [hop]; decide
    simp only [decodeForm, rejects_onlyRegdir, rejects_ok, ← ham]
    grind
  case jmp | call =>
    have hrange : 0x02 ≤ opField w ∧ opField w ≤ 0x03 := by rw [hop]; decide
    simp only [decodeForm, rejects_jumpForm, ← ham, ofWord_r0_toNat]
    grind
  case jz | jnz | jgz | jgez | jlz | jlez =>
    have hrange : 0x04 ≤ opField w ∧ opField w ≤ 0x09 := by rw [hop]; decide
    simp only [decodeForm, rejects_condForm, ← ham, ofWord_r0_toNat, ofWord_r1_toNat]
    grind
  case load =>
    have hload : opField w = 0x10 := hop
    simp only [decodeForm, rejects_loadForm, ← ham, ofWord_r0_toNat, ofWord_r1_toNat, ofWord_ty_toNat]
    grind
  case store =>
    have hstore : opField w = 0x11 := hop
    simp only [decodeForm, rejects_storeForm, ← ham, ofWord_r0_toNat, ofWord_r1_toNat, ofWord_ty_toNat]
    grind
  case push | pop =>
    have hrange : 0x20 ≤ opField w ∧ opField w ≤ 0x21 := by rw [hop]; decide
    simp only [decodeForm, rejects_onlyRegdir, rejects_oneReg, ← ham, ofWord_r0_toNat]
    grind
  case not =>
    have hnot : opField w = 0x38 := hop
    simp only [decodeForm, rejects_onlyRegdir, rejects_twoRegs, ← ham, ofWord_r0_toNat,
      ofWord_r1_toNat]
    grind
  all_goals
    have hrange : 0x30 ≤ opField w ∧ opField w ≤ 0x3A ∧ opField w ≠ 0x38 := by rw [hop]; decide
    simp only [decodeForm, rejects_onlyRegdir, rejects_threeRegs, ← ham, ofWord_r0_toNat,
      ofWord_r1_toNat, ofWord_r2_toNat]
    grind

/-- A first dword is rejected exactly where one of the five conditions holds; the opcode and the mode are checked
before the form (R91 steps 3 to 6). -/
theorem rejects_decodeHead (w : Word) : Rejects (decodeHead w) ↔ undefinedEncoding w = true := by
  have hsplit : undefinedEncoding w = true ↔ badOpcode w = true ∨ badMode w = true ∨
      unacceptedMode w = true ∨ badRegister w = true ∨ badType w = true := by
    simp only [undefinedEncoding, Bool.or_eq_true, or_assoc]
  rw [hsplit]
  cases hop : Opcode.ofCode (Fields.ofWord w).op with
  | none =>
    rw [decodeHead, hop]
    exact iff_of_true ⟨_, rfl⟩ (.inl (badOpcode_of_ofCode hop))
  | some op =>
    have hcode : opField w = op.code.toNat := by rw [opcode_code_of_ofCode hop, ofWord_op_toNat]
    cases ham : Mode.ofCode (Fields.ofWord w).am with
    | none =>
      rw [decodeHead, hop, ham]
      exact iff_of_true ⟨_, rfl⟩ (.inr (.inl (badMode_of_ofCode ham)))
    | some am =>
      have hmode : amField w = am.code.toNat := by rw [mode_code_of_ofCode ham, ofWord_am_toNat]
      rw [decodeHead, hop, ham, badOpcode_of_code hcode, badMode_of_code hmode]
      simpa using rejects_decodeForm hcode hmode

/-- The second dword is never checked (R91 step 7). -/
theorem rejects_decodeWords (w0 w1 : Word) : Rejects (decodeWords w0 w1) ↔ Rejects (decodeHead w0) := by
  cases hd : decodeHead w0 with
  | error e =>
    refine iff_of_true ⟨e, ?_⟩ ⟨e, rfl⟩
    rw [decodeWords, hd]
  | ok sh =>
    refine iff_of_false ?_ (rejects_ok sh).mp
    cases sh with
    | one i =>
      rw [decodeWords_of_one hd]
      exact (rejects_ok i).mp
    | two f =>
      rw [decodeWords_of_two hd]
      exact (rejects_ok (f w1)).mp

/-- Settles O6: only the first dword can be rejected, and it is where one of the five conditions holds. -/
theorem decodeRejectsExactlyTheUndefinedEncodings :
    Obligations.DecodeRejectsExactlyTheUndefinedEncodings := fun w0 w1 =>
  (rejects_decodeWords w0 w1).trans (rejects_decodeHead w0)

end Sys2Proof
end

section
/-!
The step at an undefined dword and at the all-zero dword (30_encoding.md R85 to R90): the one raises Error, the
other is INT 0.
-/
namespace Sys2Proof.Machine

/-! ## An undefined dword at PC -/

/-- An interrupt entry that is performed does what R185 says (60_exceptions.md R185). -/
theorem interrupt_enters (s : State) {n : Nat} (ret : Word) (hn : n < 32) (h8 : n ≠ 8) (h9 : n ≠ 9) :
    Enters s (s.interrupt n ret) n ret := by
  obtain ⟨h32, h36⟩ := entry_plain hn h8 h9
  rw [interrupt_eq s ret h32 h36]
  exact ⟨fun _ => rfl, rfl, memWrite_stored s (s.sp + 4) ret (by decide), rfl, rfl, rfl, rfl,
    ⟨rfl, rfl, rfl⟩, ⟨rfl, rfl, rfl⟩⟩

theorem fetch_of_undefined {s : State} (h32 : inSpan s.pc 4 32 = false) (h36 : inSpan s.pc 4 36 = false)
    (hu : undefinedEncoding (s.storedDword s.pc) = true) : ∃ e, s.fetch = .undecodable e := by
  obtain ⟨e, he⟩ := (rejects_decodeHead _).mpr hu
  exact ⟨e, by simp only [State.fetch, fetchDword_clear s h32 h36, he]⟩

theorem step_of_undecodable {s : State} {e : DecodeError} (hr : RunsInstruction s)
    (hf : s.fetch = .undecodable e) : step s = s.hearHost.raiseError := by
  rw [step_of_runs hr, runInstruction, fetch_hearHost, hf]

/-- Settles O9: the decoder rejects the dword, so the step raises Error, by whether a routine runs. -/
theorem undefinedEncodingRaisesError : Obligations.UndefinedEncodingRaisesError := by
  intro s hr h32 h36 hu
  obtain ⟨e, hf⟩ := fetch_of_undefined h32 h36 hu
  rw [step_of_undecodable hr hf]
  rcases raiseError_cases s.hearHost with ⟨hin, hfault⟩ | ⟨hin, hnext⟩
  · exact ⟨fun _ => hfault, fun hout => by cases hout.symm.trans hin⟩
  · exact ⟨fun h => (by cases h.symm.trans hin), fun _ =>
      ⟨_, hnext, interrupt_enters s.hearHost s.pc (by decide) (by decide) (by decide)⟩⟩

/-! ## The all-zero dword -/

/-- The all-zero dword is the encoding of INT 0 (30_encoding.md R90). -/
theorem decodeHead_zero : decodeHead 0 = .ok (.one (.int 0)) :=
  decodeHead_headWord .int .regdir 0 0 0 0

/-- INT 0 halts with PC past it (60_exceptions.md R193). -/
theorem exec_int_zero (s : State) : exec (.int 0) s = .next { s.advance 4 with halted := true } := rfl

/-- Settles O10: the zero dword is fetched as INT 0, which halts. -/
theorem zeroDwordHalts : Obligations.ZeroDwordHalts := by
  refine ⟨decodeWords_of_one decodeHead_zero, fun s hr h32 h36 hz => ?_⟩
  have hf : s.fetch = .instr (.int 0) := fetch_of_one h32 h36 (by rw [hz, decodeHead_zero])
  exact ⟨_, (step_of_fetch hr hf).trans (exec_int_zero s.hearHost), rfl, rfl⟩

end Sys2Proof.Machine
end

section
/-!
An instruction statement after ORG (30_encoding.md R101, R102, R105, R114): the statements in their places, the
label's value, and the bytes of the one statement that lays any out, at consecutive addresses.
-/
namespace Sys2Proof

theorem length_encodeBytes_le (i : Instr) : (encodeBytes i).length ≤ 8 := by
  cases he : (encode i).2 with
  | none =>
    rw [encodeBytes_of_one he]
    exact (by decide : 4 ≤ 8)
  | some v =>
    rw [encodeBytes_of_two he]
    exact Nat.le_refl 8

namespace Assembler

/-! ## A statement's instruction is well formed (R105) -/

section
variable {value : Expr → Except AsmError Int} {i : Instr}

/-- An expression's value is found before it is used. -/
theorem except_bind_ok {α β : Type} {x : Except AsmError α} {f : α → Except AsmError β} {b : β}
    (h : (x >>= f) = .ok b) : ∃ a, x = .ok a ∧ f a = .ok b := by
  cases x with
  | error e => cases h
  | ok a => exact ⟨a, rfl, h⟩

/-- A jump's, a load's or a store's row is one of the three it is given. -/
theorem jumpInstr_wellFormed {op : Operand} {m : Word → Instr} {ind : Reg → Instr}
    {disp : Reg → Word → Instr} (hm : ∀ w, (m w).wellFormed = true)
    (hind : ∀ b, (ind b).wellFormed = true) (hdisp : ∀ b w, (disp b w).wellFormed = true)
    (h : jumpInstr value op m ind disp = .ok i) : i.wellFormed = true := by
  cases op with
  | imm e => cases h
  | reg r => cases h
  | addr e =>
    obtain ⟨v, -, h⟩ := except_bind_ok h
    cases h
    exact hm _
  | ind b =>
    cases h
    exact hind b
  | indDisp b e =>
    obtain ⟨v, -, h⟩ := except_bind_ok h
    cases h
    exact hdisp b _

/-- Only INT has a number to check, and its statement checks it. -/
theorem source_instr_wellFormed {src : Source} (h : src.instr value = .ok i) : i.wellFormed = true := by
  cases src with
  | int e =>
    obtain ⟨n, -, h⟩ := except_bind_ok h
    split at h
    · rename_i hn
      cases h
      exact decide_eq_true (by omega)
    · cases h
  | jmp op | call op => exact jumpInstr_wellFormed (fun _ => rfl) (fun _ => rfl) (fun _ _ => rfl) h
  | cond c r op =>
    exact jumpInstr_wellFormed (fun _ => by cases c <;> rfl) (fun _ => by cases c <;> rfl)
      (fun _ _ => by cases c <;> rfl) h
  | load t d op =>
    cases op with
    | imm e =>
      obtain ⟨v, -, h⟩ := except_bind_ok h
      cases h
      cases t <;> rfl
    | reg r =>
      cases h
      cases t <;> rfl
    | addr _ | ind _ | indDisp _ _ =>
      simp only [Source.instr] at h
      exact jumpInstr_wellFormed (fun _ => by cases t <;> rfl) (fun _ => by cases t <;> rfl)
        (fun _ _ => by cases t <;> rfl) h
  | store z r op =>
    cases op with
    | imm e => cases h
    | reg d =>
      cases h
      cases z <;> rfl
    | addr _ | ind _ | indDisp _ _ =>
      simp only [Source.instr] at h
      exact jumpInstr_wellFormed (fun _ => by cases z <;> rfl) (fun _ => by cases z <;> rfl)
        (fun _ _ => by cases z <;> rfl) h
  | alu o d a b =>
    cases h
    cases o <;> rfl
  | ret | push _ | pop _ | not _ _ =>
    cases h
    rfl

end

/-! ## Bytes at consecutive addresses -/

/-- Above the device bytes and below the end of the address space each byte is found at its own address, and
every other address holds what it held. -/
theorem lookup_placeBytes (bs : List Byte) (m : Machine.Memory) {a : Nat} (hlo : 36 < a)
    (hhi : a + bs.length ≤ 2 ^ 32) (x : Nat) :
    Machine.Memory.lookup (placeBytes m (BitVec.ofNat 32 a) (bs.map some)) x =
      if a ≤ x ∧ x < a + bs.length then bs[x - a]? else Machine.Memory.lookup m x := by
  induction bs generalizing m a with
  | nil =>
    rw [if_neg (by simp)]
    rfl
  | cons b bs ih =>
    rw [List.length_cons] at hhi ⊢
    have hdev : ¬ Machine.isDevice (BitVec.ofNat 32 a) = true := by
      rw [Machine.isDevice_iff]
      bv_omega
    have hnat : (BitVec.ofNat 32 a).toNat = a := Nat.mod_eq_of_lt (by omega)
    have hnext : BitVec.ofNat 32 a + 1 = BitVec.ofNat 32 (a + 1) := (BitVec.ofNat_add a 1).symm
    rw [List.map_cons, placeBytes, if_neg hdev, hnat, hnext, ih _ (by omega) (by omega),
      Machine.lookup_store]
    rcases Nat.lt_trichotomy x a with hx | rfl | hx
    · rw [if_neg (by omega), if_neg (by omega), if_neg (by omega)]
    · rw [if_neg (by omega), if_pos rfl, if_pos (by omega), Nat.sub_self, List.getElem?_cons_zero]
    · by_cases hend : x < a + 1 + bs.length
      · rw [if_pos (by omega), if_pos (by omega), show x - a = x - (a + 1) + 1 by omega,
          List.getElem?_cons_succ]
      · rw [if_neg (by omega), if_neg (by omega), if_neg (by omega)]

/-! ## The two statements -/

/-- A statement's bytes are placed at its address, before those of the statements after it. -/
theorem emit_cons {m : Machine.Memory} {t : Symbols} {p : Placed} {rest : List Placed} {start : Int}
    {bs : List (Option Byte)} (hs : p.start = .ok start) (hb : p.stmt.bytes t start = .ok bs) :
    emit m t (p :: rest) = emit (placeBytes m (wordOf start) (p.sect.kind.contents bs)) t rest := by
  rw [emit, hs]
  show (p.stmt.bytes t start >>= _) = _
  rw [hb]
  rfl

section
variable (place : Section → Int) (a : Int) (label : String) (src : Source)

/-- An ORG and an instruction statement with a label. -/
def orgThenCode : List Stmt := [⟨none, .org (.lit a)⟩, ⟨some label, .code src⟩]

/-- ORG sets the address of the statement after it, whatever the symbols (R114). -/
theorem layoutAll_orgThenCode (t : Symbols) :
    layoutAll place t (orgThenCode a label src) =
      [⟨.ok (place ⟨.text, none⟩), ⟨.text, none⟩, ⟨none, .org (.lit a)⟩⟩,
        ⟨.ok a, ⟨.text, none⟩, ⟨some label, .code src⟩⟩] := by
  rfl

/-- The label is the statement's address (R101). -/
theorem solve_orgThenCode : solve place (orgThenCode a label src) 1 = [(label, a)] := by
  rfl

/-- The instruction's bytes are all that the two statements lay out. -/
theorem assemble_orgThenCode {i : Instr} (h : src.instr (fun e => e.eval [(label, a)] a) = .ok i) :
    assemble place (orgThenCode a label src) =
      .ok (placeBytes [] (wordOf a) ((encodeBytes i).map some)) := by
  have hnames : (orgThenCode a label src).flatMap Stmt.names = [label] := rfl
  have hrep : repeated [label] = none := rfl
  have horg : Stmt.bytes ⟨none, .org (.lit a)⟩ [(label, a)] (place ⟨.text, none⟩) = .ok [] := rfl
  have hcode : Stmt.bytes ⟨some label, .code src⟩ [(label, a)] a = .ok ((encodeBytes i).map some) := by
    simp only [Stmt.bytes, h]
    rfl
  simp only [assemble, hnames, hrep, List.length_singleton, solve_orgThenCode, layoutAll_orgThenCode]
  rw [emit_cons rfl horg, emit_cons rfl hcode]
  rfl

end

/-- Settles O54: the image is the instruction's bytes placed from the ORG address on, where no device byte and
no end of the address space comes between them. -/
theorem assembledInstructionIsPlacedAtOrg : Obligations.AssembledInstructionIsPlacedAtOrg := by
  intro place a label src i h hlo hhi
  have hlen := length_encodeBytes_le i
  have hlookup := lookup_placeBytes (encodeBytes i) [] (a := a) (by omega) (by omega)
  refine ⟨source_instr_wellFormed h, _, assemble_orgThenCode place a label src h, ?_, ?_⟩
  · intro k hk
    rw [wordOf, BitVec.ofInt_natCast, hlookup, if_pos (by omega), Nat.add_sub_cancel_left]
  · intro x hx
    rw [wordOf, BitVec.ofInt_natCast, hlookup, if_neg (by omega)]
    rfl

end Assembler
end Sys2Proof
end

section
/-!
Control flow (40_control_flow.md R120 to R131): where the jumps, CALL, INT and RET go and what else they do, and
that RET at the entry level is the one way out of an interrupt routine (60_exceptions.md R187).
-/
namespace Sys2Proof.Machine

/-! ## The end of a routine -/

/-- Of the kinds of effect only a return clears inIntr, and only at the routine's entry level; an entry needs that no
routine runs, and the others leave inIntr. -/
theorem Effect.routine_ends {s t : State} {i : Instr} (he : Effect s i t) (hin : s.inIntr = true)
    (hout : t.inIntr = false) : i = .ret ∧ s.sp = s.intrSP := by
  cases he with
  | reads => cases hin.symm.trans hout
  | writes => cases hin.symm.trans hout
  | halts => cases hin.symm.trans hout
  | returns =>
    have hlevel : (s.inIntr && s.sp != s.intrSP) = false := hout
    rw [hin, Bool.true_and, bne_eq_false_iff_eq] at hlevel
    exact ⟨rfl, hlevel⟩
  | enters pc n ret hopen => cases hin.symm.trans hopen

/-- Nothing is delivered while a routine runs (60_exceptions.md R189). -/
theorem inIntr_of_deliver {s t : State} {c : Choice} (hd : s.deliver c = some t) : s.inIntr = false := by
  rcases deliver_cases hd with ⟨-, -, hopen, -⟩ | ⟨-, hopen, -⟩ <;> exact hopen

/-- Settles O47, by the ways a step gives a next state: inside a routine no delivery and no Error does, so an
instruction has run, and its effect is a return at the entry level. -/
theorem onlyRetAtTheEntryLevelEndsARoutine : Obligations.OnlyRetAtTheEntryLevelEndsARoutine := by
  intro s t hin hs hout
  obtain ⟨-, hd | ⟨-, ⟨i, hf, hx⟩ | ⟨e, -, hopen, -⟩⟩⟩ := step_cases hs
  · have hopen : s.hearHost.inIntr = false := inIntr_of_deliver hd
    cases hin.symm.trans hopen
  · obtain ⟨rfl, hlevel⟩ := (exec_effect hx).routine_ends hin hout
    exact ⟨hf, hlevel⟩
  · cases hin.symm.trans hopen

/-! ## Addresses of operands -/

/-- Settles O22: the base register is read after the advance, so PC gives the next instruction's address. -/
theorem operandAddressFollowsTheMode : Obligations.OperandAddressFollowsTheMode := by
  intro s w b
  have hbase : s.address (.regdisp b w) = s.operand 8 b + w :=
    congrArg (· + w) (reg_advance_operand s 8 b)
  exact ⟨rfl, reg_advance_operand s 4 b, by rw [hbase, BitVec.toNat_add]⟩

/-! ## INT -/

/-- Settles O26: of the cases of an INT only that of a number without an entry is left. -/
theorem intWithoutAnEncodingIsRefused : Obligations.IntWithoutAnEncodingIsRefused := by
  intro s n hn
  rcases execInt_cases n s with ⟨h0, -⟩ | ⟨-, h⟩ | ⟨h89, -⟩ | ⟨-, hlt, -⟩
  · omega
  · exact h
  · omega
  · omega

/-- Settles O23: outside a routine the INT is the entry that R185 describes, from the state past the instruction,
which differs from the first one only in PC. -/
theorem intEntersItsRoutine : Obligations.IntEntersItsRoutine := by
  intro s n h0 hn h8 h9 hopen
  refine ⟨(s.advance 4).interrupt n (s.pc + 4), ?_, interrupt_enters (s.advance 4) (s.pc + 4) hn h8 h9⟩
  rcases execInt_cases n s with ⟨hz, -⟩ | ⟨hge, -⟩ | ⟨h89, -⟩ | ⟨-, -, -, -, ⟨hin, -⟩ | ⟨-, h⟩⟩
  · exact absurd hz h0
  · omega
  · omega
  · cases hin.symm.trans hopen
  · exact h

/-! ## Jumps -/

/-- A state that differs only in PC has gone there. -/
theorem goesTo_withPc (s : State) (target : Word) : GoesTo (.next { s with pc := target }) s target := by
  refine ⟨_, rfl, fun r => ?_, fun _ => rfl, rfl, ⟨rfl, rfl, rfl⟩, ⟨rfl, rfl, rfl⟩, ⟨rfl, rfl, rfl⟩⟩
  cases r <;> rfl

theorem exec_jmpInstr (o : MemOperand) (s : State) : exec (jmpInstr o) s = jump o s := by
  cases o <;> rfl

/-- Settles O27: a jump leaves a state that differs only in PC. -/
theorem jmpGoesToTheOperandAddress : Obligations.JmpGoesToTheOperandAddress := by
  intro s o
  rw [exec_jmpInstr]
  exact goesTo_withPc s (s.address o)

/-- A conditional jump changes PC alone, by the tested register as the instruction reads it. -/
theorem condJump_eq (cond : Word → Bool) (tested : Reg) (o : MemOperand) (s : State) :
    condJump cond tested o s = .next
      { s with pc := if cond (s.operand o.length tested) then s.address o else s.pc + o.length } := by
  unfold condJump
  simp only [reg_advance_operand]
  split <;> rfl

/-! ## The conditions of R126 to R131, by bit 31 and the test for zero -/

/-- Bit 31 is the sign. -/
theorem getLsbD_31_eq (v : Word) : v.getLsbD 31 = decide (v.toInt < 0) :=
  (BitVec.msb_eq_getLsbD_last v).symm.trans BitVec.msb_eq_toInt

theorem beq_zero_eq (v : Word) : (v == 0) = decide (v.toInt = 0) := by
  rw [Bool.eq_iff_iff, beq_iff_eq, decide_eq_true_iff, ← BitVec.toInt_inj]
  rfl

theorem isPositive_eq : isPositive = jumpsWhen .jgz := by
  funext v
  rw [isPositive, jumpsWhen, bne, beq_zero_eq, getLsbD_31_eq, ← decide_not, ← decide_not, ← Bool.decide_and,
    decide_eq_decide]
  omega

theorem isNonnegative_eq : isNonnegative = jumpsWhen .jgez := by
  funext v
  rw [isNonnegative, jumpsWhen, getLsbD_31_eq, ← decide_not, decide_eq_decide, Int.not_lt]

theorem isNegative_eq : isNegative = jumpsWhen .jlz := by
  funext v
  exact (getLsbD_31_eq v).symm

theorem isNonpositive_eq : isNonpositive = jumpsWhen .jlez := by
  funext v
  rw [isNonpositive, jumpsWhen, beq_zero_eq, getLsbD_31_eq, ← Bool.decide_or, decide_eq_decide, Int.le_iff_lt_or_eq]

/-- Every conditional jump tests its register with the condition that its name has in the spec. -/
theorem exec_condInstr (c : Assembler.CondName) (tested : Reg) (o : MemOperand) (s : State) :
    exec (condInstr c tested o) s = condJump (jumpsWhen c) tested o s := by
  cases c with
  | jz => cases o <;> rfl
  | jnz => cases o <;> rfl
  | jgz =>
    rw [← isPositive_eq]
    cases o <;> rfl
  | jgez =>
    rw [← isNonnegative_eq]
    cases o <;> rfl
  | jlz =>
    rw [← isNegative_eq]
    cases o <;> rfl
  | jlez =>
    rw [← isNonpositive_eq]
    cases o <;> rfl

/-- Settles O30: a conditional jump changes PC alone, and its condition is the spec's. -/
theorem conditionalJumpsTestTheRegister : Obligations.ConditionalJumpsTestTheRegister := by
  intro s c tested o
  rw [exec_condInstr, condJump_eq]
  exact goesTo_withPc s _

/-! ## CALL and RET -/

theorem exec_callInstr (o : MemOperand) (s : State) : exec (callInstr o) s = call o s := by
  cases o <;> rfl

/-- Settles O28: the fields of a CALL's next state, whose storage and output are those of the push. -/
theorem callPushesTheReturnAddress : Obligations.CallPushesTheReturnAddress := by
  intro s o
  refine ⟨_, (exec_callInstr o s).trans (call_eq o s), fun r => ?_, ?_, ⟨rfl, rfl, rfl⟩, ⟨rfl, rfl, rfl⟩,
    ⟨rfl, rfl, rfl⟩⟩
  · cases r <;> rfl
  · exact memWrite_stored s (s.sp + 4) (s.pc + o.length) (by decide)

/-- Settles O29: the fields of a RET's next state; inIntr stays exactly off the entry level. -/
theorem retPopsThePc : Obligations.RetPopsThePc := by
  intro s
  refine ⟨_, execRet_eq s, fun r => ?_, ?_, rfl, rfl, ?_⟩
  · cases r <;> rfl
  · rw [Bool.and_eq_true, bne_iff_ne]
  · exact ⟨rfl, rfl, rfl, fun _ => rfl, rfl, ⟨rfl, rfl, rfl⟩, ⟨rfl, rfl, rfl⟩⟩

end Sys2Proof.Machine
end

section
/-!
LOAD and STORE (41_load_store.md R140 to R148): the extension of the model is that of the spec's bits (20_memory.md
R45), a read of the type's size gives the bits it keeps, and each form writes one register or stores once.
-/
namespace Sys2Proof.Machine

/-! ## The extension by bits (20_memory.md R45) -/

/-- The dword whose n low bits are set. -/
def lowMask (n : Nat) : Word := (BitVec.allOnes n).setWidth 32

@[simp] theorem getElem_lowMask (n : Nat) {i : Nat} (hi : i < 32) : (lowMask n)[i] = decide (i < n) := by
  simp [lowMask]

theorem zeroExtend_eq_and_lowMask (v : Word) (n : Nat) : (v.setWidth n).setWidth 32 = v &&& lowMask n := by
  ext i hi
  by_cases hin : i < n <;> simp [hi, hin]

/-- A value whose bit n - 1 is set gets ones above its n low bits, any other gets zeros. -/
theorem signExtend_eq_of_lowMask (v : Word) {n : Nat} (hn : 0 < n) :
    (v.setWidth n).signExtend 32 = if v.getLsbD (n - 1) then v ||| ~~~lowMask n else v &&& lowMask n := by
  have hsign : (v.setWidth n).msb = v.getLsbD (n - 1) := by
    rw [BitVec.msb_eq_getLsbD_last, BitVec.getLsbD_setWidth, decide_eq_true (by omega), Bool.true_and]
  split
  · rename_i hset
    rw [← hsign] at hset
    ext i hi
    by_cases hin : i < n <;> simp [BitVec.getElem_signExtend, hset, hi, hin]
  · rename_i hclear
    rw [← hsign, Bool.not_eq_true] at hclear
    rw [BitVec.signExtend_eq_setWidth_of_msb_false hclear, zeroExtend_eq_and_lowMask]

/-- The extension that the meanings use is the one the spec says by bits. -/
theorem typeExt_eq_extended (t : DataType) (v : Word) : typeExt t v = extended t v := by
  cases t with
  | dword => rfl
  | uword => exact zeroExtend_eq_and_lowMask v 16
  | sword => exact signExtend_eq_of_lowMask v (n := 16) (by decide)
  | ubyte => exact zeroExtend_eq_and_lowMask v 8
  | sbyte => exact signExtend_eq_of_lowMask v (n := 8) (by decide)

/-- A mask of the n low bits leaves the n low bits. -/
theorem setWidth_and_lowMask (v : Word) {n : Nat} (hn : n ≤ 32) : (v &&& lowMask n).setWidth n = v.setWidth n := by
  rw [BitVec.setWidth_and, lowMask, BitVec.setWidth_setWidth_of_le _ hn, BitVec.setWidth_eq, BitVec.and_allOnes]

/-- A read of the type's size and a read of the whole dword have the same extension. -/
theorem typeExt_memRead (s : State) (a : Word) (t : DataType) :
    typeExt t (s.memRead a (typeSize t)).1 = extended t (s.seenDword a) := by
  have hword : (s.memRead a 2).1.setWidth 16 = (s.seenDword a).setWidth 16 :=
    (congrArg (·.setWidth 16) (memRead_two s a)).trans (setWidth_and_lowMask _ (by decide))
  have hbyte : (s.memRead a 1).1.setWidth 8 = (s.seenDword a).setWidth 8 :=
    (congrArg (·.setWidth 8) (memRead_one s a)).trans (setWidth_and_lowMask _ (by decide))
  rw [← typeExt_eq_extended]
  cases t with
  | dword => exact memRead_four s a
  | uword => exact congrArg (·.setWidth 32) hword
  | sword => exact congrArg (·.signExtend 32) hword
  | ubyte => exact congrArg (·.setWidth 32) hbyte
  | sbyte => exact congrArg (·.signExtend 32) hbyte

/-! ## A register write as the one effect -/

/-- Past the instruction a register write changes no more than that register and PC. -/
theorem writesRegister_setReg (s : State) (bytes : Word) (d : Reg) (v : Word) :
    WritesRegister (.next ((s.advance bytes).setReg d v)) s bytes d v := by
  refine ⟨_, rfl, fun r => ?_, fun a => ?_, ?_, ⟨?_, ?_, ?_⟩, ⟨?_, ?_, ?_⟩, ⟨?_, ?_, ?_⟩⟩
  · rw [reg_setReg, reg_advance_operand]
  · rw [State.byteAt, setReg_mem]
    rfl
  all_goals simp

/-- A register written after a read adds nothing to what the read does outside the registers. -/
theorem ReadsOnly.setReg {s t : State} {a : Word} {n : Nat} (h : ReadsOnly s t a n) (d : Reg) (v : Word) :
    ReadsOnly s (t.setReg d v) a n := by
  simpa [ReadsOnly, SameStorage, SameControl, SameHost, State.byteAt] using h

/-! ## LOAD -/

theorem exec_loadImmOf (t : DataType) (d : Reg) (v : Word) (s : State) :
    exec (Instr.loadImmOf t d v) s = loadConst t d v s := by
  cases t <;> rfl

theorem exec_loadRegdirOf (t : DataType) (d r : Reg) (s : State) :
    exec (Instr.loadRegdirOf t d r) s = loadReg t d r s := by
  cases t <;> rfl

theorem exec_loadInstr (t : DataType) (d : Reg) (o : MemOperand) (s : State) :
    exec (loadInstr t d o) s = loadMem t d o s := by
  cases o <;> cases t <;> rfl

/-- Settles O31: the LOAD of a constant is one register write past its two dwords. -/
theorem loadOfAConstantExtendsIt : Obligations.LoadOfAConstantExtendsIt := by
  intro s t d v
  rw [exec_loadImmOf, loadConst, typeExt_eq_extended]
  exact writesRegister_setReg s 8 d _

/-- Settles O32: the LOAD of a register is one register write, of its source as an operand of the instruction. -/
theorem loadOfARegisterExtendsIt : Obligations.LoadOfARegisterExtendsIt := by
  intro s t d r
  rw [exec_loadRegdirOf, loadReg, typeExt_eq_extended, reg_advance_operand]
  exact writesRegister_setReg s 4 d _

/-- Settles O33: the LOAD reads past the instruction, where the bytes are those of the first state, and then writes
its register. -/
theorem loadFromMemoryExtendsTheBytes : Obligations.LoadFromMemoryExtendsTheBytes := by
  intro s t d o
  have hsize : typeSize t ≤ 2 ^ 32 := Nat.le_trans (typeSize_le t) (by decide)
  have hread : ReadsOnly s ((s.advance o.length).memRead (s.address o) (typeSize t)).2 (s.address o) (typeSize t) :=
    memRead_readsOnly (s.advance o.length) (s.address o) hsize
  have hvalue : typeExt t ((s.advance o.length).memRead (s.address o) (typeSize t)).1 =
      extended t (s.seenDword (s.address o)) :=
    typeExt_memRead (s.advance o.length) (s.address o) t
  refine ⟨_, exec_loadInstr t d o s, fun r => ?_, hread.setReg d _⟩
  rw [reg_setReg, memRead_reg, reg_advance_operand]
  exact if_congr Iff.rfl hvalue rfl

/-! ## STORE -/

theorem exec_storeRegdirOf (t : DataType) (r d : Reg) (s : State) :
    exec (Instr.storeRegdirOf t r d) s = storeReg t r d s := by
  cases t <;> rfl

theorem exec_storeInstr (t : DataType) (r : Reg) (o : MemOperand) (s : State) :
    exec (storeInstr t r o) s = storeMem t r o s := by
  cases o <;> cases t <;> rfl

/-- Settles O35: the STORE to a register is one register write, of its source as an operand of the instruction. -/
theorem storeToARegisterExtendsTheSource : Obligations.StoreToARegisterExtendsTheSource := by
  intro s t r d
  rw [exec_storeRegdirOf, storeReg, typeExt_eq_extended, reg_advance_operand]
  exact writesRegister_setReg s 4 d _

/-- Settles O36: the fields of a STORE's next state, whose storage and output are those of one write. -/
theorem storeToMemoryStoresTheLowBytes : Obligations.StoreToMemoryStoresTheLowBytes := by
  intro s t r o
  refine ⟨_, (exec_storeInstr t r o s).trans (storeMem_eq t r o s), fun x => ?_, ?_, ⟨rfl, rfl, rfl⟩,
    ⟨rfl, rfl, rfl⟩, ⟨rfl, rfl, rfl⟩⟩
  · cases x <;> rfl
  · rw [reg_advance_operand]
    exact memWrite_stored s (s.address o) (s.operand o.length r) (Nat.le_trans (typeSize_le t) (by decide))

end Sys2Proof.Machine
end

section
/-!
PUSH and POP (42_stack.md R150 to R153): the fields of the next state of each, and from these two statements alone that
a POP takes back what a PUSH of the same register did.
-/
namespace Sys2Proof.Machine

/-- Outside PC an instruction reads the registers as they stand before it (10_state.md R25). -/
theorem operand_of_ne_pc (s : State) (bytes : Word) {r : Reg} (h : r ≠ .pc) : s.operand bytes r = s.reg r :=
  if_neg h

/-- The dwords of the same storage are the same. -/
theorem SameStorage.storedDword {s t : State} (h : SameStorage s t) (a : Word) :
    t.storedDword a = s.storedDword a := by
  unfold State.storedDword
  rw [h, h, h, h]

/-- Settles O37: the fields of a PUSH's next state, whose storage and output are those of one write. -/
theorem pushStoresTheRegisterAboveTheTop : Obligations.PushStoresTheRegisterAboveTheTop := by
  intro s r
  refine ⟨_, execPush_eq r s, fun x => ?_, ?_, ⟨rfl, rfl, rfl⟩, ⟨rfl, rfl, rfl⟩, ⟨rfl, rfl, rfl⟩⟩
  · cases x <;> rfl
  · rw [reg_advance_operand]
    exact memWrite_stored s (s.sp + 4) (s.operand 4 r) (by decide)

/-- Settles O38: the read and the fall of SP come before the register write, which adds nothing outside the
registers. -/
theorem popWritesTheRegisterLast : Obligations.PopWritesTheRegisterLast := by
  intro s d
  refine ⟨_, execPop_eq d s, fun x => ?_, ReadsOnly.setReg ?_ d _⟩
  · rw [reg_setReg]
    refine if_congr Iff.rfl rfl ?_
    cases x <;> rfl
  · exact ⟨rfl, rfl, rfl, fun _ => rfl, rfl, ⟨rfl, rfl, rfl⟩, ⟨rfl, rfl, rfl⟩⟩

/-- Settles O39: the POP reads the slot that the PUSH wrote, so the value it brings is the one pushed. -/
theorem pushThenPopRestores : Obligations.PushThenPopRestores := by
  intro s r h32 h36
  obtain ⟨t, hpush, htreg, hstored, -⟩ := pushStoresTheRegisterAboveTheTop s r
  obtain ⟨u, hpop, hureg, -, -, -, hsame, -⟩ := popWritesTheRegisterLast t r
  have htop : t.sp = s.sp + 4 := htreg .sp
  have hslot : t.storedDword (s.sp + 4) = s.operand 4 r := storedDword_of_stored hstored h32 h36
  have hvalue : u.reg r = s.operand 4 r := by
    rw [hureg, if_pos rfl, htop, seenDword_plain t h32 h36, hslot]
  have hregs : ∀ x, x ≠ .pc → u.reg x = s.reg x := by
    intro x hx
    by_cases hxr : x = r
    · rw [hxr, hvalue, operand_of_ne_pc s 4 (hxr ▸ hx)]
    · rw [hureg, if_neg hxr]
      by_cases hsp : x = .sp
      · rw [if_pos hsp, htop, BitVec.add_sub_cancel, hsp, reg_sp]
      · rw [if_neg hsp, operand_of_ne_pc t 4 hx, htreg, if_neg hsp, operand_of_ne_pc s 4 hx]
  refine ⟨t, u, hpush, hpop, hregs .sp (by decide), hregs, ?_, (hsame.storedDword _).trans hslot⟩
  rintro rfl
  exact hvalue

end Sys2Proof.Machine
end

section
/-!
Arithmetic and logic (43_alu.md R160 to R174): each instruction is one register write of a function of its two
sources, so what is left to say is that function, on integers or bit by bit, and the instruction's word.
-/
namespace Sys2Proof.Machine

/-! ## The shared operations -/

/-- An arithmetic or logic instruction reads both sources and then writes one register (43_alu.md R160). -/
theorem alu_writesRegister (f : Word → Word → Word) (d a b : Reg) (s : State) :
    WritesRegister (alu f d a b s) s 4 d (f (s.operand 4 a) (s.operand 4 b)) := by
  rw [← reg_advance_operand s 4 a, ← reg_advance_operand s 4 b]
  exact writesRegister_setReg s 4 d _

/-- With a divisor that is not zero DIV and MOD are no different from the others. -/
theorem aluDivide_writesRegister (f : Word → Word → Word) (d a : Reg) {b : Reg} {s : State}
    (hb : s.operand 4 b ≠ 0) :
    WritesRegister (aluDivide f d a b s) s 4 d (f (s.operand 4 a) (s.operand 4 b)) := by
  rcases aluDivide_cases f d a b s with ⟨hz, -⟩ | ⟨-, h⟩
  · exact absurd hz hb
  · rw [h]
    exact alu_writesRegister f d a b s

/-- A zero divisor has the outcome of an Error, the same for DIV and MOD (43_alu.md R164, R165). -/
theorem aluDivide_of_zero (f : Word → Word → Word) (d a : Reg) {b : Reg} {s : State} (hb : s.operand 4 b = 0) :
    aluDivide f d a b s = s.raiseError := by
  rw [aluDivide, reg_advance_operand, if_pos hb]

/-! ## The words -/

/-- The fields of a three-register dword, put together by shifts (43_alu.md R161 to R171). -/
theorem headWord_eq_aluWord (op : Opcode) (d a b : Reg) :
    headWord op .regdir d.code a.code b.code 0 = aluWord (op.code.setWidth 32 <<< 24) d a b := by
  apply BitVec.eq_of_getLsbD_eq
  intro i hi
  simp only [headWord, aluWord, Mode.code, Fields.toWord, BitVec.getLsbD_append, BitVec.getLsbD_or,
    BitVec.getLsbD_shiftLeft, BitVec.getLsbD_setWidth]
  interval_cases i <;> simp

/-- A three-register instruction's word, over the base word of its opcode. -/
theorem encode_eq_aluWord {i : Instr} {op : Opcode} {base : Word} {d a b : Reg}
    (hi : encode i = (headWord op .regdir d.code a.code b.code 0, none)) (hbase : op.code.setWidth 32 <<< 24 = base) :
    encode i = (aluWord base d a b, none) := by
  rw [hi, headWord_eq_aluWord, hbase]

/-! ## ADD, SUB and MUL -/

section
variable {v w : Word} {x y : Int}

/-! A word stands for an integer that has its low 32 bits: its signed and its unsigned value are two such integers. -/

theorem sumOf_eq_ofInt (hx : BitVec.ofInt 32 x = v) (hy : BitVec.ofInt 32 y = w) :
    sumOf v w = BitVec.ofInt 32 (x + y) := by
  rw [BitVec.ofInt_add, hx, hy, sumOf]

theorem differenceOf_eq_ofInt (hx : BitVec.ofInt 32 x = v) (hy : BitVec.ofInt 32 y = w) :
    differenceOf v w = BitVec.ofInt 32 (x - y) := by
  rw [Int.sub_eq_add_neg, BitVec.ofInt_add, BitVec.ofInt_neg, hx, hy, differenceOf, BitVec.sub_eq_add_neg]

theorem productOf_eq_ofInt (hx : BitVec.ofInt 32 x = v) (hy : BitVec.ofInt 32 y = w) :
    productOf v w = BitVec.ofInt 32 (x * y) := by
  rw [BitVec.ofInt_mul, hx, hy, productOf]

end

theorem ofInt_toNat (v : Word) : BitVec.ofInt 32 (v.toNat : Int) = v := by
  rw [BitVec.ofInt_natCast, BitVec.ofNat_toNat, BitVec.setWidth_eq]

/-- ADD, SUB and MUL write the low bits of the exact result, for any integers that their sources stand for. -/
theorem exec_addSubMul_writesRegister (s : State) (d a b : Reg) {x y : Int}
    (hx : BitVec.ofInt 32 x = s.operand 4 a) (hy : BitVec.ofInt 32 y = s.operand 4 b) :
    WritesRegister (exec (.add d a b) s) s 4 d (BitVec.ofInt 32 (x + y)) ∧
    WritesRegister (exec (.sub d a b) s) s 4 d (BitVec.ofInt 32 (x - y)) ∧
    WritesRegister (exec (.mul d a b) s) s 4 d (BitVec.ofInt 32 (x * y)) := by
  rw [← sumOf_eq_ofInt hx hy, ← differenceOf_eq_ofInt hx hy, ← productOf_eq_ofInt hx hy]
  exact ⟨alu_writesRegister sumOf d a b s, alu_writesRegister differenceOf d a b s,
    alu_writesRegister productOf d a b s⟩

/-- Settles O40: a word stands for its signed and for its unsigned value, and the rule for the integers that the
sources stand for covers both. -/
theorem addSubMulWrapTheExactResult : Obligations.AddSubMulWrapTheExactResult := by
  intro s d a b
  obtain ⟨hadd, hsub, hmul⟩ := exec_addSubMul_writesRegister s d a b BitVec.ofInt_toInt BitVec.ofInt_toInt
  obtain ⟨hadd', hsub', hmul'⟩ := exec_addSubMul_writesRegister s d a b (ofInt_toNat _) (ofInt_toNat _)
  exact ⟨hadd, hsub, hmul, hadd', hsub', hmul', encode_eq_aluWord (op := .add) rfl (by decide),
    encode_eq_aluWord (op := .sub) rfl (by decide), encode_eq_aluWord (op := .mul) rfl (by decide)⟩

/-! ## DIV and MOD -/

/-- The remainder that MOD writes is the one of the division that rounds toward zero. -/
theorem remainderOf_eq_tmod (v w : Word) : remainderOf v w = BitVec.ofInt 32 (v.toInt.tmod w.toInt) := by
  rw [remainderOf, Int.tmod_def, Int.mul_comm]

theorem abs_tmod_lt (x : Int) {y : Int} (hy : y ≠ 0) : |x.tmod y| < |y| := by
  rw [Int.abs_eq_natAbs, Int.abs_eq_natAbs, Int.natAbs_tmod, Int.ofNat_lt]
  exact Nat.mod_lt _ (Int.natAbs_pos.mpr hy)

/-- A dividend that is not positive has such a remainder, as that of its negation is not negative. -/
theorem tmod_nonpos {x : Int} (y : Int) (hx : x ≤ 0) : x.tmod y ≤ 0 := by
  have hneg : 0 ≤ (-x).tmod y := Int.tmod_nonneg y (Int.neg_nonneg_of_nonpos hx)
  rwa [Int.neg_tmod, Int.neg_nonneg] at hneg

/-- Settles O41: the quotient and the remainder of the division that rounds toward zero. -/
theorem divModSatisfyTheDivisionLaw : Obligations.DivModSatisfyTheDivisionLaw := by
  intro s d a b hb
  have hne : (s.operand 4 b).toInt ≠ 0 := BitVec.toInt_ne.mpr hb
  refine ⟨_, _, (Int.tdiv_mul_add_tmod _ _).symm, abs_tmod_lt _ hne, Int.tmod_nonneg _, tmod_nonpos _,
    aluDivide_writesRegister quotientOf d a hb, ?_⟩
  rw [← remainderOf_eq_tmod]
  exact aluDivide_writesRegister remainderOf d a hb

/-- Settles O43: the outcome is that of an Error, by whether a routine runs. -/
theorem zeroDivisorRaisesError : Obligations.ZeroDivisorRaisesError := by
  intro s d a b hb
  have hdiv : exec (.div d a b) s = s.raiseError := aluDivide_of_zero quotientOf d a hb
  have hmod : exec (.mod d a b) s = s.raiseError := aluDivide_of_zero remainderOf d a hb
  rw [hdiv, hmod]
  rcases raiseError_cases s with ⟨hin, hfault⟩ | ⟨hopen, hnext⟩
  · exact ⟨fun _ => ⟨hfault, hfault⟩, fun hout => by cases hout.symm.trans hin⟩
  · exact ⟨fun hin => (by cases hin.symm.trans hopen), fun _ =>
      ⟨_, hnext, hnext, interrupt_enters s s.pc (by decide) (by decide) (by decide)⟩⟩

/-- Settles O42: the divisor is not zero, so both write what the exact quotient 2^31 and remainder 0 are modulo
2^32. -/
theorem divModOverflowCase : Obligations.DivModOverflowCase := by
  intro s d a b ha hb
  have hne : s.operand 4 b ≠ 0 := by
    rw [hb]
    decide
  have hquot : quotientOf (s.operand 4 a) (s.operand 4 b) = 0x80000000 := by
    rw [ha, hb]
    decide
  have hrem : remainderOf (s.operand 4 a) (s.operand 4 b) = 0 := by
    rw [ha, hb]
    decide
  exact ⟨hquot ▸ aluDivide_writesRegister quotientOf d a hne, hrem ▸ aluDivide_writesRegister remainderOf d a hne⟩

/-! ## AND, OR, XOR and NOT -/

/-- Settles O44: the values are the bitwise operations on words, whose bits the library gives. -/
theorem logicWorksBitByBit : Obligations.LogicWorksBitByBit := by
  intro s d a b
  refine ⟨_, _, _, _, alu_writesRegister (· &&& ·) d a b s, alu_writesRegister (· ||| ·) d a b s,
    alu_writesRegister (· ^^^ ·) d a b s, alu_writesRegister (fun v _ => ~~~v) d a a s,
    encode_eq_aluWord (op := .and) rfl (by decide), encode_eq_aluWord (op := .or) rfl (by decide),
    encode_eq_aluWord (op := .xor) rfl (by decide), fun k hk => ⟨?_, ?_, ?_, ?_⟩⟩
  · exact BitVec.getLsbD_and
  · exact BitVec.getLsbD_or
  · exact BitVec.getLsbD_xor
  · rw [BitVec.getLsbD_not, decide_eq_true hk, Bool.true_and]

/-! ## ASL and ASR -/

/-- ASL is the library's left shift, by the whole count: from 32 on nothing is left. -/
theorem shiftLeftOf_eq (v w : Word) : shiftLeftOf v w = v <<< w.toNat := by
  unfold shiftLeftOf
  split
  · rename_i hge
    exact (BitVec.shiftLeft_eq_zero hge).symm
  · rw [← Nat.shiftLeft_eq]
    rfl

/-- From 32 on an arithmetic right shift leaves copies of the sign. -/
theorem sshiftRight_of_ge (v : Word) {n : Nat} (hn : 32 ≤ n) :
    v.sshiftRight n = if v.msb then 0xFFFFFFFF else 0 := by
  have hsign : v.sshiftRight n = BitVec.fill 32 v.msb := by
    ext i hi
    rw [BitVec.getElem_sshiftRight, dif_neg (by omega), BitVec.getElem_fill]
  rw [hsign]
  cases v.msb <;> rfl

/-- ASR is the library's arithmetic right shift, by the whole count. -/
theorem shiftRightOf_eq (v w : Word) : shiftRightOf v w = v.sshiftRight w.toNat := by
  unfold shiftRightOf
  split
  · rename_i hge
    exact (sshiftRight_of_ge v hge).symm
  · rw [BitVec.sshiftRight_eq, Int.shiftRight_eq_div_pow]

theorem getLsbD_shiftLeftOf (v w : Word) {k : Nat} (hk : k < 32) :
    (shiftLeftOf v w).getLsbD k = (decide (w.toNat ≤ k) && v.getLsbD (k - w.toNat)) := by
  rw [shiftLeftOf_eq, BitVec.getLsbD_shiftLeft, decide_eq_true hk, Bool.true_and, ← decide_not]
  simp only [Nat.not_lt]

theorem getLsbD_shiftRightOf (v w : Word) {k : Nat} (hk : k < 32) :
    (shiftRightOf v w).getLsbD k = v.getLsbD (if k + w.toNat < 32 then k + w.toNat else 31) := by
  rw [shiftRightOf_eq, BitVec.getLsbD_sshiftRight, decide_eq_false (Nat.not_le.mpr hk), Bool.not_false,
    Bool.true_and, Nat.add_comm]
  split
  · rfl
  · exact BitVec.msb_eq_getLsbD_last v

/-- Settles O45: the bits of the two shifts. -/
theorem shiftsMoveBitsByTheWholeCount : Obligations.ShiftsMoveBitsByTheWholeCount := by
  intro s d a b
  exact ⟨_, _, alu_writesRegister shiftLeftOf d a b s, alu_writesRegister shiftRightOf d a b s,
    encode_eq_aluWord (op := .asl) rfl (by decide), encode_eq_aluWord (op := .asr) rfl (by decide),
    fun _ hk => ⟨getLsbD_shiftLeftOf _ _ hk, getLsbD_shiftRightOf _ _ hk⟩⟩

end Sys2Proof.Machine
end

section
/-!
Interrupts and Errors at the boundary and in a step (60_exceptions.md R181 to R194): the entry and its undoing by RET,
the two deliveries and when there is none, INT where it stops, and over the whole machine that only an entry starts a
routine and that a step stops only where the spec stops it.
-/
namespace Sys2Proof

/-! ## The modes of two-dword instructions -/

/-- A form that waits for a second dword has one of the three modes of R73 (30_encoding.md). -/
theorem mode_of_decodeForm_two {op : Opcode} {am : Mode} {f : Fields} {g : Word → Instr}
    (h : decodeForm op am f = .ok (.two g)) : am = .imm ∨ am = .memdir ∨ am = .regdisp := by
  cases op
  case int | ret =>
    obtain ⟨-, hone⟩ := onlyRegdir_ok h
    cases hone
  case jmp | call =>
    rcases jumpForm_ok h with ⟨rfl, -⟩ | ⟨-, b, -, hone⟩ | ⟨rfl, -⟩
    · exact .inr (.inl rfl)
    · cases hone
    · exact .inr (.inr rfl)
  case jz | jnz | jgz | jgez | jlz | jlez =>
    obtain ⟨r, -, ⟨rfl, -⟩ | ⟨-, b, -, hone⟩ | ⟨rfl, -⟩⟩ := condForm_ok h
    · exact .inr (.inl rfl)
    · cases hone
    · exact .inr (.inr rfl)
  case load =>
    obtain ⟨r, t, -, -, ⟨rfl, -⟩ | ⟨rfl, -⟩ | ⟨b, -, ⟨-, hone⟩ | ⟨-, hone⟩ | ⟨rfl, -⟩⟩⟩ := loadForm_ok h
    · exact .inl rfl
    · exact .inr (.inl rfl)
    · cases hone
    · cases hone
    · exact .inr (.inr rfl)
  case store =>
    obtain ⟨r, t, -, -, ⟨rfl, -⟩ | ⟨b, -, ⟨-, hone⟩ | ⟨-, hone⟩ | ⟨rfl, -⟩⟩⟩ := storeForm_ok h
    · exact .inr (.inl rfl)
    · cases hone
    · cases hone
    · exact .inr (.inr rfl)
  case push | pop =>
    obtain ⟨r, -, hone⟩ := oneReg_ok (onlyRegdir_ok h).2
    cases hone
  case not =>
    obtain ⟨d, a, -, -, hone⟩ := twoRegs_ok (onlyRegdir_ok h).2
    cases hone
  all_goals
    obtain ⟨d, a, b, -, -, -, hone⟩ := threeRegs_ok (onlyRegdir_ok h).2
    cases hone

/-- What decodes is not one of the undefined encodings. -/
theorem defined_of_decodeHead {w : Word} {sh : Shape} (h : decodeHead w = .ok sh) :
    undefinedEncoding w = false := by
  rw [← Bool.not_eq_true, ← rejects_decodeHead, h]
  exact (rejects_ok sh).mp

/-- The mode field of a first dword that waits for its second is one of the three of R73. -/
theorem amField_of_decodeHead_two {w : Word} {g : Word → Instr} (h : decodeHead w = .ok (.two g)) :
    amField w = 0b100 ∨ amField w = 0b110 ∨ amField w = 0b111 := by
  unfold decodeHead at h
  simp only at h
  split at h
  · cases h
  · split at h
    · cases h
    · rename_i am ham
      rw [← ofWord_am_toNat, ← mode_code_of_ofCode ham]
      rcases mode_of_decodeForm_two h with rfl | rfl | rfl <;> decide

end Sys2Proof

namespace Sys2Proof.Machine

/-! ## The boundary -/

theorem step_of_halted {s : State} (h : s.halted = true) : step s = .fault .halted := by
  rw [step, if_pos h]

theorem step_of_delivers {s t : State} (hh : s.halted = false)
    (hd : s.hearHost.deliver s.turn.choice = some t) : step s = .next t := by
  rw [step, hh, if_neg Bool.false_ne_true, hd]

/-- A machine that is not halted delivers an interrupt or runs an instruction. -/
theorem delivers_or_runs {s : State} (hh : s.halted = false) :
    (∃ t, s.hearHost.deliver s.turn.choice = some t) ∨ RunsInstruction s := by
  cases hd : s.hearHost.deliver s.turn.choice with
  | some t => exact .inl ⟨t, rfl⟩
  | none => exact .inr ⟨hh, hd⟩

theorem deliver_of_inIntr {s : State} (hin : s.inIntr = true) (c : Choice) : s.deliver c = none := by
  cases hd : s.deliver c with
  | none => rfl
  | some t => cases hin.symm.trans (inIntr_of_deliver hd)

theorem deliver_keyboard_of_unread {s : State} (hu : s.keyUnread = true) : s.deliver .keyboard = none := by
  cases hd : s.deliver .keyboard with
  | none => rfl
  | some t =>
    rcases deliver_cases hd with ⟨hc, -⟩ | ⟨-, -, hclear, -⟩
    · cases hc
    · cases hu.symm.trans hclear

theorem deliver_timer {s : State} (hp : s.timerPending = true) (hopen : s.inIntr = false) :
    s.deliver .timer = some ({ s with timerPending := false }.interrupt 4 s.pc) := by
  rw [State.deliver, State.deliverTimer, hp, hopen]
  rfl

theorem deliver_keyboard {s : State} {k : Byte} {rest : List Byte} (hq : s.keyQueue = k :: rest)
    (hopen : s.inIntr = false) (hu : s.keyUnread = false) :
    s.deliver .keyboard =
      some ({ s with keyData := k, keyUnread := true, keyQueue := rest }.interrupt 5 s.pc) := by
  simp only [State.deliver, State.deliverKey, hq, hopen, hu]
  rfl

/-! ## When a step raises Error and when its fetch covers a device byte -/

/-- The host's events leave every register, so they leave the divisor. -/
theorem dividesByZero_hearHost {i : Instr} {s : State} : DividesByZero i s.hearHost ↔ DividesByZero i s :=
  Iff.rfl

theorem raisesError_of_undecodable {s : State} {e : DecodeError} (hf : s.hearHost.fetch = .undecodable e) :
    RaisesError s := by
  obtain ⟨h32, h36, he⟩ := fetch_undecodable hf
  exact .inl ⟨h32, h36, (rejects_decodeHead _).mp ⟨e, he⟩⟩

theorem raisesError_of_divides {s : State} {i : Instr} (hf : s.hearHost.fetch = .instr i)
    (hz : DividesByZero i s.hearHost) : RaisesError s :=
  .inr ⟨i, hf, dividesByZero_hearHost.mp hz⟩

/-- The fetch that is refused is the one R64 describes: a second dword is looked at only where the first is the
defined head of a two-dword instruction. -/
theorem fetchCoversDevice_of_overDevice {s : State} (hf : s.fetch = .overDevice) : FetchCoversDevice s := by
  rcases fetch_overDevice hf with h32 | h36 | ⟨⟨g, hd⟩, hsecond⟩
  · exact .inl h32
  · exact .inr (.inl h36)
  · exact .inr (.inr ⟨defined_of_decodeHead hd, amField_of_decodeHead_two hd, hsecond⟩)

/-! ## What starts a routine -/

/-- No routine starts: intrSP stays, and inIntr is not set where it was clear. -/
def StartsNoRoutine (s t : State) : Prop :=
  t.intrSP = s.intrSP ∧ (s.inIntr = false → t.inIntr = false)

/-- An instruction starts a routine: as an INT or as the Error of a zero divisor, each with its return address
(60_exceptions.md R184, R185). -/
def InstructionEnters (i : Instr) (s t : State) : Prop :=
  (∃ n, i = .int n ∧ n ≠ 0 ∧ n < 32 ∧ n ≠ 8 ∧ n ≠ 9 ∧ Enters s t n (s.pc + 4)) ∨
    (DividesByZero i s ∧ Enters s t 3 s.pc)

/-- One of the four sources of R181 starts a routine in this step: INT, Error, timer or keyboard. -/
def StepEnters (s t : State) : Prop :=
  (RunsInstruction s ∧ ∃ n, s.hearHost.fetch = .instr (.int n) ∧ n ≠ 0 ∧ n < 32 ∧ n ≠ 8 ∧ n ≠ 9 ∧
    Enters s.hearHost t n (s.pc + 4)) ∨
  (RunsInstruction s ∧ RaisesError s ∧ Enters s.hearHost t 3 s.pc) ∨
  (s.turn.choice = .timer ∧ (s.timerPending = true ∨ s.turn.tick = true) ∧
    Enters { s.hearHost with timerPending := false } t 4 s.pc) ∨
  (s.turn.choice = .keyboard ∧ s.keyUnread = false ∧
    ∃ k rest, s.keyQueue ++ s.turn.keys = k :: rest ∧
      Enters { s.hearHost with keyData := k, keyUnread := true, keyQueue := rest } t 5 s.pc)

theorem Enters.inIntr {s t : State} {n : Nat} {ret : Word} (h : Enters s t n ret) : t.inIntr = true := by
  obtain ⟨-, -, -, hin, -⟩ := h
  exact hin

theorem Enters.sameInput {s t : State} {n : Nat} {ret : Word} (h : Enters s t n ret) : SameInput s t := by
  obtain ⟨-, -, -, -, -, -, -, hinput, -⟩ := h
  exact hinput

theorem Enters.sameHost {s t : State} {n : Nat} {ret : Word} (h : Enters s t n ret) : SameHost s t := by
  obtain ⟨-, -, -, -, -, -, -, -, hhost⟩ := h
  exact hhost

theorem StepEnters.inIntr {s t : State} (h : StepEnters s t) : t.inIntr = true := by
  rcases h with ⟨-, n, -, -, -, -, -, he⟩ | ⟨-, -, he⟩ | ⟨-, -, he⟩ | ⟨-, -, k, rest, -, he⟩ <;> exact he.inIntr

/-- The instruction's move of PC before its entry does not show, since the entry sets PC. -/
theorem Enters.of_withPc {s t : State} {pc : Word} {n : Nat} {ret : Word}
    (h : Enters { s with pc := pc } t n ret) : Enters s t n ret := h

/-- Of the kinds of effect only an entry starts a routine, and only outside one. -/
theorem Effect.routine_starts {s t : State} {i : Instr} (he : Effect s i t) :
    StartsNoRoutine s t ∨ (s.inIntr = false ∧ InstructionEnters i s t) := by
  cases he with
  | reads => exact .inl ⟨rfl, id⟩
  | writes => exact .inl ⟨rfl, id⟩
  | halts => exact .inl ⟨rfl, id⟩
  | returns => exact .inl ⟨rfl, fun hopen => by simp only [hopen, Bool.false_and]⟩
  | enters pc n ret hopen hn h8 h9 why =>
    have hentry := (interrupt_enters { s with pc := pc } ret hn h8 h9).of_withPc
    refine .inr ⟨hopen, ?_⟩
    rcases why with ⟨hi, h0, rfl⟩ | ⟨hz, rfl, rfl⟩
    · exact .inl ⟨n, hi, h0, hn, h8, h9, hentry⟩
    · exact .inr ⟨hz, hentry⟩

/-- An instruction that the step runs starts a routine only as one of the sources of R181. -/
theorem InstructionEnters.stepEnters {s t : State} {i : Instr} (h : InstructionEnters i s.hearHost t)
    (hr : RunsInstruction s) (hf : s.hearHost.fetch = .instr i) : StepEnters s t := by
  rcases h with ⟨n, rfl, hentry⟩ | ⟨hz, hentry⟩
  · exact .inl ⟨hr, n, hf, hentry⟩
  · exact .inr (.inl ⟨hr, raisesError_of_divides hf hz, hentry⟩)

/-- A delivery is the entry of the timer or of the oldest key. -/
theorem stepEnters_of_deliver {s t : State} (hd : s.hearHost.deliver s.turn.choice = some t) :
    StepEnters s t := by
  rcases deliver_cases hd with ⟨hc, hp, -, rfl⟩ | ⟨hc, -, hu, k, rest, hq, rfl⟩
  · exact .inr (.inr (.inl ⟨hc, Bool.or_eq_true_iff.mp hp,
      interrupt_enters { s.hearHost with timerPending := false } s.pc (by decide) (by decide) (by decide)⟩))
  · exact .inr (.inr (.inr ⟨hc, hu, k, rest, hq, interrupt_enters
      { s.hearHost with keyData := k, keyUnread := true, keyQueue := rest } s.pc
      (by decide) (by decide) (by decide)⟩))

/-- A step starts no routine, or one of the four sources starts one outside any. -/
theorem step_routine_cases {s t : State} (hs : step s = .next t) :
    StartsNoRoutine s t ∨ (s.inIntr = false ∧ StepEnters s t) := by
  obtain ⟨-, hd | ⟨hr, ⟨i, hf, hx⟩ | ⟨e, hf, hopen, rfl⟩⟩⟩ := step_cases hs
  · have hopen : s.hearHost.inIntr = false := inIntr_of_deliver hd
    exact .inr ⟨hopen, stepEnters_of_deliver hd⟩
  · rcases (exec_effect hx).routine_starts with hno | ⟨hopen, hentry⟩
    · exact .inl hno
    · exact .inr ⟨hopen, hentry.stepEnters hr hf⟩
  · exact .inr ⟨hopen, .inr (.inl ⟨hr, raisesError_of_undecodable hf,
      interrupt_enters s.hearHost s.pc (by decide) (by decide) (by decide)⟩)⟩

/-- Settles O48: a step that sets inIntr or changes intrSP does start a routine, so it is the entry of
`step_routine_cases`. -/
theorem onlyAnEntryStartsARoutine : Obligations.OnlyAnEntryStartsARoutine := by
  intro s t hs
  rcases step_routine_cases hs with ⟨hsame, hkeeps⟩ | ⟨hopen, hentry⟩
  · exact ⟨fun hopen hin => (by cases hin.symm.trans (hkeeps hopen)), fun hne => absurd hsame hne⟩
  · exact ⟨fun _ _ => hentry, fun _ => ⟨hopen, hentry.inIntr⟩⟩

/-! ## Delivery -/

/-- Settles O14: once the host's events have arrived a tick waits, so the timer is deliverable, and its delivery is the
entry of R185. -/
theorem timerDeliveryEntersEntryFour : Obligations.TimerDeliveryEntersEntryFour := by
  intro s hh hopen hc htick
  have hp : s.hearHost.timerPending = true := Bool.or_eq_true_iff.mpr htick
  have hentry := interrupt_enters { s.hearHost with timerPending := false } s.pc (n := 4)
    (by decide) (by decide) (by decide)
  obtain ⟨hpending, -⟩ := hentry.sameHost
  refine ⟨_, step_of_delivers hh ?_, hpending, hentry⟩
  rw [hc]
  exact deliver_timer hp hopen

/-- Settles O15: the oldest key that waits once the host's events have arrived is deliverable, and its delivery is the
entry of R185. -/
theorem keyboardDeliveryEntersEntryFive : Obligations.KeyboardDeliveryEntersEntryFive := by
  intro s k rest hh hopen hu hc hq
  have hentry := interrupt_enters { s.hearHost with keyData := k, keyUnread := true, keyQueue := rest } s.pc
    (n := 5) (by decide) (by decide) (by decide)
  obtain ⟨hdata, hunread, -⟩ := hentry.sameInput
  obtain ⟨-, hqueue, -⟩ := hentry.sameHost
  refine ⟨_, step_of_delivers hh ?_, hdata, hunread, hqueue, hentry⟩
  rw [hc]
  exact deliver_keyboard hq hopen hu

/-- Settles O13: nothing is deliverable while a routine runs, and the host's events are heard at every boundary. -/
theorem nothingIsDeliveredInsideARoutine : Obligations.NothingIsDeliveredInsideARoutine := by
  intro s hin hh
  exact ⟨step_of_runs ⟨hh, deliver_of_inIntr (s := s.hearHost) hin s.turn.choice⟩, rfl, rfl⟩

/-- Settles O16: the keyboard is not deliverable while keyUnread is set. -/
theorem noKeyIsDeliveredWhileOneIsUnread : Obligations.NoKeyIsDeliveredWhileOneIsUnread := by
  intro s hh hu hc
  refine step_of_runs ⟨hh, ?_⟩
  rw [hc]
  exact deliver_keyboard_of_unread hu

/-! ## Interrupt entry and its end -/

/-- Settles O20: `interrupt_enters`, for the numbers whose entries are clear of the device bytes. -/
theorem interruptEntryPushesAndVectors : Obligations.InterruptEntryPushesAndVectors :=
  fun s _ ret _ hn h8 h9 => interrupt_enters s ret hn h8 h9

/-- In a state that an entry has made, with its slot clear of the device bytes, RET reads the slot that the entry wrote,
at the SP that the entry noted in intrSP (60_exceptions.md R185, R187). -/
theorem Enters.undone_by_ret {s u : State} {n : Nat} {ret : Word} (h : Enters s u n ret)
    (h32 : inSpan (s.sp + 4) 4 32 = false) (h36 : inSpan (s.sp + 4) 4 36 = false) :
    ∃ t, exec .ret u = .next t ∧ t.pc = ret ∧ t.sp = s.sp ∧ t.inIntr = false ∧
      (∀ i, t.reg (.gpr i) = s.reg (.gpr i)) ∧
      (∀ a, inSpan (s.sp + 4) 4 a = false → t.byteAt a = s.byteAt a) := by
  obtain ⟨hgpr, hsp, hstored, -, hlevel, -⟩ := h
  obtain ⟨t, hret, hreg, hin, -, -, -, -, -, hsame, -⟩ := retPopsThePc u
  have hslot : u.seenDword u.sp = ret := by
    rw [hsp, seenDword_plain u h32 h36, storedDword_of_stored hstored h32 h36]
  have htop : u.sp - 4 = s.sp := by rw [hsp, BitVec.add_sub_cancel]
  have hends : t.inIntr = false := by
    rw [← Bool.not_eq_true, hin]
    rintro ⟨-, hne⟩
    exact hne (hsp.trans hlevel.symm)
  refine ⟨t, hret, (hreg .pc).trans hslot, (hreg .sp).trans htop, hends,
    fun i => (hreg (.gpr i)).trans (hgpr i), fun a ha => ?_⟩
  calc t.byteAt a = u.byteAt a := hsame a
    _ = s.byteAt a := by rw [hstored.1, ha, if_neg fun h => Bool.false_ne_true h.1]

/-- Settles O21: the state right after the entry is one that the entry has made. -/
theorem retUndoesAnInterruptEntry : Obligations.RetUndoesAnInterruptEntry :=
  fun s _ ret _ hn h8 h9 h32 h36 => (interrupt_enters s ret hn h8 h9).undone_by_ret h32 h36

/-! ## INT 0 and the halted machine -/

/-- Settles O12: the step asks first whether the machine has halted. -/
theorem haltedMachineTakesNoStep : Obligations.HaltedMachineTakesNoStep :=
  fun _ hh => step_of_halted hh

/-- Settles O24: INT 0 sets halted in the state past the instruction, whatever inIntr holds. -/
theorem intZeroHalts : Obligations.IntZeroHalts := by
  intro s
  refine ⟨_, exec_int_zero s, rfl, fun r => ?_, fun _ => rfl, rfl, ⟨rfl, rfl, rfl⟩, rfl, rfl, ⟨rfl, rfl, rfl⟩,
    step_of_halted rfl⟩
  rw [← reg_advance_operand]
  cases r <;> rfl

/-- Settles O25: of the cases of an INT each clause leaves the one it states. -/
theorem intStopsWhereTheSpecSays : Obligations.IntStopsWhereTheSpecSays := by
  intro s n
  rcases execInt_cases n s with ⟨hz, -⟩ | ⟨hge, -⟩ | ⟨h89, h⟩ | ⟨-, -, h8, h9, hin⟩
  · exact ⟨by omega, fun h0 => absurd hz h0⟩
  · exact ⟨by omega, by omega⟩
  · exact ⟨fun _ => h, by omega⟩
  · refine ⟨by omega, fun _ _ _ _ hroutine => ?_⟩
    rcases hin with ⟨-, h⟩ | ⟨hopen, -⟩
    · exact h
    · cases hroutine.symm.trans hopen

/-! ## Where a step stops -/

/-- Settles O51: a delivery gives a next state; otherwise the step is what the fetch finds, and an instruction stops as
`exec_stops` says, where a fetched one is never ill-formed. -/
theorem stepsStopOnlyWhereTheSpecSays : Obligations.StepsStopOnlyWhereTheSpecSays := by
  intro s hh
  rcases delivers_or_runs hh with ⟨t, hd⟩ | hr
  · exact .inl ⟨t, step_of_delivers hh hd⟩
  cases hf : s.fetch with
  | instr i =>
    have hheard : s.hearHost.fetch = .instr i := (fetch_hearHost s).trans hf
    rw [step_of_fetch hr hf, hheard]
    rcases exec_stops i s.hearHost with hnext | ⟨hin, hfault, hwhy⟩ | ⟨href, h89⟩ | ⟨-, hill⟩
    · exact .inl hnext
    · refine .inr (.inl ⟨hfault, hin, hr, ?_⟩)
      rcases hwhy with ⟨n, rfl, hn⟩ | hz
      · exact .inl ⟨n, rfl, hn⟩
      · exact .inr (raisesError_of_divides hheard hz)
    · exact .inr (.inr (.inr ⟨href, hr, h89.imp (congrArg _) (congrArg _)⟩))
    · cases (fetch_wellFormed hf).symm.trans hill
  | undecodable e =>
    have hheard : s.hearHost.fetch = .undecodable e := (fetch_hearHost s).trans hf
    rw [step_of_undecodable hr hf]
    rcases raiseError_cases s.hearHost with ⟨hin, hfault⟩ | ⟨-, hnext⟩
    · exact .inr (.inl ⟨hfault, hin, hr, .inr (raisesError_of_undecodable hheard)⟩)
    · exact .inl ⟨_, hnext⟩
  | overDevice =>
    exact .inr (.inr (.inl ⟨step_of_overDevice hr hf, hr, fetchCoversDevice_of_overDevice hf⟩))

end Sys2Proof.Machine
end

section
/-!
The ends of a run (70_reset_and_hazards.md R220, R224): what the reset sequence sets, that only INT 0 halts the machine,
and that outside a routine a step is safe unless the spec refuses it.
-/
namespace Sys2Proof.Machine

/-! ## Reset -/

/-- A state's dword is the dword of its memory. -/
theorem storedDword_eq_dwordAt (s : State) (a : Word) : s.storedDword a = s.mem.dwordAt a := rfl

/-- The boot sequence takes SP from IVT entry 0 of the image. -/
theorem boot_sp (p : BootParams) : (State.boot p).sp = p.image.dwordAt 0 := rfl

/-- Settles O1: SP is the image's dword at 0, which the booted storage holds, and each other value is one that the
sequence sets or takes from its parameters. -/
theorem resetSequenceSetsTheStatedValues : Obligations.ResetSequenceSetsTheStatedValues := by
  intro p
  have hsp : (State.boot p).sp = (State.boot p).storedDword 0 := by
    rw [boot_sp, storedDword_eq_dwordAt, boot_mem]
  exact ⟨hsp, rfl, rfl, rfl, rfl, rfl, rfl, fun _ => rfl, fun _ => rfl, rfl, rfl⟩

/-! ## What halts the machine -/

/-- An entry neither halts the machine nor wakes it. -/
@[simp] theorem interrupt_halted (s : State) (n : Nat) (ret : Word) : (s.interrupt n ret).halted = s.halted := by
  unfold State.interrupt
  simp only [memRead_halted, pushWord_eq]

/-- Of the kinds of effect only that of INT 0 sets halted. -/
theorem Effect.halts_only_intZero {s t : State} {i : Instr} (he : Effect s i t) (hrunning : s.halted = false)
    (hend : t.halted = true) : i = .int 0 := by
  cases he with
  | halts => rfl
  | reads => cases hrunning.symm.trans hend
  | writes => cases hrunning.symm.trans hend
  | returns => cases hrunning.symm.trans hend
  | enters pc n ret =>
    rw [interrupt_halted] at hend
    cases hrunning.symm.trans hend

theorem deliver_halted {s t : State} {c : Choice} (hd : s.deliver c = some t) : t.halted = s.halted := by
  rcases deliver_cases hd with ⟨-, -, -, rfl⟩ | ⟨-, -, -, k, rest, -, rfl⟩ <;> rw [interrupt_halted]

/-- Settles O46, by the ways a step gives a next state: a delivery and the Error of an undecodable dword leave halted,
so an instruction has run, and its effect is that of INT 0. -/
theorem onlyIntZeroHalts : Obligations.OnlyIntZeroHalts := by
  intro s t hs hend
  obtain ⟨hrunning, hd | ⟨hr, ⟨i, hf, hx⟩ | ⟨e, -, -, rfl⟩⟩⟩ := step_cases hs
  · rw [deliver_halted hd, hearHost_halted] at hend
    cases hrunning.symm.trans hend
  · obtain rfl := (exec_effect hx).halts_only_intZero hrunning hend
    exact ⟨hr, hf⟩
  · rw [interrupt_halted, hearHost_halted] at hend
    cases hrunning.symm.trans hend

/-! ## Safety outside a routine -/

/-- The fetch is over a device byte exactly where R64 (20_memory.md) says: in the first dword, or in the second of a
defined two-dword instruction. -/
theorem fetch_eq_overDevice_iff {s : State} : s.fetch = .overDevice ↔ FetchCoversDevice s := by
  refine ⟨fetchCoversDevice_of_overDevice, fun hcovers => ?_⟩
  by_cases hfirst : inSpan s.pc 4 32 = true ∨ inSpan s.pc 4 36 = true
  · exact fetch_of_first_overDevice hfirst
  · obtain ⟨h32, h36⟩ := not_or.mp hfirst
    rcases hcovers with h | h | ⟨hu, ham, hsecond⟩
    · exact absurd h h32
    · exact absurd h h36
    · exact fetch_of_second_overDevice (Bool.eq_false_of_not_eq_true h32) (Bool.eq_false_of_not_eq_true h36)
        (decodeHead_twoDwords hu ham) hsecond

/-- Settles O52: of the stops of a machine that has not halted (`stepsStopOnlyWhereTheSpecSays`), one needs a routine
and the others are the refused fetch and the two refused numbers of INT. -/
theorem stepsOutsideARoutineAreSafe : Obligations.StepsOutsideARoutineAreSafe := by
  intro s hopen hplain h8 h9
  cases hh : s.halted with
  | true => exact .inr (step_of_halted hh)
  | false =>
    rcases stepsStopOnlyWhereTheSpecSays s hh with hnext | ⟨-, hin, -⟩ | ⟨-, -, hcovers⟩ | ⟨-, -, h89⟩
    · exact .inl hnext
    · cases hopen.symm.trans hin
    · exact absurd ((fetch_hearHost s).trans (fetch_eq_overDevice_iff.mpr hcovers)) hplain
    · exact absurd h89 (not_or.mpr ⟨h8, h9⟩)

end Sys2Proof.Machine
end
